-- ==== Sys2Proof/Word.lean ====
section
/-! DEFINITION. The word types of the block (00_scope R7, R9): 32-bit data and register words, 16-bit
instruction words, 5-bit slot numbers and pin indices, and arrays of one bit per pin. -/

namespace Sys2Proof

/-- A 32-bit word: X, Y, the OSR, a FIFO entry, a host register (R7, R36). -/
abbrev Word := BitVec 32

/-- A 16-bit instruction word (R7, R100). -/
abbrev Half := BitVec 16

/-- A 5-bit slot number of the instruction memory (R22). -/
abbrev Slot := BitVec 5

/-- A 5-bit pin index, 0 to 31 (R7). -/
abbrev PinIx := BitVec 5

/-- One bit for each pin index 0 to 31 (R32). -/
abbrev Pins := Vector Bool 32

end Sys2Proof
end

