-- ==== Sys2Proof/Syntax.lean ====
section
/-! DEFINITION. The instructions: one constructor for each of the 38 rows of spec/opcode_table.json. The
first twenty are the admitted ones (30_encoding R101 to R111). The last eighteen are the rows the spec
refuses or reserves (R112, R113); each keeps the bits its row leaves free, so that no word is lost. -/

namespace Sys2Proof

/-- An instruction. `delay` is the delay field `w[12:8]` of every word (R104). -/
inductive Instr where
  -- JMP, format R102, conditions R110
  /-- `JMP addr`, R161. -/
  | jmp (delay : BitVec 5) (addr : Slot)
  /-- `JMP !X, addr`, R162. -/
  | jmpNotX (delay : BitVec 5) (addr : Slot)
  /-- `JMP X--, addr`, R163. -/
  | jmpXDec (delay : BitVec 5) (addr : Slot)
  /-- `JMP !Y, addr`, R164. -/
  | jmpNotY (delay : BitVec 5) (addr : Slot)
  /-- `JMP Y--, addr`, R165. -/
  | jmpYDec (delay : BitVec 5) (addr : Slot)
  /-- `JMP X!=Y, addr`, R166. -/
  | jmpXNeY (delay : BitVec 5) (addr : Slot)
  /-- `JMP PIN, addr`, R167. -/
  | jmpPin (delay : BitVec 5) (addr : Slot)
  /-- `JMP !OSRE, addr`, R168. -/
  | jmpNotOsre (delay : BitVec 5) (addr : Slot)
  -- OUT, format R103
  /-- `OUT X, n`, R191. `count` 0 means 32 bits. -/
  | outX (delay : BitVec 5) (count : BitVec 5)
  /-- `OUT Y, n`, R192. -/
  | outY (delay : BitVec 5) (count : BitVec 5)
  /-- `OUT NULL, n`, R193. -/
  | outNull (delay : BitVec 5) (count : BitVec 5)
  -- PULL, format R106
  /-- `PULL BLOCK`, R195. -/
  | pullBlock (delay : BitVec 5)
  /-- `PULL NOBLOCK`, R196. -/
  | pullNoblock (delay : BitVec 5)
  /-- `PULL IFEMPTY BLOCK`, R197. -/
  | pullIfemptyBlock (delay : BitVec 5)
  /-- `PULL IFEMPTY NOBLOCK`, R198. -/
  | pullIfemptyNoblock (delay : BitVec 5)
  -- MOV, format R107
  /-- `NOP` = `MOV Y, Y`, R220. -/
  | nop (delay : BitVec 5)
  -- SET, format R108
  /-- `SET PINS, data`, R181. -/
  | setPins (delay : BitVec 5) (data : BitVec 5)
  /-- `SET X, data`, R183. -/
  | setX (delay : BitVec 5) (data : BitVec 5)
  /-- `SET Y, data`, R184. -/
  | setY (delay : BitVec 5) (data : BitVec 5)
  /-- `SET PINDIRS, data`, R182. -/
  | setPindirs (delay : BitVec 5) (data : BitVec 5)
  -- refused classes and destinations, R112
  /-- `WAIT`, refused. -/
  | waitRefused (delay : BitVec 5) (arg : BitVec 8)
  /-- `IN`, refused. -/
  | inRefused (delay : BitVec 5) (arg : BitVec 8)
  /-- `OUT PINS`, refused. -/
  | outPinsRefused (delay : BitVec 5) (count : BitVec 5)
  /-- `OUT PINDIRS`, refused. -/
  | outPindirsRefused (delay : BitVec 5) (count : BitVec 5)
  /-- `OUT PC`, refused. -/
  | outPcRefused (delay : BitVec 5) (count : BitVec 5)
  /-- `OUT ISR`, refused. -/
  | outIsrRefused (delay : BitVec 5) (count : BitVec 5)
  /-- `OUT EXEC`, refused. -/
  | outExecRefused (delay : BitVec 5) (count : BitVec 5)
  /-- `PUSH` (`ARG[7] = 0`), refused. -/
  | pushRefused (delay : BitVec 5) (arg : BitVec 7)
  /-- `PULL` with `ARG[4:0]` not 0, reserved (R106, R113). -/
  | pullReserved (delay : BitVec 5) (ifeBlk : BitVec 2) (low : BitVec 5)
  /-- `MOV` with destination 011, reserved (R113). -/
  | movReservedDest (delay : BitVec 5) (op : BitVec 2) (src : BitVec 3)
  /-- `MOV` with operation 11, reserved (R113). -/
  | movReservedOp (delay : BitVec 5) (dest : BitVec 3) (src : BitVec 3)
  /-- `MOV` with source 100, reserved (R113). -/
  | movReservedSrc (delay : BitVec 5) (dest : BitVec 3) (op : BitVec 2)
  /-- Every other `MOV` but `MOV Y, Y`, refused (R221). -/
  | movOther (delay : BitVec 5) (dest : BitVec 3) (op : BitVec 2) (src : BitVec 3)
  /-- `IRQ`, refused. -/
  | irqRefused (delay : BitVec 5) (arg : BitVec 8)
  /-- `SET` destination 011, reserved (R185). -/
  | setReserved3 (delay : BitVec 5) (data : BitVec 5)
  /-- `SET` destination 101, reserved (R185). -/
  | setReserved5 (delay : BitVec 5) (data : BitVec 5)
  /-- `SET` destination 110, reserved (R185). -/
  | setReserved6 (delay : BitVec 5) (data : BitVec 5)
  /-- `SET` destination 111, reserved (R185). -/
  | setReserved7 (delay : BitVec 5) (data : BitVec 5)
deriving DecidableEq, Repr

end Sys2Proof
end

