-- ==== Sys2Proof/WellFormed.lean ====
section
/-! DEFINITION. Which terms of Instr stand for a word. A field of an admitted instruction may hold every
value of its width. The rows the opcode table lists after another row they overlap with (PULL reserved,
the MOV rows) stand only for the words no earlier row matches (30_encoding R114). -/

namespace Sys2Proof

/-- The instruction is the reading of some word: the bits its row leaves free do not make an earlier row
match (R114). -/
def wellFormed : Instr → Bool
  | .pullReserved _ _ low => low != 0
  | .movReservedOp _ dest _ => dest != 3
  | .movReservedSrc _ dest op => dest != 3 && op != 3
  | .movOther _ dest op src => dest != 3 && op != 3 && src != 4 && !(dest == 2 && op == 0 && src == 2)
  | _ => true

end Sys2Proof
end

