-- ==== Sys2Proof/Decode.lean ====
section
/-! DEFINITION. The decoder, total on every 16-bit word (30_encoding R114), then the encoder from the same
formats (R102, R103, R106 to R108), the opcode table as data, and the verdict of R101. -/

namespace Sys2Proof

/-! ## Fields (R100) -/

/-- `OPC = w[15:13]`. -/
def opcField (w : Half) : BitVec 3 := w.extractLsb' 13 3

/-- `DS = w[12:8]`, all of it delay (R104). -/
def delayField (w : Half) : BitVec 5 := w.extractLsb' 8 5

/-- `ARG = w[7:0]`. -/
def argField (w : Half) : BitVec 8 := w.extractLsb' 0 8

/-- `w[7:5]`: COND of a JMP, DEST of an OUT, a MOV or a SET (R102, R103, R107, R108). -/
def selField (w : Half) : BitVec 3 := w.extractLsb' 5 3

/-- `w[4:0]`: ADDR, BITCOUNT or DATA (R109). -/
def lowField (w : Half) : BitVec 5 := w.extractLsb' 0 5

/-! ## Decoding, class by class -/

/-- JMP, all eight conditions admitted (R110). -/
def decodeJmp (d : BitVec 5) (sel : BitVec 3) (a : BitVec 5) : Instr :=
  if sel = 0 then .jmp d a
  else if sel = 1 then .jmpNotX d a
  else if sel = 2 then .jmpXDec d a
  else if sel = 3 then .jmpNotY d a
  else if sel = 4 then .jmpYDec d a
  else if sel = 5 then .jmpXNeY d a
  else if sel = 6 then .jmpPin d a
  else .jmpNotOsre d a

/-- OUT: X, Y and NULL admitted, the other destinations refused (R111). -/
def decodeOut (d : BitVec 5) (sel : BitVec 3) (n : BitVec 5) : Instr :=
  if sel = 0 then .outPinsRefused d n
  else if sel = 1 then .outX d n
  else if sel = 2 then .outY d n
  else if sel = 3 then .outNull d n
  else if sel = 4 then .outPindirsRefused d n
  else if sel = 5 then .outPcRefused d n
  else if sel = 6 then .outIsrRefused d n
  else .outExecRefused d n

/-- OPC 100: PUSH where `ARG[7] = 0`, else PULL, reserved unless `ARG[4:0] = 0` (R101, R106). -/
def decodePushPull (d : BitVec 5) (arg : BitVec 8) : Instr :=
  if arg.getLsbD 7 = false then .pushRefused d (arg.extractLsb' 0 7)
  else if arg.extractLsb' 0 5 ≠ 0 then .pullReserved d (arg.extractLsb' 5 2) (arg.extractLsb' 0 5)
  else if arg.getLsbD 6 then
    if arg.getLsbD 5 then .pullIfemptyBlock d else .pullIfemptyNoblock d
  else
    if arg.getLsbD 5 then .pullBlock d else .pullNoblock d

/-- MOV: only `MOV Y, Y` admitted; the rows of the table in their order (R107, R113, R221). -/
def decodeMov (d : BitVec 5) (dest : BitVec 3) (op : BitVec 2) (src : BitVec 3) : Instr :=
  if dest = 2 ∧ op = 0 ∧ src = 2 then .nop d
  else if dest = 3 then .movReservedDest d op src
  else if op = 3 then .movReservedOp d dest src
  else if src = 4 then .movReservedSrc d dest op
  else .movOther d dest op src

/-- SET: PINS, X, Y and PINDIRS admitted, the other destinations reserved (R111, R113). -/
def decodeSet (d : BitVec 5) (sel : BitVec 3) (v : BitVec 5) : Instr :=
  if sel = 0 then .setPins d v
  else if sel = 1 then .setX d v
  else if sel = 2 then .setY d v
  else if sel = 3 then .setReserved3 d v
  else if sel = 4 then .setPindirs d v
  else if sel = 5 then .setReserved5 d v
  else if sel = 6 then .setReserved6 d v
  else .setReserved7 d v

/-- The instruction a word stands for (R101, R114). -/
def decode (w : Half) : Instr :=
  let opc := opcField w
  let d := delayField w
  if opc = 0 then decodeJmp d (selField w) (lowField w)
  else if opc = 1 then .waitRefused d (argField w)
  else if opc = 2 then .inRefused d (argField w)
  else if opc = 3 then decodeOut d (selField w) (lowField w)
  else if opc = 4 then decodePushPull d (argField w)
  else if opc = 5 then decodeMov d (selField w) (w.extractLsb' 3 2) (w.extractLsb' 0 3)
  else if opc = 6 then .irqRefused d (argField w)
  else decodeSet d (selField w) (lowField w)

/-! ## Encoding -/

/-- A word from its class, delay and argument (R100). -/
def assemble (opc : BitVec 3) (d : BitVec 5) (arg : BitVec 8) : Half := opc ++ d ++ arg

/-- An argument made of a selector `[7:5]` and a low field `[4:0]` (R102, R103, R108). -/
def selArg (sel : BitVec 3) (low : BitVec 5) : BitVec 8 := sel ++ low

/-- An argument of the MOV format (R107). -/
def movArg (dest : BitVec 3) (op : BitVec 2) (src : BitVec 3) : BitVec 8 := dest ++ op ++ src

/-- The word of an instruction (R102, R103, R106 to R108, R119). -/
def encode : Instr → Half
  | .jmp d a => assemble 0 d (selArg 0 a)
  | .jmpNotX d a => assemble 0 d (selArg 1 a)
  | .jmpXDec d a => assemble 0 d (selArg 2 a)
  | .jmpNotY d a => assemble 0 d (selArg 3 a)
  | .jmpYDec d a => assemble 0 d (selArg 4 a)
  | .jmpXNeY d a => assemble 0 d (selArg 5 a)
  | .jmpPin d a => assemble 0 d (selArg 6 a)
  | .jmpNotOsre d a => assemble 0 d (selArg 7 a)
  | .outX d n => assemble 3 d (selArg 1 n)
  | .outY d n => assemble 3 d (selArg 2 n)
  | .outNull d n => assemble 3 d (selArg 3 n)
  | .pullBlock d => assemble 4 d 0xA0
  | .pullNoblock d => assemble 4 d 0x80
  | .pullIfemptyBlock d => assemble 4 d 0xE0
  | .pullIfemptyNoblock d => assemble 4 d 0xC0
  | .nop d => assemble 5 d 0x42
  | .setPins d v => assemble 7 d (selArg 0 v)
  | .setX d v => assemble 7 d (selArg 1 v)
  | .setY d v => assemble 7 d (selArg 2 v)
  | .setPindirs d v => assemble 7 d (selArg 4 v)
  | .waitRefused d a => assemble 1 d a
  | .inRefused d a => assemble 2 d a
  | .outPinsRefused d n => assemble 3 d (selArg 0 n)
  | .outPindirsRefused d n => assemble 3 d (selArg 4 n)
  | .outPcRefused d n => assemble 3 d (selArg 5 n)
  | .outIsrRefused d n => assemble 3 d (selArg 6 n)
  | .outExecRefused d n => assemble 3 d (selArg 7 n)
  | .pushRefused d a => assemble 4 d (0#1 ++ a)
  | .pullReserved d ib low => assemble 4 d (1#1 ++ ib ++ low)
  | .movReservedDest d op src => assemble 5 d (movArg 3 op src)
  | .movReservedOp d dest src => assemble 5 d (movArg dest 3 src)
  | .movReservedSrc d dest op => assemble 5 d (movArg dest op 4)
  | .movOther d dest op src => assemble 5 d (movArg dest op src)
  | .irqRefused d a => assemble 6 d a
  | .setReserved3 d v => assemble 7 d (selArg 3 v)
  | .setReserved5 d v => assemble 7 d (selArg 5 v)
  | .setReserved6 d v => assemble 7 d (selArg 6 v)
  | .setReserved7 d v => assemble 7 d (selArg 7 v)

/-! ## A stream of words -/

/-- Why a list of words yields no instruction. -/
inductive DecodeReject where
  /-- There is no word: an instruction is one word long (R100). -/
  | noWord
deriving DecidableEq, Repr

/-- The first instruction of a list of words and the rest of the list (R100: always one slot). -/
def decodeWords : List Half → Except DecodeReject (Instr × List Half)
  | [] => .error .noWord
  | w :: rest => .ok (decode w, rest)

/-- The instruction whose bits are `w` (`nbits` of them, the table's 16; a shorter count leaves the bits
above it 0). A number that does not fit its bits, or more than one word of bits, is no instruction. -/
def decodeTableWord (nbits w : Nat) : Option Instr :=
  if nbits ≤ 16 ∧ w < 2 ^ nbits then
    match decodeWords [BitVec.ofNat 16 w] with
    | .ok (i, []) => some i
    | _ => none
  else none

/-! ## The decoder's verdict (R101, R114) -/

/-- A decoded word is admitted, or refused for a reason (R114). -/
inductive Verdict where
  | admitted
  | refusedClass
  | refusedDestination
  | reservedPattern
deriving DecidableEq, Repr

/-- The verdict on each row (R101, R111 to R113, R221). DESIGN CHOICE: a MOV that is neither NOP nor reserved
counts as a refused class; the spec refuses it without saying which of R114's reasons it is (log 5). DESIGN
CHOICE: so does a PUSH with `ARG[4:0]` not 0, which R112 refuses as a class and R113 as reserved (log 5). -/
def verdict : Instr → Verdict
  | .waitRefused _ _ => .refusedClass
  | .inRefused _ _ => .refusedClass
  | .pushRefused _ _ => .refusedClass
  | .irqRefused _ _ => .refusedClass
  | .movOther _ _ _ _ => .refusedClass
  | .outPinsRefused _ _ => .refusedDestination
  | .outPindirsRefused _ _ => .refusedDestination
  | .outPcRefused _ _ => .refusedDestination
  | .outIsrRefused _ _ => .refusedDestination
  | .outExecRefused _ _ => .refusedDestination
  | .pullReserved _ _ _ => .reservedPattern
  | .movReservedDest _ _ _ => .reservedPattern
  | .movReservedOp _ _ _ => .reservedPattern
  | .movReservedSrc _ _ _ => .reservedPattern
  | .setReserved3 _ _ => .reservedPattern
  | .setReserved5 _ _ => .reservedPattern
  | .setReserved6 _ _ => .reservedPattern
  | .setReserved7 _ _ => .reservedPattern
  | .jmp _ _ => .admitted
  | .jmpNotX _ _ => .admitted
  | .jmpXDec _ _ => .admitted
  | .jmpNotY _ _ => .admitted
  | .jmpYDec _ _ => .admitted
  | .jmpXNeY _ _ => .admitted
  | .jmpPin _ _ => .admitted
  | .jmpNotOsre _ _ => .admitted
  | .outX _ _ => .admitted
  | .outY _ _ => .admitted
  | .outNull _ _ => .admitted
  | .pullBlock _ => .admitted
  | .pullNoblock _ => .admitted
  | .pullIfemptyBlock _ => .admitted
  | .pullIfemptyNoblock _ => .admitted
  | .nop _ => .admitted
  | .setPins _ _ => .admitted
  | .setX _ _ => .admitted
  | .setY _ _ => .admitted
  | .setPindirs _ _ => .admitted

/-- The delay field of an instruction (R104). -/
def delayOf (i : Instr) : BitVec 5 := delayField (encode i)

/-! ## The opcode table as data -/

/-- A row of spec/opcode_table.json: the mask, the bits it must match, and whether it is admitted. -/
structure OpRow where
  mask : Half
  pattern : Half
  admitted : Bool
deriving DecidableEq, Repr

/-- The admitted rows of spec/opcode_table.json, in its order. -/
def admittedRows : List OpRow :=
  [⟨0xE0E0, 0x0000, true⟩, ⟨0xE0E0, 0x0020, true⟩, ⟨0xE0E0, 0x0040, true⟩, ⟨0xE0E0, 0x0060, true⟩,
   ⟨0xE0E0, 0x0080, true⟩, ⟨0xE0E0, 0x00A0, true⟩, ⟨0xE0E0, 0x00C0, true⟩, ⟨0xE0E0, 0x00E0, true⟩,
   ⟨0xE0E0, 0x6020, true⟩, ⟨0xE0E0, 0x6040, true⟩, ⟨0xE0E0, 0x6060, true⟩,
   ⟨0xE0FF, 0x80A0, true⟩, ⟨0xE0FF, 0x8080, true⟩, ⟨0xE0FF, 0x80E0, true⟩, ⟨0xE0FF, 0x80C0, true⟩,
   ⟨0xE0FF, 0xA042, true⟩,
   ⟨0xE0E0, 0xE000, true⟩, ⟨0xE0E0, 0xE020, true⟩, ⟨0xE0E0, 0xE040, true⟩, ⟨0xE0E0, 0xE080, true⟩]

/-- The refused and reserved rows of spec/opcode_table.json, in its order. -/
def refusedRows : List OpRow :=
  [⟨0xE000, 0x2000, false⟩, ⟨0xE000, 0x4000, false⟩, ⟨0xE0E0, 0x6000, false⟩, ⟨0xE0E0, 0x6080, false⟩,
   ⟨0xE0E0, 0x60A0, false⟩, ⟨0xE0E0, 0x60C0, false⟩, ⟨0xE0E0, 0x60E0, false⟩, ⟨0xE080, 0x8000, false⟩,
   ⟨0xE080, 0x8080, false⟩, ⟨0xE0E0, 0xA060, false⟩, ⟨0xE018, 0xA018, false⟩, ⟨0xE007, 0xA004, false⟩,
   ⟨0xE000, 0xA000, false⟩, ⟨0xE000, 0xC000, false⟩, ⟨0xE0E0, 0xE060, false⟩, ⟨0xE0E0, 0xE0A0, false⟩,
   ⟨0xE0E0, 0xE0C0, false⟩, ⟨0xE0E0, 0xE0E0, false⟩]

/-- The whole table, admitted rows first (R114). -/
def opcodeTable : List OpRow := admittedRows ++ refusedRows

/-- A word matches a row. -/
def OpRow.matchesWord (r : OpRow) (w : Half) : Bool := w &&& r.mask == r.pattern

/-- The position in the table of an instruction's row. -/
def rowOf : Instr → Nat
  | .jmp _ _ => 0
  | .jmpNotX _ _ => 1
  | .jmpXDec _ _ => 2
  | .jmpNotY _ _ => 3
  | .jmpYDec _ _ => 4
  | .jmpXNeY _ _ => 5
  | .jmpPin _ _ => 6
  | .jmpNotOsre _ _ => 7
  | .outX _ _ => 8
  | .outY _ _ => 9
  | .outNull _ _ => 10
  | .pullBlock _ => 11
  | .pullNoblock _ => 12
  | .pullIfemptyBlock _ => 13
  | .pullIfemptyNoblock _ => 14
  | .nop _ => 15
  | .setPins _ _ => 16
  | .setX _ _ => 17
  | .setY _ _ => 18
  | .setPindirs _ _ => 19
  | .waitRefused _ _ => 20
  | .inRefused _ _ => 21
  | .outPinsRefused _ _ => 22
  | .outPindirsRefused _ _ => 23
  | .outPcRefused _ _ => 24
  | .outIsrRefused _ _ => 25
  | .outExecRefused _ _ => 26
  | .pushRefused _ _ => 27
  | .pullReserved _ _ _ => 28
  | .movReservedDest _ _ _ => 29
  | .movReservedOp _ _ _ => 30
  | .movReservedSrc _ _ _ => 31
  | .movOther _ _ _ _ => 32
  | .irqRefused _ _ => 33
  | .setReserved3 _ _ => 34
  | .setReserved5 _ _ => 35
  | .setReserved6 _ _ => 36
  | .setReserved7 _ _ => 37

end Sys2Proof
end

