-- ==== Sys2Proof/Config.lean ====
section
/-! DEFINITION. What the spec leaves OPEN (00_scope R7) and what it calls a free draw: constants with no
body, so that no proof can see their values. Each is named in the assumption log. -/

namespace Sys2Proof

/-- What the driver asks the external encoder for, one channel's share of a multi-channel operation
(46_channels_host R281). DESIGN CHOICE: a command or a clamp argument is 16 bits and a reverse argument one
Bool; the spec gives the arguments no type (log 12). -/
inductive EncOp where
  | command (v : BitVec 16)
  | reverse (flag : Bool)
  | throttleClamp (v : BitVec 16)
  | throttleMinimum
deriving DecidableEq, Repr

/-- `PIN_LATCH_START`: every output latch after block reset (R321, D11). OPEN; log 10. -/
opaque Config.pinLatchStart : Bool

/-- `OSR_START`: the OSR after SM_RESTART, `none` for `Empty`, `some v` for `Full(v)` (R321, D10). OPEN; log 9. -/
opaque Config.osrStart : Option Word

/-- `L_OUT` less one, so that `L_OUT` is at least 1 (R135, D8). OPEN; log 11. -/
opaque Config.lOutLessOne : Nat

/-- `L_OUT`: system cycles from a pin write to the wire, one constant, at least 1 (R135). -/
def Config.lOut : Nat := Config.lOutLessOne + 1

/-- `F_SYS`, in system cycles a second (R253, D22). OPEN. DESIGN CHOICE: a whole number; the spec gives it no type
(log 12). -/
opaque Config.fSys : Nat

/-- `T_RESET_MIN`, in nanoseconds (R256, D24). OPEN. DESIGN CHOICE: the unit and a whole number of it; the spec
gives it neither unit nor type (log 12). -/
opaque Config.tResetMin : Nat

/-- `BLOCK_BASE`, the address of register offset 0 (R36, R92). OPEN. DESIGN CHOICE: 32 bits wide; the spec gives
an address no width (log 12). -/
opaque Config.blockBase : Word

/-- `Enc`: the external encoder, a command to its 16-bit payload (R273, R281, D19). OPEN; log 12. -/
opaque Config.enc : EncOp → BitVec 16

/-- `PinRead`: the level machine `k` reads on pin `p` at its `n`-th draw (R82, R167, D23). Free; log 6. -/
opaque Config.pinRead : (k : Fin 4) → (p : PinIx) → (n : Nat) → Bool

/-- The divider phase machine `k` draws at its `n`-th draw, before it is brought into range (R137, D7). Free; log 7. -/
opaque Config.phase : (k : Fin 4) → (n : Nat) → Nat

/-- The accumulator machine `k` draws at its `n`-th draw (R137, D7). Free; log 7. -/
opaque Config.divAcc : (k : Fin 4) → (n : Nat) → BitVec 8

/-- What the host's `n`-th read of SMi_INSTR at an unloaded slot returns (R49, D35). Free; log 8. -/
opaque Config.unloadedWord : (n : Nat) → Half

end Sys2Proof
end

