-- ==== Sys2Proof/Machine/State.lean ====
section
/-! DEFINITION. The state of the block: four state machines, the instruction memory, the pins and the wire
behind them, the fault set and the refusal mark, the clock, and the host's pending operations and results
(10_state R20 to R35, 20_memory R70, R88, 60_exceptions R302, R303), as plain data; and the state right
after block reset (70_reset R320). -/

namespace Sys2Proof.Machine

/-- The register an `UnwrittenRead` names (R302). -/
inductive RegName where
  | x
  | y
  | osr
deriving DecidableEq, Repr

/-- The two kinds of fault of R302, each with its record. The block RECORDS a fault in the set `FAULTS` of
its state and goes on with its other agents (R302), so a fault is an entry of `State.faults`; no step
ends with one. -/
inductive Fault where
  /-- Raised by an instruction cycle at a slot no host write has loaded (R72, R139). Safe: the chip would
  run whatever bits the slot holds, the machine here halts. -/
  | fetchUnloaded (sm : Fin 4) (pc : Slot)
  /-- Raised by an instruction that reads X or Y never written since start, or an OSR that holds no value
  (R31). Safe: the chip would read whatever the register holds, the machine here halts. -/
  | unwrittenRead (sm : Fin 4) (pc : Slot) (w : Half) (reg : RegName)
deriving DecidableEq, Repr

/-- The reasons of the sticky mark `REFUSED` (R303). The block records the mark in its state and the
refused agent takes no step, so a refusal is the value of `State.refused`; only an arm of `exec` without
a meaning would end a step with one. -/
inductive Refusal where
  /-- An instruction cycle fetched a word of a refused or reserved form (R112, R113, R139). Unsafe for a
  claim that does not take the mark as unset: see log 4. -/
  | refusedInstr
  /-- A configuration or CTRL write the spec does not admit (R37, R137, R144, R277, R279). Unsafe as above. -/
  | refusedConfig
  /-- A host access the spec does not admit (R36, R49, R76, R327). Unsafe as above. -/
  | refusedHostAccess
  /-- An arm of `exec` that has no meaning yet. Safe: the step ends. No arm of this model answers it. -/
  | notModelled (mnemonic : String)
deriving DecidableEq, Repr

/-- One state machine (R21). -/
structure SM where
  /-- `PC`, R22. -/
  pc : Slot
  /-- `X`; `none` is the spec's own value `unwritten`, which R320 gives it at reset and R279 at restart (R23, R31). -/
  x : Option Word
  /-- `Y`; `none` is the spec's own value `unwritten`, as for `X` (R23, R31, R279, R320). -/
  y : Option Word
  /-- `OSR`, `none` while it holds no value, R24, R31. -/
  osr : Option Word
  /-- `OSR_COUNT`, 0 to 32, R24. -/
  osrCount : Nat
  /-- `DELAY`, R25. -/
  delay : BitVec 5
  /-- `STALLED`, R26. -/
  stalled : Bool
  /-- `DIV_ACC`, R27. -/
  divAcc : BitVec 8
  /-- `NEXT_EN`: the system cycle of the next enable pulse, R27. -/
  nextEn : Nat
  /-- `ENABLED`, R28. -/
  enabled : Bool
  /-- `TXF[i]`, oldest word first, R35. -/
  txf : List Word
  /-- `SMi_CLKDIV`, R44. -/
  clkdiv : Word
  /-- `SMi_EXECCTRL` but for bit 31, which is a view of `STALLED`, R45. -/
  execctrl : Word
  /-- `SMi_SHIFTCTRL`, R47. -/
  shiftctrl : Word
  /-- `SMi_PINCTRL`, R50. -/
  pinctrl : Word
  /-- `FDEBUG.TXSTALL[i]`, R42. -/
  txstall : Bool
  /-- `FDEBUG.TXOVER[i]`, R42. -/
  txover : Bool
  /-- Step 1 of the start (SM_RESTART) was done since the last disable or reset, R279. -/
  restarted : Bool
  /-- Step 2 of the start (forced JMP) was done, after step 1, since the last disable or reset, R279, R325. -/
  jumped : Bool
  /-- A fault or a refusal stopped the machine for good, R139, R302, R303. -/
  halted : Bool
  /-- How many free draws this machine has made: the model's own counter, log 25. -/
  draws : Nat
deriving DecidableEq, Repr

/-- One `SET PINS` (latches) or `SET PINDIRS` (`dir`, enables) on its way to the wire: the cycle it
completed at, the pins it writes and their values (R135, R141). -/
structure PinEvent where
  time : Nat
  dir : Bool
  base : PinIx
  count : Nat
  data : BitVec 5
deriving DecidableEq, Repr

/-- A multi-channel operation of the driver with its argument for each channel (46_channels_host R281). DESIGN
CHOICE: the arguments' types, which the spec does not give (log 12). -/
inductive MultiOp where
  | command (values : List (BitVec 16))
  | reverse (flags : List Bool)
  | throttleClamp (values : List (BitVec 16))
  | throttleMinimum
deriving DecidableEq, Repr

/-- One channel of a driver under construction: its pin and divisor pair (R51, R280). -/
structure Channel where
  pin : PinIx
  dInt : BitVec 16
  dFrac : BitVec 8
deriving DecidableEq, Repr

/-- What the host can do (46_channels_host R274 to R288). -/
inductive HostAct where
  /-- A read of `width` bits at a byte offset (R76, R288). -/
  | read (width off : Nat)
  /-- A write of `width` bits at a byte offset (R76, R288). -/
  | write (width off : Nat) (v : Word)
  /-- A write of CTRL that keeps the run bits and sets the bits of `ones`: the `CTRL.<field>[i] <- 1` of R279. -/
  | ctrlSet (ones : Word)
  /-- `submit(c, w)`, its write `lag` boundaries after its read (R274). -/
  | submit (c : Fin 4) (w : Word) (lag : Nat)
  /-- The write of a `submit` whose read found room (R274). -/
  | submitWrite (c : Fin 4) (w : Word)
  /-- `submit_blocking(c, w)` (R275); a later write is one with a later due (DESIGN CHOICE, log 23). -/
  | submitBlocking (c : Fin 4) (w : Word)
  /-- `submit_unchecked(c, w)` (R286). -/
  | submitUnchecked (c : Fin 4) (w : Word)
  /-- A multi-channel operation, over `submit` or (`checked` false) `submit_unchecked`; the channels'
  submits are `lag` boundaries apart (R281). DESIGN CHOICE: inside the operation each submit's write falls at the
  boundary of its read, and other schedules are listed as a `submit` for each channel and a `collect` (log 23). -/
  | multi (checked : Bool) (op : MultiOp) (lag : Nat)
  /-- The return of a multi-channel operation: its last `n` results become one array (R281); before it they stand
  one by one (DESIGN CHOICE, log 23). -/
  | collect (n : Nat)
  /-- Program installation at an origin (R276). -/
  | install (origin : Nat)
  /-- Configuration of an active channel (R278, R51); `deep` chooses `TXF_DEPTH` 8. -/
  | configure (c : Fin 4) (ch : Channel) (origin : Nat) (deep : Bool)
  /-- Configuration of a dummy slot (R283). -/
  | configureDummy (c : Fin 4)
  /-- Start of a state machine (R279). -/
  | start (c : Fin 4) (origin : Nat)
  /-- Construction of a driver (R280); `enableDummies` is `DUMMY_ENABLED` (R283). -/
  | construct (channels : List Channel) (origin : Nat) (deep : Bool) (enableDummies : Bool)
deriving DecidableEq, Repr

/-- An operation of the host and the boundary it is assigned to (R88). -/
structure HostItem where
  due : Nat
  act : HostAct
deriving DecidableEq, Repr

/-- What the host gets back (R274, R281, R282, R288). -/
inductive HostResult where
  /-- The value of a register read. -/
  | word (v : Word)
  /-- The result of a submit. -/
  | flag (ok : Bool)
  /-- The result array of a multi-channel operation. -/
  | flags (oks : List Bool)
  /-- The program did not fit: installation failed (R282). -/
  | installFailed
deriving DecidableEq, Repr

/-- The instruction memory: the loaded slots with their words, slots strictly rising. A slot that is not
listed is unloaded (R34; log 1). -/
abbrev Memory := List (Nat × Half)

/-- The state of the block. -/
structure State where
  /-- The four state machines, R21, R311. -/
  sms : Vector SM 4
  /-- `IMEM`, R34. -/
  imem : Memory
  /-- `PIN_OUT`, R32. -/
  pinOut : Pins
  /-- `PIN_OE`, R32. -/
  pinOe : Pins
  /-- The latches as the wire shows them, `L_OUT` cycles late, R33, R135. -/
  wireOut : Pins
  /-- The enables as the wire shows them, R33, R135. -/
  wireOe : Pins
  /-- Pin writes on their way to the wire, oldest first, R135. -/
  pinPipe : List PinEvent
  /-- `FAULTS`, R302. -/
  faults : List Fault
  /-- `REFUSED` and its reason, R303. -/
  refused : Option Refusal
  /-- The system cycle `t`, R11, R88. -/
  time : Nat
  /-- The host is at boundary `t`; otherwise the machine `active` is next in cycle `t` (R88; log 14). -/
  boundary : Bool
  /-- The state machine whose turn it is in cycle `t` (log 14). -/
  active : Fin 4
  /-- `N_CH`: machines at or above it are dummy slots, R270, R283 (log 13). -/
  nCh : Nat
  /-- The host's pending operations in program order, R88. -/
  hostq : List HostItem
  /-- The host results so far, oldest first, R145. -/
  results : List HostResult
  /-- How many free draws host reads have made: the model's own counter, log 25. -/
  hostDraws : Nat
deriving DecidableEq, Repr

/-- A state machine right after block reset (R320). -/
def SM.reset : SM where
  pc := 0
  x := none
  y := none
  osr := none
  osrCount := 32
  delay := 0
  stalled := false
  divAcc := 0
  nextEn := 0
  enabled := false
  txf := []
  clkdiv := 0x00010000
  execctrl := 0x0001F000
  shiftctrl := 0x000C0000
  pinctrl := 0x14000000
  txstall := false
  txover := false
  restarted := false
  jumped := false
  halted := false
  draws := 0

/-- The block right after its reset (R320). -/
def State.reset : State where
  sms := Vector.replicate 4 SM.reset
  imem := []
  pinOut := Vector.replicate 32 Config.pinLatchStart
  pinOe := Vector.replicate 32 false
  wireOut := Vector.replicate 32 Config.pinLatchStart
  wireOe := Vector.replicate 32 false
  pinPipe := []
  faults := []
  refused := none
  time := 0
  boundary := true
  active := 0
  nCh := 4
  hostq := []
  results := []
  hostDraws := 0

end Sys2Proof.Machine
end

