-- ==== Sys2Proof/Machine/Ops.lean ====
section
/-! DEFINITION. The named operations over the state: the instruction memory, the state machine whose turn it
is, its FIFO, the pin arrays, and the two ways an agent stops: raising a fault (60_exceptions R302) and a
refusal (R303). The block takes no exception and returns from none: it has no trap entry, no saved state,
no vector and no handler (R300, R301, R306); raising a fault is the one shared operation in that place. -/

namespace Sys2Proof.Machine

/-! ## Instruction memory (20_memory R70, R72) -/

/-- `MemRead(IMEM, a, 2)`: the word of slot `a`, `none` where it is unloaded (R72). -/
def Memory.read : Memory → Nat → Option Half
  | [], _ => none
  | (b, w) :: m, a => if a = b then some w else Memory.read m a

/-- `MemWrite(IMEM, a, 2, v)`: slot `a` becomes loaded with `v` (R276). -/
def Memory.write : Memory → Nat → Half → Memory
  | [], a, v => [(a, v)]
  | (b, w) :: m, a, v =>
    if a < b then (a, v) :: (b, w) :: m
    else if a = b then (a, v) :: m
    else (b, w) :: Memory.write m a v

/-- The canonical form: slots strictly rising, all among the 32 (R34; log 1). -/
abbrev Memory.wf (m : Memory) : Prop :=
  (m.map Prod.fst).Pairwise (· < ·) ∧ ∀ c ∈ m, c.1 < 32

/-! ## One state machine among the four -/

/-- `sm[k]` (R10, R21). -/
def State.sm (s : State) (k : Fin 4) : SM := s.sms[k.val]

/-- `sm[k] <- m`. -/
def State.setSm (s : State) (k : Fin 4) (m : SM) : State := { s with sms := s.sms.set k.val m }

/-- The executing state machine, whose fields an instruction rule names bare (R10). -/
def State.cur (s : State) : SM := s.sm s.active

/-- The executing state machine becomes `m`. -/
def State.setCur (s : State) (m : SM) : State := s.setSm s.active m

/-- Slot `k` is a dummy slot (46_channels_host R271, R283). -/
def State.dummy (s : State) (k : Fin 4) : Bool := s.nCh ≤ k.val

/-- Some state machine is enabled (R276, R327). -/
def State.anyEnabled (s : State) : Bool :=
  (s.sm 0).enabled || (s.sm 1).enabled || (s.sm 2).enabled || (s.sm 3).enabled

/-! ## Stopping: faults and refusals -/

/-- A fault joins the set `FAULTS`, which holds no record twice (R302; log 24). -/
def recordFault (fs : List Fault) (f : Fault) : List Fault := if f ∈ fs then fs else fs ++ [f]

/-- The mark `REFUSED` is sticky and keeps its first reason (R303; log 4). -/
def markRefused (old : Option Refusal) (r : Refusal) : Option Refusal :=
  match old with
  | some q => some q
  | none => some r

/-- `raise Fault(f)` by the executing machine: the record enters `FAULTS`, the machine takes no further
step, and the step has no other effect (R302). -/
def State.raise (s : State) (f : Fault) : State :=
  { s.setCur { s.cur with halted := true } with faults := recordFault s.faults f }

/-- `refuse(RefusedInstr)` by the executing machine: the mark is set and the machine takes no further step
(R139, R303). -/
def State.refuseInstr (s : State) : State :=
  { s.setCur { s.cur with halted := true } with refused := markRefused s.refused .refusedInstr }

/-- `refuse(r)` of a host access: the mark is set and the access has no effect (R303; log 4). -/
def State.refuseHost (s : State) (r : Refusal) : State :=
  { s with refused := markRefused s.refused r }

/-! ## Pins (10_state R32, R33; 42_set R181, R182) -/

/-- The writes of a SET to one pin array: for `j` below the count, pin `(base + j) mod 32` takes bit `j` of
the data (R180 to R182). -/
def writeGroup (base : PinIx) (data : BitVec 5) : Nat → Pins → Pins
  | 0, v => v
  | j + 1, v =>
    (writeGroup base data j v).set (base + BitVec.ofNat 5 j).toNat (data.getLsbD j) (BitVec.isLt _)

/-- `PinWrite` for a whole SET group: the latches change now, the wire `L_OUT` cycles later (R135, R181). -/
def State.writePins (s : State) (base : PinIx) (count : Nat) (data : BitVec 5) : State :=
  { s with
    pinOut := writeGroup base data count s.pinOut
    pinPipe := s.pinPipe ++ [⟨s.time, false, base, count, data⟩] }

/-- `PinDirWrite` for a whole SET group: the enables change now, the wire `L_OUT` cycles later (R135, R182). -/
def State.writePinDirs (s : State) (base : PinIx) (count : Nat) (data : BitVec 5) : State :=
  { s with
    pinOe := writeGroup base data count s.pinOe
    pinPipe := s.pinPipe ++ [⟨s.time, true, base, count, data⟩] }

end Sys2Proof.Machine
end

