-- ==== Sys2Proof/Machine/Operands.lean ====
section
/-! DEFINITION. Operand forms and configuration fields: the fields of CLKDIV, EXECCTRL, SHIFTCTRL and PINCTRL
that a state machine reads (10_state R44 to R50), the bit count of an OUT (R103), the FIFO's capacity and
ends (20_memory R73 to R75), the SET group (42_set R180) and the shifter (43_out_pull R190, R200). -/

namespace Sys2Proof.Machine

/-! ## CLKDIV (R44, R46) -/

/-- `CLKDIV.INT`. -/
def SM.divInt (m : SM) : BitVec 16 := m.clkdiv.extractLsb' 16 16

/-- `CLKDIV.FRAC`. -/
def SM.divFrac (m : SM) : BitVec 8 := m.clkdiv.extractLsb' 8 8

/-- `INT'`: 0 means 65536 (R46). -/
def SM.divPeriod (m : SM) : Nat := if m.divInt = 0 then 65536 else m.divInt.toNat

/-! ## EXECCTRL (R45) -/

/-- `EXECCTRL.JMP_PIN`. -/
def SM.jmpPinIx (m : SM) : PinIx := m.execctrl.extractLsb' 24 5

/-- `EXECCTRL.WRAP_TOP`. -/
def SM.wrapTop (m : SM) : Slot := m.execctrl.extractLsb' 12 5

/-- `EXECCTRL.WRAP_BOTTOM`. -/
def SM.wrapBottom (m : SM) : Slot := m.execctrl.extractLsb' 7 5

/-! ## SHIFTCTRL (R47) -/

/-- `SHIFTCTRL.FJOIN_TX`. -/
def SM.fjoinTx (m : SM) : Bool := m.shiftctrl.getLsbD 30

/-- `SHIFTCTRL.PULL_THRESH`. -/
def SM.pullThresh (m : SM) : BitVec 5 := m.shiftctrl.extractLsb' 25 5

/-- `thr`, the effective pull threshold (R47). -/
def SM.thr (m : SM) : Nat := if m.pullThresh = 0 then 32 else m.pullThresh.toNat

/-- `SHIFTCTRL.OUT_SHIFTDIR = 1`: shift right. -/
def SM.shiftRight (m : SM) : Bool := m.shiftctrl.getLsbD 19

/-- `SHIFTCTRL.AUTOPULL`. -/
def SM.autopull (m : SM) : Bool := m.shiftctrl.getLsbD 17

/-! ## PINCTRL (R50) -/

/-- `PINCTRL.SET_COUNT`. -/
def SM.setCount (m : SM) : Nat := (m.pinctrl.extractLsb' 26 3).toNat

/-- `PINCTRL.SET_BASE`. -/
def SM.setBase (m : SM) : PinIx := m.pinctrl.extractLsb' 5 5

/-- Pin `p` is in the SET group: it is `(SET_BASE + j) mod 32` for some `j` below `SET_COUNT` (R50, R180). -/
def SM.inGroup (m : SM) (p : PinIx) : Bool := (p - m.setBase).toNat < m.setCount

/-- The SET groups of two machines share no pin (R277). -/
def groupsDisjoint (a b : SM) : Bool :=
  (List.range 32).all fun p => !(a.inGroup (BitVec.ofNat 5 p) && b.inGroup (BitVec.ofNat 5 p))

/-! ## The transmit FIFO (R73 to R75) -/

/-- `cap(i)` (R73). -/
def SM.cap (m : SM) : Nat := if m.fjoinTx then 8 else 4

/-- `FifoFull(i)` (R73). A queue longer than its capacity cannot arise; it counts as full. -/
def SM.fifoFull (m : SM) : Bool := m.cap ≤ m.txf.length

/-- `FifoEmpty(i)` (R73). -/
def SM.fifoEmpty (m : SM) : Bool := m.txf.isEmpty

/-- `FifoPush(i, w)` (R75). -/
def SM.fifoPush (m : SM) (w : Word) : SM :=
  if m.fifoFull then { m with txover := true } else { m with txf := m.txf ++ [w] }

/-- `OSR <- FifoPop(i); OSR_COUNT <- 0`, where the FIFO holds a word (R74, R190, R194); `none` where it is
empty. -/
def SM.loadOsr (m : SM) : Option SM :=
  match m.txf with
  | [] => none
  | w :: rest => some { m with osr := some w, osrCount := 0, txf := rest }

/-! ## The bit count of an OUT and the shifter (R103, R190, R200) -/

/-- `n = (BITCOUNT = 0 ? 32 : BITCOUNT)` (R103). -/
def bitCount (field : BitVec 5) : Nat := if field = 0 then 32 else field.toNat

/-- The bits that leave the OSR, zero-extended, and what stays in it (R190). -/
def shiftOut (right : Bool) (n : Nat) (v : Word) : Word × Word :=
  if right then (BitVec.ofNat 32 (v.toNat % 2 ^ n), v >>> n)
  else (v >>> (32 - n), v <<< n)

end Sys2Proof.Machine
end

