-- ==== Sys2Proof/Machine/Flags.lean ====
section
/-! DEFINITION. There are no flags, condition codes or predicates (10_state R30): a branch condition is
computed at the branch. The only sticky bits are the host-visible debug bits of FDEBUG (R42) and the level
bits of FSTAT and FLEVEL (R41, R43). This file computes them. -/

namespace Sys2Proof.Machine

/-- The condition of `JMP !OSRE`, `OSR_COUNT < thr` (R168): bits are left. -/
def SM.osrNotEmpty (m : SM) : Bool := m.osrCount < m.thr

/-- The OSR counts as empty for auto-pull and PULL IFEMPTY (R24, R190, R194). -/
def SM.osrEmpty (m : SM) : Bool := m.thr ≤ m.osrCount

/-- A word with bit `base + k` set for each machine `k` of which `f` holds. -/
def packBits (base : Nat) (f : Fin 4 → Bool) : Word :=
  (if f 0 then 1#32 <<< base else 0) ||| (if f 1 then 1#32 <<< (base + 1) else 0) |||
  (if f 2 then 1#32 <<< (base + 2) else 0) ||| (if f 3 then 1#32 <<< (base + 3) else 0)

/-- `CTRL` as read: the run bits; the restart bits read 0 (R40). -/
def State.ctrl (s : State) : Word := packBits 0 fun k => (s.sm k).enabled

/-- `FSTAT`: TXEMPTY, TXFULL, and the receive bits that read 0xF and 0 (R41). -/
def State.fstat (s : State) : Word :=
  packBits 24 (fun k => (s.sm k).fifoEmpty) ||| packBits 16 (fun k => (s.sm k).fifoFull) ||| 0x00000F00

/-- `FDEBUG`: TXSTALL and TXOVER (R42). -/
def State.fdebug (s : State) : Word :=
  packBits 24 (fun k => (s.sm k).txstall) ||| packBits 16 fun k => (s.sm k).txover

/-- `FLEVEL`: field `TXi` is the length of `TXF[i]` (R43). -/
def State.flevel (s : State) : Word :=
  BitVec.ofNat 32 (s.sm 0).txf.length ||| BitVec.ofNat 32 (s.sm 1).txf.length <<< 8 |||
  BitVec.ofNat 32 (s.sm 2).txf.length <<< 16 ||| BitVec.ofNat 32 (s.sm 3).txf.length <<< 24

/-- `SMi_EXECCTRL` as read: bit 31 is EXEC_STALLED (R45). -/
def SM.execctrlRead (m : SM) : Word :=
  (m.execctrl &&& 0x7FFFFFFF) ||| (if m.stalled then 0x80000000 else 0)

end Sys2Proof.Machine
end

