-- ==== Sys2Proof/Machine/Complete.lean ====
section
/-! DEFINITION. How an instruction cycle ends (40_execution R133, R134, R138, R141): it completes, it stalls,
or it reads a register that holds no value and raises a fault (10_state R31). -/

namespace Sys2Proof.Machine

/-- `next(PC)` (R138): the wrap, else the next slot modulo 32. -/
def SM.succ (m : SM) : Slot := if m.pc = m.wrapTop then m.wrapBottom else m.pc + 1

/-- The machine after completing with delay `d`: `STALLED <- false`, `PC <- target` or `next(PC)`,
`DELAY <- d` (R133). -/
def SM.complete (m : SM) (d : BitVec 5) (target : Option Slot) : SM :=
  { m with stalled := false, pc := target.getD m.succ, delay := d }

/-- The machine after a stalled attempt: every stall has an empty FIFO as its cause, so TXSTALL is set
(R42, R134). -/
def SM.stall (m : SM) : SM := { m with stalled := true, txstall := true }

/-- The executing machine completes as `m` with delay `d`; `target` is the slot of a taken JMP (R133). -/
def finish (s : State) (m : SM) (d : BitVec 5) (target : Option Slot) :
    Host.Outcome State Fault Refusal :=
  .next (s.setCur (m.complete d target))

/-- The executing machine stalls (R134). -/
def stallCur (s : State) : Host.Outcome State Fault Refusal :=
  .next (s.setCur s.cur.stall)

/-- `raise Fault(UnwrittenRead)` for register `r` by instruction `i`: the spec's own stop for a read of a register
that is unwritten (R31, the fault table of R302, D28, U1, U2, vectors V36, V76 and P4a), a next state in which
the fault is recorded and this machine takes no further step. -/
def unwritten (s : State) (i : Instr) (r : RegName) : Host.Outcome State Fault Refusal :=
  .next (s.raise (.unwrittenRead s.active s.cur.pc (encode i) r))

/-- Reads a register of the executing machine: goes on with its value, or raises `UnwrittenRead` where it
holds none (R31). -/
def withReg (s : State) (i : Instr) (r : RegName) (v : Option Word)
    (use : Word → Host.Outcome State Fault Refusal) : Host.Outcome State Fault Refusal :=
  match v with
  | some x => use x
  | none => unwritten s i r

end Sys2Proof.Machine
end

