-- ==== Sys2Proof/Machine/Jump.lean ====
section
/-! DEFINITION. Control transfer: the eight JMP conditions (41_jmp R160 to R168). Every JMP completes in its
first attempt; the register write of `X--` and `Y--` happens whether or not the jump is taken (R160). -/

namespace Sys2Proof.Machine

/-- A JMP completes as machine `m`: to `a` if taken, else to `next(PC)` (R160). -/
def branch (s : State) (m : SM) (taken : Bool) (d : BitVec 5) (a : Slot) :
    Host.Outcome State Fault Refusal :=
  finish s m d (if taken then some a else none)

/-- `JMP ADDR` (R161). -/
def execJmp (d : BitVec 5) (a : Slot) (s : State) : Host.Outcome State Fault Refusal :=
  branch s s.cur true d a

/-- `JMP !X, ADDR` (R162). -/
def execJmpNotX (d : BitVec 5) (a : Slot) (s : State) : Host.Outcome State Fault Refusal :=
  withReg s (.jmpNotX d a) .x s.cur.x fun x => branch s s.cur (x == 0) d a

/-- `JMP X--, ADDR`: the test is of X before the decrement (R163). -/
def execJmpXDec (d : BitVec 5) (a : Slot) (s : State) : Host.Outcome State Fault Refusal :=
  withReg s (.jmpXDec d a) .x s.cur.x fun x =>
    branch s { s.cur with x := some (x - 1) } (x != 0) d a

/-- `JMP !Y, ADDR` (R164). -/
def execJmpNotY (d : BitVec 5) (a : Slot) (s : State) : Host.Outcome State Fault Refusal :=
  withReg s (.jmpNotY d a) .y s.cur.y fun y => branch s s.cur (y == 0) d a

/-- `JMP Y--, ADDR`: the test is of Y before the decrement (R165). -/
def execJmpYDec (d : BitVec 5) (a : Slot) (s : State) : Host.Outcome State Fault Refusal :=
  withReg s (.jmpYDec d a) .y s.cur.y fun y =>
    branch s { s.cur with y := some (y - 1) } (y != 0) d a

/-- `JMP X!=Y, ADDR`: all 32 bits compared (R166). Where both are unwritten the record names X (log 3). -/
def execJmpXNeY (d : BitVec 5) (a : Slot) (s : State) : Host.Outcome State Fault Refusal :=
  withReg s (.jmpXNeY d a) .x s.cur.x fun x =>
    withReg s (.jmpXNeY d a) .y s.cur.y fun y => branch s s.cur (x != y) d a

/-- `JMP PIN, ADDR`: the level of `EXECCTRL.JMP_PIN` is a free draw of the environment (R82, R167; log 6). -/
def execJmpPin (d : BitVec 5) (a : Slot) (s : State) : Host.Outcome State Fault Refusal :=
  branch s { s.cur with draws := s.cur.draws + 1 }
    (Config.pinRead s.active s.cur.jmpPinIx s.cur.draws) d a

/-- `JMP !OSRE, ADDR`: reads only the count, pulls nothing (R168). -/
def execJmpNotOsre (d : BitVec 5) (a : Slot) (s : State) : Host.Outcome State Fault Refusal :=
  branch s s.cur s.cur.osrNotEmpty d a

end Sys2Proof.Machine
end

