-- ==== Sys2Proof/Machine/Nop.lean ====
section
/-! DEFINITION. NOP, that is `MOV Y, Y`, which reads and writes nothing (44_nop R220). -/

namespace Sys2Proof.Machine

/-- `NOP`: its whole effect is its cycles (R220). -/
def execNop (d : BitVec 5) (s : State) : Host.Outcome State Fault Refusal :=
  finish s s.cur d none

end Sys2Proof.Machine
end

