-- ==== Sys2Proof/Machine/Pull.lean ====
section
/-! DEFINITION. PULL in its four forms (43_out_pull R194 to R198). -/

namespace Sys2Proof.Machine

/-- The common rule of every PULL, its tests in the order of R194: a no-op on a full OSR under auto-pull, a
no-op for IFEMPTY while bits are left, else a word from the FIFO; from an empty FIFO a stall (block) or a
copy of X (noblock). -/
def pullWith (s : State) (i : Instr) (d : BitVec 5) (ifEmpty block : Bool) :
    Host.Outcome State Fault Refusal :=
  let m := s.cur
  if m.autopull && m.osrCount == 0 then finish s m d none
  else if ifEmpty && m.osrNotEmpty then finish s m d none
  else
    match m.loadOsr with
    | some m' => finish s m' d none
    | none =>
      if block then stallCur s
      else withReg s i .x m.x fun x => finish s { m with osr := some x, osrCount := 0 } d none

/-- `PULL BLOCK` (R195). -/
def execPullBlock (d : BitVec 5) (s : State) : Host.Outcome State Fault Refusal :=
  pullWith s (.pullBlock d) d false true

/-- `PULL NOBLOCK` (R196). -/
def execPullNoblock (d : BitVec 5) (s : State) : Host.Outcome State Fault Refusal :=
  pullWith s (.pullNoblock d) d false false

/-- `PULL IFEMPTY BLOCK` (R197). -/
def execPullIfemptyBlock (d : BitVec 5) (s : State) : Host.Outcome State Fault Refusal :=
  pullWith s (.pullIfemptyBlock d) d true true

/-- `PULL IFEMPTY NOBLOCK` (R198). -/
def execPullIfemptyNoblock (d : BitVec 5) (s : State) : Host.Outcome State Fault Refusal :=
  pullWith s (.pullIfemptyNoblock d) d true false

end Sys2Proof.Machine
end

