-- ==== Sys2Proof/Machine/Refused.lean ====
section
/-! DEFINITION. The refused and reserved words (30_encoding R112, R113, 42_set R185, 44_nop R221). The spec
gives them one effect: `refuse(RefusedInstr)`, that is the sticky mark REFUSED is set and the state machine
takes no further step (40_execution R139, 60_exceptions R303). It gives no other meaning to any of them. -/

namespace Sys2Proof.Machine

/-- `refuse(RefusedInstr)` in an instruction cycle (R139, R303). -/
def refuseCur (s : State) : Host.Outcome State Fault Refusal := .next s.refuseInstr

/-- `WAIT` (R112): refused. -/
def execWaitRefused (s : State) : Host.Outcome State Fault Refusal := refuseCur s

/-- `IN` (R112): refused. -/
def execInRefused (s : State) : Host.Outcome State Fault Refusal := refuseCur s

/-- `OUT PINS` (R111, R112): refused. -/
def execOutPinsRefused (s : State) : Host.Outcome State Fault Refusal := refuseCur s

/-- `OUT PINDIRS` (R111, R112): refused. -/
def execOutPindirsRefused (s : State) : Host.Outcome State Fault Refusal := refuseCur s

/-- `OUT PC` (R111, R112): refused. -/
def execOutPcRefused (s : State) : Host.Outcome State Fault Refusal := refuseCur s

/-- `OUT ISR` (R111, R112): refused. -/
def execOutIsrRefused (s : State) : Host.Outcome State Fault Refusal := refuseCur s

/-- `OUT EXEC` (R111, R112): refused. -/
def execOutExecRefused (s : State) : Host.Outcome State Fault Refusal := refuseCur s

/-- `PUSH` (R101, R112): refused. -/
def execPushRefused (s : State) : Host.Outcome State Fault Refusal := refuseCur s

/-- `PULL` with `ARG[4:0]` not 0 (R106, R113): refused. -/
def execPullReserved (s : State) : Host.Outcome State Fault Refusal := refuseCur s

/-- `MOV` with destination 011 (R113): refused. -/
def execMovReservedDest (s : State) : Host.Outcome State Fault Refusal := refuseCur s

/-- `MOV` with operation 11 (R113): refused. -/
def execMovReservedOp (s : State) : Host.Outcome State Fault Refusal := refuseCur s

/-- `MOV` with source 100 (R113): refused. -/
def execMovReservedSrc (s : State) : Host.Outcome State Fault Refusal := refuseCur s

/-- Every other `MOV` (R112, R221): refused. -/
def execMovOther (s : State) : Host.Outcome State Fault Refusal := refuseCur s

/-- `IRQ` (R112): refused. -/
def execIrqRefused (s : State) : Host.Outcome State Fault Refusal := refuseCur s

/-- `SET` destination 011 (R113, R185): refused. -/
def execSetReserved3 (s : State) : Host.Outcome State Fault Refusal := refuseCur s

/-- `SET` destination 101 (R113, R185): refused. -/
def execSetReserved5 (s : State) : Host.Outcome State Fault Refusal := refuseCur s

/-- `SET` destination 110 (R113, R185): refused. -/
def execSetReserved6 (s : State) : Host.Outcome State Fault Refusal := refuseCur s

/-- `SET` destination 111 (R113, R185): refused. -/
def execSetReserved7 (s : State) : Host.Outcome State Fault Refusal := refuseCur s

end Sys2Proof.Machine
end

