-- ==== Sys2Proof/Machine/SetImm.lean ====
section
/-! DEFINITION. SET to pins, pin directions, X and Y (42_set R180 to R184). SET never stalls and reads no
register (R180). -/

namespace Sys2Proof.Machine

/-- `SET PINS, DATA` (R181). -/
def execSetPins (d data : BitVec 5) (s : State) : Host.Outcome State Fault Refusal :=
  finish (s.writePins s.cur.setBase s.cur.setCount data) s.cur d none

/-- `SET PINDIRS, DATA`: 1 is output (R182). -/
def execSetPindirs (d data : BitVec 5) (s : State) : Host.Outcome State Fault Refusal :=
  finish (s.writePinDirs s.cur.setBase s.cur.setCount data) s.cur d none

/-- `SET X, DATA` (R183). -/
def execSetX (d data : BitVec 5) (s : State) : Host.Outcome State Fault Refusal :=
  finish s { s.cur with x := some (data.setWidth 32) } d none

/-- `SET Y, DATA` (R184). -/
def execSetY (d data : BitVec 5) (s : State) : Host.Outcome State Fault Refusal :=
  finish s { s.cur with y := some (data.setWidth 32) } d none

end Sys2Proof.Machine
end

