-- ==== Sys2Proof/Machine/Shift.lean ====
section
/-! DEFINITION. OUT, with auto-pull before and after its shift (43_out_pull R190 to R193, R199). -/

namespace Sys2Proof.Machine

/-- Auto-pull before the shift: refills an empty OSR, `none` where the FIFO is empty too and the OUT stalls
(R190, R199 (a)). -/
def SM.pullBefore (m : SM) : Option SM :=
  if m.autopull && m.osrEmpty then m.loadOsr else some m

/-- Auto-pull after the shift: refills an empty OSR if the FIFO holds a word, never stalls (R190, R199 (b)). -/
def SM.pullAfter (m : SM) : SM :=
  if m.autopull && m.osrEmpty then m.loadOsr.getD m else m

/-- The shift of `n` bits out of an OSR that holds `v`: the machine with what stays (R190). -/
def SM.shifted (m : SM) (n : Nat) (v : Word) : SM :=
  { m with osr := some (shiftOut m.shiftRight n v).2, osrCount := min (m.osrCount + n) 32 }

/-- The common rule of every OUT (R190); `deliver` writes the shifted-out bits to the destination. The fault
has no other effect: it arises only with auto-pull off, where nothing was pulled before it. -/
def outWith (s : State) (i : Instr) (d : BitVec 5) (count : BitVec 5) (deliver : SM → Word → SM) :
    Host.Outcome State Fault Refusal :=
  match s.cur.pullBefore with
  | none => stallCur s
  | some m =>
    withReg s i .osr m.osr fun v =>
      finish s
        (deliver (m.shifted (bitCount count) v) (shiftOut m.shiftRight (bitCount count) v).1).pullAfter
        d none

/-- `OUT X, n` (R191). -/
def execOutX (d count : BitVec 5) (s : State) : Host.Outcome State Fault Refusal :=
  outWith s (.outX d count) d count fun m v => { m with x := some v }

/-- `OUT Y, n` (R192). -/
def execOutY (d count : BitVec 5) (s : State) : Host.Outcome State Fault Refusal :=
  outWith s (.outY d count) d count fun m v => { m with y := some v }

/-- `OUT NULL, n`: the bits are discarded (R193). -/
def execOutNull (d count : BitVec 5) (s : State) : Host.Outcome State Fault Refusal :=
  outWith s (.outNull d count) d count fun m _ => m

end Sys2Proof.Machine
end

