-- ==== Sys2Proof/Machine/Dispatch.lean ====
section
/-! DEFINITION. One instruction of the executing state machine: one arm for each constructor of Instr. -/

namespace Sys2Proof.Machine

def exec (i : Instr) (s : State) : Host.Outcome State Fault Refusal :=
  match i with
  | .jmp d a => Sys2Proof.Machine.execJmp d a s
  | .jmpNotX d a => Sys2Proof.Machine.execJmpNotX d a s
  | .jmpXDec d a => Sys2Proof.Machine.execJmpXDec d a s
  | .jmpNotY d a => Sys2Proof.Machine.execJmpNotY d a s
  | .jmpYDec d a => Sys2Proof.Machine.execJmpYDec d a s
  | .jmpXNeY d a => Sys2Proof.Machine.execJmpXNeY d a s
  | .jmpPin d a => Sys2Proof.Machine.execJmpPin d a s
  | .jmpNotOsre d a => Sys2Proof.Machine.execJmpNotOsre d a s
  | .outX d n => Sys2Proof.Machine.execOutX d n s
  | .outY d n => Sys2Proof.Machine.execOutY d n s
  | .outNull d n => Sys2Proof.Machine.execOutNull d n s
  | .pullBlock d => Sys2Proof.Machine.execPullBlock d s
  | .pullNoblock d => Sys2Proof.Machine.execPullNoblock d s
  | .pullIfemptyBlock d => Sys2Proof.Machine.execPullIfemptyBlock d s
  | .pullIfemptyNoblock d => Sys2Proof.Machine.execPullIfemptyNoblock d s
  | .nop d => Sys2Proof.Machine.execNop d s
  | .setPins d v => Sys2Proof.Machine.execSetPins d v s
  | .setX d v => Sys2Proof.Machine.execSetX d v s
  | .setY d v => Sys2Proof.Machine.execSetY d v s
  | .setPindirs d v => Sys2Proof.Machine.execSetPindirs d v s
  | .waitRefused _ _ => Sys2Proof.Machine.execWaitRefused s
  | .inRefused _ _ => Sys2Proof.Machine.execInRefused s
  | .outPinsRefused _ _ => Sys2Proof.Machine.execOutPinsRefused s
  | .outPindirsRefused _ _ => Sys2Proof.Machine.execOutPindirsRefused s
  | .outPcRefused _ _ => Sys2Proof.Machine.execOutPcRefused s
  | .outIsrRefused _ _ => Sys2Proof.Machine.execOutIsrRefused s
  | .outExecRefused _ _ => Sys2Proof.Machine.execOutExecRefused s
  | .pushRefused _ _ => Sys2Proof.Machine.execPushRefused s
  | .pullReserved _ _ _ => Sys2Proof.Machine.execPullReserved s
  | .movReservedDest _ _ _ => Sys2Proof.Machine.execMovReservedDest s
  | .movReservedOp _ _ _ => Sys2Proof.Machine.execMovReservedOp s
  | .movReservedSrc _ _ _ => Sys2Proof.Machine.execMovReservedSrc s
  | .movOther _ _ _ _ => Sys2Proof.Machine.execMovOther s
  | .irqRefused _ _ => Sys2Proof.Machine.execIrqRefused s
  | .setReserved3 _ _ => Sys2Proof.Machine.execSetReserved3 s
  | .setReserved5 _ _ => Sys2Proof.Machine.execSetReserved5 s
  | .setReserved6 _ _ => Sys2Proof.Machine.execSetReserved6 s
  | .setReserved7 _ _ => Sys2Proof.Machine.execSetReserved7 s

end Sys2Proof.Machine
end

