-- ==== Sys2Proof/Machine/Wire.lean ====
section
/-! DEFINITION. From the latches to the wire (10_state R33, 40_execution R135): a pin write that completes at
cycle `t` shows on the wire from cycle `t + L_OUT` on. -/

namespace Sys2Proof.Machine

/-- What the block does to a pin (R33): drive it high or low, or leave it undriven. -/
inductive Level where
  | low
  | high
  | hiZ
deriving DecidableEq, Repr

/-- Brings the wire to cycle `now`: the writes that completed at `now - L_OUT` or before reach it, in order;
the others stay on their way (R135). -/
def drainPipe (now : Nat) : List PinEvent → Pins → Pins → List PinEvent × Pins × Pins
  | [], out, oe => ([], out, oe)
  | e :: rest, out, oe =>
    if e.time + Config.lOut ≤ now then
      if e.dir then drainPipe now rest out (writeGroup e.base e.data e.count oe)
      else drainPipe now rest (writeGroup e.base e.data e.count out) oe
    else (e :: rest, out, oe)

/-- The wire at cycle `now` (R135). -/
def State.drainWire (s : State) (now : Nat) : State :=
  let r := drainPipe now s.pinPipe s.wireOut s.wireOe
  { s with pinPipe := r.1, wireOut := r.2.1, wireOe := r.2.2 }

/-- `Drive(p, t)` at the state's own cycle `t` (R33). -/
def State.drive (s : State) (p : PinIx) : Level :=
  if s.wireOe[p.toNat]'(BitVec.isLt p) then
    if s.wireOut[p.toNat]'(BitVec.isLt p) then .high else .low
  else .hiZ

end Sys2Proof.Machine
end

