-- ==== Sys2Proof/Machine/Cycle.lean ====
section
/-! DEFINITION. The turn of one state machine in a system cycle (40_execution R130 to R133, R136, R139, R141):
whether its enable pulse falls there, the delay cycle or the instruction cycle, the divider, and whose turn
comes next (20_memory R88). -/

namespace Sys2Proof.Machine

/-! ## The clock divider (R131, R136) -/

/-- `sum = DIV_ACC + FRAC`, 0 to 510 (R136). -/
def SM.divSum (m : SM) : Nat := m.divAcc.toNat + m.divFrac.toNat

/-- `step_k`, the system cycles to the next pulse (R136). -/
def SM.divStep (m : SM) : Nat := m.divPeriod + (if 256 ≤ m.divSum then 1 else 0)

/-- The divider at a pulse: the next pulse and the accumulator (R131, R136). -/
def SM.tick (m : SM) : SM :=
  { m with nextEn := m.nextEn + m.divStep, divAcc := BitVec.ofNat 8 m.divSum }

/-! ## Whose turn comes next (R88) -/

/-- The end of system cycle `t`: the host is at boundary `t + 1`, and the wire is that of cycle `t + 1`. -/
def State.endCycle (s : State) : State :=
  { s.drainWire (s.time + 1) with time := s.time + 1, boundary := true, active := 0 }

/-- The end of the executing machine's turn: the next machine's turn, or the end of the cycle. -/
def State.endTurn (s : State) : State :=
  if s.active = 3 then s.endCycle else { s with active := s.active + 1 }

/-- The end of a pulse: the divider moves on unless the machine stopped for good in it (R136, R302), and the
turn ends. -/
def State.endPulse (s : State) : State :=
  (if s.cur.halted then s else s.setCur s.cur.tick).endTurn

/-! ## One state-machine cycle -/

/-- Machine `k` steps in cycle `t`: it is enabled (R28), not stopped by a fault or refusal (R302, R303), no
dummy slot (R283), and its enable pulse falls at `t` (R131). -/
def State.due (s : State) (k : Fin 4) : Bool :=
  (s.sm k).enabled && !(s.sm k).halted && !s.dummy k && (s.sm k).nextEn == s.time

/-- A delay cycle: `DELAY <- DELAY - 1` and nothing else (R132). -/
def SM.delayCycle (m : SM) : SM := { m with delay := m.delay - 1 }

/-- Instruction fetch: the word in the slot at PC, `none` where it is unloaded (R72, R133). -/
def State.fetch (s : State) : Option Half := Memory.read s.imem s.cur.pc.toNat

/-- The turn of the executing machine (R141): no step where it is not due, else a delay cycle, a fetch
fault, or the instruction. -/
def smTurn (s : State) : Host.Outcome State Fault Refusal :=
  if s.due s.active then
    if s.cur.delay ≠ 0 then .next (s.setCur s.cur.delayCycle).endPulse
    else
      match s.fetch with
      | none => .next (s.raise (.fetchUnloaded s.active s.cur.pc)).endPulse
      | some w =>
        match exec (decode w) s with
        | .next t => .next t.endPulse
        | .fault f => .fault f
        | .refused r => .refused r
  else .next s.endTurn

end Sys2Proof.Machine
end

