-- ==== Sys2Proof/Machine/Program.lean ====
section
/-! DEFINITION. What the host loads and configures: the waveform program's image, its relocation and its
transcription (45_dshot_program R230, R231, 30_encoding R118, 60_exceptions R303), the configuration words of a DShot channel (10_state R51)
and of a dummy slot (46_channels_host R283), and the calls of the external encoder (R281). -/

namespace Sys2Proof.Machine

/-- The 18 words of the WaveformProgram at origin 0 (R230). -/
def dshotImage : List Half :=
  [0xE081, 0x80A0, 0x6070, 0xE02F, 0xE001, 0x6041, 0x006B, 0xA242, 0xE000, 0x0044, 0x000E, 0xE300,
   0x0044, 0x000E, 0xBF42, 0xBF42, 0xBF42, 0x1F01]

/-- Relocation to origin `o`: the address of a JMP moves by `o` modulo 32, every other word stays (R118). -/
def relocate (o : Slot) (w : Half) : Half :=
  if opcField w = 0 then (w.extractLsb' 5 11 ++ (lowField w + o) : BitVec (11 + 5)) else w

/-- The image at origin `o` (R231). -/
def dshotAt (o : Slot) : List Half := dshotImage.map (relocate o)

/-- The transcriber of a program image whose first word goes to slot `slot`: its instructions, or the first slot
whose word has no admitted constructor (R303). DESIGN CHOICE: an image that runs past slot 31 is refused too,
naming the first slot that does not exist (log 29). -/
def transcribe : (slot : Nat) → List Half → Except Nat (List Instr)
  | _, [] => .ok []
  | slot, w :: ws =>
    if slot < 32 ∧ verdict (decode w) = .admitted then (transcribe (slot + 1) ws).map (decode w :: ·)
    else .error slot

/-- `CLKDIV` of a channel (R51). -/
def channelClkdiv (ch : Channel) : Word := (ch.dInt ++ ch.dFrac ++ 0#8 : BitVec (16 + 8 + 8))

/-- `EXECCTRL` of a channel at origin `o`: JMP_PIN its pin, WRAP_TOP `o + 17`, WRAP_BOTTOM `o + 1` (R51, R232). -/
def channelExecctrl (ch : Channel) (o : Slot) : Word :=
  ch.pin.setWidth 32 <<< 24 ||| (o + 17).setWidth 32 <<< 12 ||| (o + 1).setWidth 32 <<< 7

/-- `SHIFTCTRL` of a channel: auto-pull, left shift, threshold 32, FJOIN_TX for depth 8 (R51). -/
def channelShiftctrl (deep : Bool) : Word := if deep then 0x40020000 else 0x00020000

/-- `PINCTRL` of a channel: SET_COUNT 1, SET_BASE and OUT_BASE its pin (R51). -/
def channelPinctrl (ch : Channel) : Word :=
  0x04000000 ||| ch.pin.setWidth 32 <<< 5 ||| ch.pin.setWidth 32

/-- `PINCTRL` of a dummy slot: every count 0 (R283, V92). -/
def dummyPinctrl : Word := 0

/-- The encoder calls of a multi-channel operation over `n` channels, in ascending channel order (R281). DESIGN
CHOICE: arguments past the `n`-th are dropped, and a shorter list submits to its first channels only
(log 27). -/
def encoderCalls (n : Nat) : MultiOp → List EncOp
  | .command vs => (vs.take n).map .command
  | .reverse fs => (fs.take n).map .reverse
  | .throttleClamp vs => (vs.take n).map .throttleClamp
  | .throttleMinimum => List.replicate n .throttleMinimum

/-- The word submitted for a payload: `zext_32(P)` (R272). -/
def submittedWord (payload : BitVec 16) : Word := payload.setWidth 32

end Sys2Proof.Machine
end

