-- ==== Sys2Proof/Machine/Registers.lean ====
section
/-! DEFINITION. The host's register space (10_state R36 to R50): which offset is which register, what a read
returns, and what a write does or why it is refused (R37, R303, R327). -/

namespace Sys2Proof.Machine

/-- The registers of R36. -/
inductive Reg where
  | ctrl
  | fstat
  | fdebug
  | flevel
  | txf (i : Fin 4)
  | instrMem (a : Fin 32)
  | clkdiv (i : Fin 4)
  | execctrl (i : Fin 4)
  | shiftctrl (i : Fin 4)
  | addr (i : Fin 4)
  | instr (i : Fin 4)
  | pinctrl (i : Fin 4)
deriving DecidableEq, Repr

/-- The byte offset of a register from BLOCK_BASE (R36). -/
def regOffset : Reg → Nat
  | .ctrl => 0x000
  | .fstat => 0x004
  | .fdebug => 0x008
  | .flevel => 0x00C
  | .txf i => 0x010 + 4 * i.val
  | .instrMem a => 0x048 + 4 * a.val
  | .clkdiv i => 0x0C8 + 0x18 * i.val
  | .execctrl i => 0x0CC + 0x18 * i.val
  | .shiftctrl i => 0x0D0 + 0x18 * i.val
  | .addr i => 0x0D4 + 0x18 * i.val
  | .instr i => 0x0D8 + 0x18 * i.val
  | .pinctrl i => 0x0DC + 0x18 * i.val

/-- The registers of one state machine, by their place among its six words (R36). -/
def smReg (i : Fin 4) (word : Nat) : Reg :=
  if word = 0 then .clkdiv i
  else if word = 1 then .execctrl i
  else if word = 2 then .shiftctrl i
  else if word = 3 then .addr i
  else if word = 4 then .instr i
  else .pinctrl i

/-- The register at a byte offset; `none` for an offset R36 does not list or one that is not aligned (R76). -/
def regAt (off : Nat) : Option Reg :=
  if off % 4 ≠ 0 then none
  else if off = 0x000 then some .ctrl
  else if off = 0x004 then some .fstat
  else if off = 0x008 then some .fdebug
  else if off = 0x00C then some .flevel
  else if off < 0x020 then some (.txf (Fin.ofNat 4 ((off - 0x010) / 4)))
  else if off < 0x048 then none
  else if off < 0x0C8 then some (.instrMem (Fin.ofNat 32 ((off - 0x048) / 4)))
  else if off < 0x128 then
    some (smReg (Fin.ofNat 4 ((off - 0x0C8) / 0x18)) ((off - 0x0C8) % 0x18 / 4))
  else none

/-- The address of a register in the host's address space (R36, R92). DESIGN CHOICE: an address is 32 bits wide
and the sum wraps modulo 2^32, which the spec does not say (log 12). -/
def regAddress (r : Reg) : Word := Config.blockBase + BitVec.ofNat 32 (regOffset r)

/-! ## Reads (R38) -/

/-- The bits of a register as the host reads it; `none` for the write-only ones and for SMi_INSTR at an
unloaded slot, whose low half is a free draw (R49). -/
def regValue (s : State) : Reg → Option Word
  | .ctrl => some s.ctrl
  | .fstat => some s.fstat
  | .fdebug => some s.fdebug
  | .flevel => some s.flevel
  | .txf _ => none
  | .instrMem _ => none
  | .clkdiv i => some (s.sm i).clkdiv
  | .execctrl i => some (s.sm i).execctrlRead
  | .shiftctrl i => some (s.sm i).shiftctrl
  | .addr i => some ((s.sm i).pc.setWidth 32)
  | .instr i => (Memory.read s.imem (s.sm i).pc.toNat).map fun w => w.setWidth 32
  | .pinctrl i => some (s.sm i).pinctrl

/-- The host gets a result back (R145). -/
def State.giveResult (s : State) (r : HostResult) : State := { s with results := s.results ++ [r] }

/-- The host reads a register: its value is a result, and nothing else changes (R38); a write-only register
is not read (R288, R307; log 18). -/
def readReg (s : State) (r : Reg) : State :=
  match r with
  | .txf _ => s.refuseHost .refusedHostAccess
  | .instrMem _ => s.refuseHost .refusedHostAccess
  | .instr _ =>
    match regValue s r with
    | some v => s.giveResult (.word v)
    | none =>
      { s.giveResult (.word ((Config.unloadedWord s.hostDraws).setWidth 32)) with
        hostDraws := s.hostDraws + 1 }
  | .ctrl | .fstat | .fdebug | .flevel | .clkdiv _ | .execctrl _ | .shiftctrl _ | .addr _ | .pinctrl _ =>
    match regValue s r with
    | some v => s.giveResult (.word v)
    | none => s.refuseHost .refusedHostAccess

/-! ## What a configuration register admits (R37, R44, R45, R47, R50) -/

/-- CLKDIV: reserved bits 0; `INT = 0` only with `FRAC = 0` (R44). -/
def clkdivAdmits (v : Word) : Bool :=
  v.extractLsb' 0 8 == 0 && (v.extractLsb' 16 16 != 0 || v.extractLsb' 8 8 == 0)

/-- EXECCTRL: SIDE_EN, SIDE_PINDIR, INLINE_OUT_EN, OUT_STICKY and the reserved bits 0 (R45). -/
def execctrlAdmits (v : Word) : Bool :=
  v.extractLsb' 29 2 == 0 && v.extractLsb' 17 2 == 0 && v.extractLsb' 5 2 == 0

/-- SHIFTCTRL: FJOIN_RX, AUTOPUSH and the reserved bits 0 (R47). -/
def shiftctrlAdmits (v : Word) : Bool :=
  !v.getLsbD 31 && !v.getLsbD 16 && v.extractLsb' 0 16 == 0

/-- PINCTRL: SIDESET_COUNT 0, SET_COUNT at most 5, OUT_COUNT at most 32 (R50). -/
def pinctrlAdmits (v : Word) : Bool :=
  v.extractLsb' 29 3 == 0 && (v.extractLsb' 26 3).toNat ≤ 5 && (v.extractLsb' 20 6).toNat ≤ 32

/-- FDEBUG: the reserved bits are 0, that is 31:28 and 23:20 (R37, R42), and of 15:0, where R42 gives no places
to RXUNDER, RXSTALL and reserved, 15:12 and 7:4 by the family's layout (PRESUMED, log 19). -/
def fdebugAdmits (v : Word) : Bool :=
  v.extractLsb' 28 4 == 0 && v.extractLsb' 20 4 == 0 && v.extractLsb' 12 4 == 0 && v.extractLsb' 4 4 == 0

/-! ## CTRL (R40, R137, R144, R277, R279, R323) -/

/-- `SM_RESTART`: DELAY, STALLED, X, Y and the OSR, and nothing else of R323's list (R279 step 1, R321). -/
def SM.restart (m : SM) : SM :=
  { m with
    delay := 0
    stalled := false
    x := none
    y := none
    osr := Config.osrStart
    osrCount := if Config.osrStart.isSome then 0 else 32
    restarted := true }

/-- `SM_ENABLE <- 1` at boundary `now`: the first pulse a free draw in `now .. now + INT'`, the accumulator a
free draw (R137, R279 step 3). -/
def SM.start (m : SM) (k : Fin 4) (now : Nat) : SM :=
  { m with
    enabled := true
    nextEn := now + Config.phase k m.draws % (m.divPeriod + 1)
    divAcc := Config.divAcc k m.draws
    draws := m.draws + 1 }

/-- `SM_ENABLE <- 0`: the machine freezes, and needs a restart and a forced JMP before its next start (R144,
R279). -/
def SM.disable (m : SM) : SM := { m with enabled := false, restarted := false, jumped := false }

/-- `CTRL.SM_ENABLE[k]` of a word. -/
def ctrlEnable (v : Word) (k : Fin 4) : Bool := v.getLsbD k.val

/-- `CTRL.SM_RESTART[k]` of a word. -/
def ctrlRestart (v : Word) (k : Fin 4) : Bool := v.getLsbD (4 + k.val)

/-- `CTRL.CLKDIV_RESTART[k]` of a word. -/
def ctrlClkRestart (v : Word) (k : Fin 4) : Bool := v.getLsbD (8 + k.val)

/-- A write of `v` to CTRL admits machine `k`: its restarts only while disabled (R137, R323), its enable only
after steps 1 and 2 of the start, and for a dummy slot only with an empty SET group (R279, R283). Steps 1
and 2 must stand before the write: an SM_RESTART in the same write does not count as step 1 (DESIGN CHOICE,
log 17). -/
def ctrlAdmitsSm (s : State) (v : Word) (k : Fin 4) : Bool :=
  (!(ctrlRestart v k || ctrlClkRestart v k) || !(s.sm k).enabled) &&
  (!(ctrlEnable v k && !(s.sm k).enabled) ||
    ((s.sm k).restarted && (s.sm k).jumped && (!s.dummy k || (s.sm k).setCount == 0)))

/-- The pin premise for machines `j` and `k`: not both enabled after the write, or disjoint SET groups (R277). -/
def ctrlAdmitsPair (s : State) (v : Word) (j k : Fin 4) : Bool :=
  !(ctrlEnable v j && ctrlEnable v k) || groupsDisjoint (s.sm j) (s.sm k)

/-- Some machine is newly enabled by a write of `v` to CTRL: the pin premise is checked (R277). -/
def ctrlStarts (s : State) (v : Word) : Bool :=
  (ctrlEnable v 0 && !(s.sm 0).enabled) || (ctrlEnable v 1 && !(s.sm 1).enabled) ||
  (ctrlEnable v 2 && !(s.sm 2).enabled) || (ctrlEnable v 3 && !(s.sm 3).enabled)

/-- A write of `v` to CTRL is admitted (R37, R40, R137, R277, R279, R288). -/
def ctrlAdmits (s : State) (v : Word) : Bool :=
  v.extractLsb' 12 20 == 0 &&
  (ctrlAdmitsSm s v 0 && ctrlAdmitsSm s v 1 && ctrlAdmitsSm s v 2 && ctrlAdmitsSm s v 3) &&
  (!ctrlStarts s v ||
    (ctrlAdmitsPair s v 0 1 && ctrlAdmitsPair s v 0 2 && ctrlAdmitsPair s v 0 3 &&
     ctrlAdmitsPair s v 1 2 && ctrlAdmitsPair s v 1 3 && ctrlAdmitsPair s v 2 3))

/-- What an admitted write of `v` to CTRL does to machine `k`: restart, then start or freeze (R40, R144,
R279; log 17). -/
def ctrlSm (s : State) (v : Word) (k : Fin 4) : SM :=
  let m := if ctrlRestart v k then (s.sm k).restart else s.sm k
  if ctrlEnable v k then
    if (s.sm k).enabled then m else m.start k s.time
  else
    if (s.sm k).enabled then m.disable else m

/-- The host writes CTRL (R40). -/
def writeCtrl (s : State) (v : Word) : State :=
  if ctrlAdmits s v then
    (((s.setSm 0 (ctrlSm s v 0)).setSm 1 (ctrlSm s v 1)).setSm 2 (ctrlSm s v 2)).setSm 3 (ctrlSm s v 3)
  else s.refuseHost .refusedConfig

/-! ## Writes (R37, R288) -/

/-- A configuration write: only while the machine is disabled and only an admitted value (R37, R327). DESIGN
CHOICE: one between the machine's restart or forced JMP and its enable is admitted and keeps both start marks
(log 30). -/
def writeConfig (s : State) (k : Fin 4) (admitted : Bool) (m : SM) : State :=
  if !(s.sm k).enabled && admitted then s.setSm k m else s.refuseHost .refusedConfig

/-- The word written to SMi_INSTR is an unconditional JMP with delay 0, `w[15:5] = 0` (R49). DESIGN CHOICE: bits
31:16 must be 0 too, of which R49 says nothing (log 18). -/
def forcedJump (v : Word) : Bool := v.extractLsb' 5 27 == 0

/-- `FDEBUG` write 1 to clear, for machine `k` (R42). -/
def clearDebug (m : SM) (k : Fin 4) (v : Word) : SM :=
  { m with
    txstall := m.txstall && !v.getLsbD (24 + k.val)
    txover := m.txover && !v.getLsbD (16 + k.val) }

/-- The host writes a register (R288). A forced JMP is step 2 of the start only after step 1 (R279, R325).
DESIGN CHOICE: an INSTR_MEM write between a machine's restart or forced JMP and its enable is admitted and
keeps its start marks (log 30). DESIGN CHOICE: a change of FJOIN_TX over a FIFO that is not empty, which R47
refuses without a reason, records RefusedConfig (log 18). -/
def writeReg (s : State) (r : Reg) (v : Word) : State :=
  match r with
  | .ctrl => writeCtrl s v
  | .fstat => s.refuseHost .refusedHostAccess
  | .flevel => s.refuseHost .refusedHostAccess
  | .addr _ => s.refuseHost .refusedHostAccess
  | .fdebug =>
    if fdebugAdmits v then
      (((s.setSm 0 (clearDebug (s.sm 0) 0 v)).setSm 1 (clearDebug (s.sm 1) 1 v)).setSm 2
        (clearDebug (s.sm 2) 2 v)).setSm 3 (clearDebug (s.sm 3) 3 v)
    else s.refuseHost .refusedConfig
  | .txf i => s.setSm i ((s.sm i).fifoPush v)
  | .instrMem a =>
    if !s.anyEnabled && v.extractLsb' 16 16 == 0 then
      { s with imem := Memory.write s.imem a.val (v.extractLsb' 0 16) }
    else s.refuseHost .refusedHostAccess
  | .clkdiv i => writeConfig s i (clkdivAdmits v) { s.sm i with clkdiv := v }
  | .execctrl i =>
    writeConfig s i (execctrlAdmits v) { s.sm i with execctrl := v &&& 0x7FFFFFFF }
  | .shiftctrl i =>
    writeConfig s i
      (shiftctrlAdmits v && (v.getLsbD 30 == (s.sm i).fjoinTx || (s.sm i).fifoEmpty))
      { s.sm i with shiftctrl := v }
  | .instr i =>
    if !(s.sm i).enabled && forcedJump v then
      s.setSm i { s.sm i with pc := v.extractLsb' 0 5, jumped := (s.sm i).restarted }
    else s.refuseHost .refusedHostAccess
  | .pinctrl i => writeConfig s i (pinctrlAdmits v) { s.sm i with pinctrl := v }

/-! ## Accesses (R76) -/

/-- A host read of `width` bits at byte offset `off` (R36, R76). -/
def hostRead (s : State) (width off : Nat) : State :=
  if width = 32 then
    match regAt off with
    | some r => readReg s r
    | none => s.refuseHost .refusedHostAccess
  else s.refuseHost .refusedHostAccess

/-- A host write of `width` bits at byte offset `off` (R36, R76). -/
def hostWrite (s : State) (width off : Nat) (v : Word) : State :=
  if width = 32 then
    match regAt off with
    | some r => writeReg s r v
    | none => s.refuseHost .refusedHostAccess
  else s.refuseHost .refusedHostAccess

end Sys2Proof.Machine
end

