-- ==== Sys2Proof/Machine/Host.lean ====
section
/-! DEFINITION. The host agent (46_channels_host): its operations as register accesses, one access or one
expansion a step, at the boundaries they are assigned to (20_memory R88). -/

namespace Sys2Proof.Machine

/-! ## Operations that expand into others -/

/-- The writes of INSTR_MEM that load words from slot `origin` on (R276), for words that fit: `loadImage` and
`programFits` ask that before the words are written. DESIGN CHOICE: for others the slot is taken modulo 32
(log 29). -/
def imageActs (origin : Nat) (words : List Half) : List HostAct :=
  words.mapIdx fun j w => .write 32 (regOffset (.instrMem (Fin.ofNat 32 (origin + j)))) (w.setWidth 32)

/-- Installation as 18 writes of INSTR_MEM (R276). -/
def installActs (origin : Nat) : List HostAct := imageActs origin (dshotAt (BitVec.ofNat 5 origin))

/-- The writes that load a program image, relocated to `origin`, where the transcriber admits all of it; else
the slot of the first word it refuses, before any write (R118, R303). DESIGN CHOICE: a word past slot 31 is
refused (log 29). -/
def loadImage (origin : Nat) (image : List Half) : Except Nat (List HostAct) :=
  let words := image.map (relocate (BitVec.ofNat 5 origin))
  (transcribe origin words).map fun _ => imageActs origin words

/-- Configuration of an active channel as four writes (R51, R278). DESIGN CHOICE: an origin above 14, which R7
does not admit, is taken modulo 32 (log 28). -/
def configureActs (c : Fin 4) (ch : Channel) (origin : Nat) (deep : Bool) : List HostAct :=
  [.write 32 (regOffset (.clkdiv c)) (channelClkdiv ch),
   .write 32 (regOffset (.execctrl c)) (channelExecctrl ch (BitVec.ofNat 5 origin)),
   .write 32 (regOffset (.shiftctrl c)) (channelShiftctrl deep),
   .write 32 (regOffset (.pinctrl c)) (channelPinctrl ch)]

/-- Configuration of a dummy slot; SIDE_EN is 0 in every admitted configuration already (R45, R283). -/
def dummyActs (c : Fin 4) : List HostAct := [.write 32 (regOffset (.pinctrl c)) dummyPinctrl]

/-- Start of a state machine: restart, forced JMP, enable (R279). DESIGN CHOICE: an origin above 14, which R7
does not admit, is jumped to as any slot is, and one above 31 is no forced JMP and is refused (log 28). -/
def startActs (c : Fin 4) (origin : Nat) : List HostAct :=
  [.ctrlSet (1#32 <<< (4 + c.val)),
   .write 32 (regOffset (.instr c)) (BitVec.ofNat 32 origin),
   .ctrlSet (1#32 <<< c.val)]

/-- The slots of a driver with `n` channels that are dummies, and those that are not (R271). -/
def channelSlots (n : Nat) (dummies : Bool) : List (Fin 4) :=
  (List.finRange 4).filter fun k => if dummies then n ≤ k.val else k.val < n

/-- Construction of a driver after the block's reset: install, configure the channels, configure the
dummies, start the channels, and the dummies too where they are enabled (R280, R283). DESIGN CHOICE: an
enabled dummy is started as a channel is, at the driver's origin, after the channels (log 21). -/
def constructActs (chs : List Channel) (origin : Nat) (deep enableDummies : Bool) : List HostAct :=
  installActs origin ++
  (chs.mapIdx fun j ch => configureActs (Fin.ofNat 4 j) ch origin deep).flatten ++
  ((channelSlots chs.length true).map dummyActs).flatten ++
  ((channelSlots chs.length false).map fun k => startActs k origin).flatten ++
  (if enableDummies then ((channelSlots chs.length true).map fun k => startActs k origin).flatten else [])

/-- The program fits at an origin: 18 slots from it are there and unloaded (R231, R282; log 22). -/
def programFits (s : State) (origin : Nat) : Bool :=
  origin ≤ 14 && (List.range 18).all fun j => (Memory.read s.imem (origin + j)).isNone

/-- The submits of a multi-channel operation, channel `c`'s `lag * c` boundaries after `due`, and the return
of its array (R281). DESIGN CHOICE: each submit writes at the boundary of its own read, the earliest that R274
allows, and the channels' submits are evenly spaced (log 23). -/
def multiItems (s : State) (due : Nat) (checked : Bool) (op : MultiOp) (lag : Nat) : List HostItem :=
  let calls := encoderCalls s.nCh op
  (calls.mapIdx fun c e =>
    let w := submittedWord (Config.enc e)
    HostItem.mk (due + lag * c)
      (if checked then .submit (Fin.ofNat 4 c) w 0 else .submitUnchecked (Fin.ofNat 4 c) w)) ++
  [⟨due, .collect calls.length⟩]

/-! ## The result array -/

/-- The result of one submit; every other result counts as false. -/
def resultFlag : HostResult → Bool
  | .flag b => b
  | _ => false

/-- The last `n` results become one array (R281). DESIGN CHOICE: until then each submit's own result stands in the
sequence of results, which R145 and R281 leave open (log 23). -/
def State.collect (s : State) (n : Nat) : State :=
  let keep := s.results.length - n
  { s with results := s.results.take keep ++ [.flags ((s.results.drop keep).map resultFlag)] }

/-! ## One operation -/

/-- The host writes TXFi and its submit returns true (R75, R274, R275, R286). -/
def State.submitNow (s : State) (c : Fin 4) (w : Word) : State :=
  (hostWrite s 32 (regOffset (.txf c)) w).giveResult (.flag true)

/-- One operation `it` at the head of the queue, `rest` behind it; `none` where the host holds (R275). DESIGN
CHOICE: a blocking submit tests TXFULL at each boundary from its due on and writes at the first with room, of
which R275 says only that the write comes then (log 23). DESIGN CHOICE: construct looks first at the number of
channels, then at whether a machine is enabled and last at whether the program fits, and install looks first at
whether it fits (log 22). -/
def hostAct (s : State) (it : HostItem) (rest : List HostItem) : Option State :=
  let s' := { s with hostq := rest }
  let expand (acts : List HostAct) : Option State :=
    some { s with hostq := acts.map (HostItem.mk it.due) ++ rest }
  match it.act with
  | .read width off => some (hostRead s' width off)
  | .write width off v => some (hostWrite s' width off v)
  | .ctrlSet ones => some (writeReg s' .ctrl (s.ctrl ||| ones))
  | .submit c w lag =>
    if (s.sm c).fifoFull then some (s'.giveResult (.flag false))
    else some { s with hostq := ⟨s.time + lag, .submitWrite c w⟩ :: rest }
  | .submitWrite c w => some (s'.submitNow c w)
  | .submitBlocking c w => if (s.sm c).fifoFull then none else some (s'.submitNow c w)
  | .submitUnchecked c w => some (s'.submitNow c w)
  | .multi checked op lag => some { s with hostq := multiItems s it.due checked op lag ++ rest }
  | .collect n => some (s'.collect n)
  | .install origin =>
    if programFits s origin then expand (installActs origin) else some (s'.giveResult .installFailed)
  | .configure c ch origin deep => expand (configureActs c ch origin deep)
  | .configureDummy c => expand (dummyActs c)
  | .start c origin => expand (startActs c origin)
  | .construct chs origin deep enableDummies =>
    if chs.length = 0 ∨ 4 < chs.length then some (s'.refuseHost .refusedConfig)
    else if s.anyEnabled then some (s'.refuseHost .refusedHostAccess)
    else if programFits s origin then
      some
        { s with
          nCh := chs.length
          hostq := (constructActs chs origin deep enableDummies).map (HostItem.mk it.due) ++ rest }
    else some (s'.giveResult .installFailed)

/-! ## The host's turn at a boundary (R88) -/

/-- The host leaves the boundary: the state machines of this cycle step, `sm[0]` first. -/
def State.leaveBoundary (s : State) : State := { s with boundary := false, active := 0 }

/-- One step of the host at boundary `t`: its next operation if it is assigned to `t` or an earlier
boundary and need not hold, else it leaves the boundary (R88, R275). -/
def hostTurn (s : State) : State :=
  match s.hostq with
  | [] => s.leaveBoundary
  | it :: rest =>
    if it.due ≤ s.time then (hostAct s it rest).getD s.leaveBoundary else s.leaveBoundary

end Sys2Proof.Machine
end

