-- ==== Sys2Proof/Machine/Step.lean ====
section
/-! DEFINITION. One step of the block: one operation of the host at a boundary, or the turn of one state
machine in the cycle after it (20_memory R88, 40_execution R141); and the state in which the next step runs a
given instruction. -/

namespace Sys2Proof.Machine

/-- One step (R88, R141). -/
def step (s : State) : Host.Outcome State Fault Refusal :=
  if s.boundary then .next (hostTurn s) else smTurn s

/-- The state machine that `withFetchWord` makes run: the one whose turn it is, `sm[0]` at a boundary. -/
def State.nextSm (s : State) : Fin 4 := if s.boundary then 0 else s.active

/-- `s` with an instruction in the slot that the next step fetches, and with what makes the next step fetch
it: it is the turn of a machine that is enabled, not halted, no dummy slot, in no delay, and whose pulse
falls now (log 16). -/
def State.withFetchWord (s : State) (_nbits w : Nat) : State :=
  let k := s.nextSm
  let m := s.sm k
  { s.setSm k { m with enabled := true, halted := false, delay := 0, nextEn := s.time } with
    boundary := false
    active := k
    nCh := max s.nCh (k.val + 1)
    imem := Memory.write s.imem m.pc.toNat (BitVec.ofNat 16 w) }

end Sys2Proof.Machine
end

