-- ==== Sys2Proof/Machine/Waveform.lean ====
section
/-! DEFINITION. The waveform a claim may speak of (45_dshot_program R236 to R243, R256, R257): lengths in
state-machine cycles, the intervals of one frame, and the pin trace of a channel as the concatenation of its
frames, and the condition of the reset interval. No step of the block reads any of it: the block runs the program's words. -/

namespace Sys2Proof.Machine

/-- The length of a bit slot (R241). -/
def slotCycles : Nat := 8

/-- The length of a bit's high phase (R236, R237). -/
def highCycles (b : Bool) : Nat := if b then 6 else 3

/-- The shortest low gap after a frame whose last bit is `b` (R242). -/
def gapCycles (b : Bool) : Nat := if b then 134 else 137

/-- The shortest frame period (R243). -/
def frameCycles : Nat := 260

/-- An interval of the pin: its level, its first cycle, and its last cycle + 1 (R257). -/
structure Interval where
  level : Bool
  start : Nat
  stop : Nat
deriving DecidableEq, Repr

/-- The first rising edge of a frame pulled at cycle `p` (R235, R257). -/
def firstRise (p : Nat) : Nat := p + 3

/-- `wave(W, P)`: the intervals of a frame that carries `w` and was pulled at cycle `p`; the last low interval
is extended to `next`, the next frame's first rising edge (R257). -/
def wave (w : Word) (p next : Nat) : List Interval :=
  (List.range 16).flatMap fun j =>
    let start := firstRise p + slotCycles * j
    let fall := start + highCycles (w.getLsbD (15 - j))
    [⟨true, start, fall⟩, ⟨false, fall, if j = 15 then next else start + slotCycles⟩]

/-- The concatenation of the waves of frames (word, pull cycle) in FIFO order (R257). DESIGN CHOICE: R257 ends a
low interval only by a next frame; the last frame, which has none, is held low up to `horizon`, and at least to
the end of its own last bit slot (log 31). -/
def waves : List (Word × Nat) → (horizon : Nat) → List Interval
  | [], _ => []
  | [(w, p)], horizon => wave w p (max horizon (firstRise p + 16 * slotCycles))
  | (w, p) :: (w', p') :: rest, horizon => wave w p (firstRise p') ++ waves ((w', p') :: rest) horizon

/-- The part of an interval in the cycles below `horizon`, where it has one. -/
def Interval.upTo (horizon : Nat) (v : Interval) : Option Interval :=
  if v.start < horizon then some { v with stop := min v.stop horizon } else none

/-- A channel's pin trace in the cycles below `horizon`, from cycle 0, where its pin becomes an output: the level
`held` before the first frame, which is its latch's (R251, R252), and then the waves of its frames (R257).
DESIGN CHOICE: R257 names no horizon; the trace is cut at one as the observation of R145 is, so an interval
that goes on past it ends there and a later one is not shown (log 31). -/
def channelTrace (held : Bool) (frames : List (Word × Nat)) (horizon : Nat) : List Interval :=
  (⟨held, 0, ((frames.head?).map fun f => firstRise f.2).getD horizon⟩ :: waves frames horizon).filterMap
    (Interval.upTo horizon)

/-! ## Lengths in system cycles, and the reset interval (R136, R142, R256) -/

/-- The system cycles that the next `n` state-machine cycles last, from the accumulator `DIV_ACC` on (R136). -/
def SM.systemCycles (m : SM) (n : Nat) : Nat :=
  n * m.divPeriod + (m.divAcc.toNat + n * m.divFrac.toNat) / 256

/-- The fewest system cycles that `n` state-machine cycles last, over every accumulator: `n * INT'` plus the floor
of `n * FRAC / 256` (R256). -/
def SM.fewestCycles (m : SM) (n : Nat) : Nat := n * m.divPeriod + n * m.divFrac.toNat / 256

/-- The most system cycles that `n` state-machine cycles last, over every accumulator: `n * INT'` plus the ceiling
of `n * FRAC / 256` (R256). -/
def SM.mostCycles (m : SM) (n : Nat) : Nat := n * m.divPeriod + (n * m.divFrac.toNat + 255) / 256

/-- A gap of `cycles` system cycles meets the protocol's minimum: `cycles / F_SYS` is at least `T_RESET_MIN` (R256),
in nanoseconds (log 12). -/
def meetsReset (cycles : Nat) : Prop := Config.tResetMin * Config.fSys ≤ cycles * 1000000000

/-- Every gap of a channel with this divisor meets the protocol's minimum: its shortest gap, 134 cycles (R242),
does at its fewest system cycles, FRAC counted (R256). -/
def gapMeetsReset (m : SM) : Prop := meetsReset (m.fewestCycles (gapCycles true))

/-- R256's condition on the divisor, `134 * INT' / F_SYS >= T_RESET_MIN`: enough for every divisor, and necessary
with `FRAC = 0`. -/
def divisorMeetsReset (m : SM) : Prop := meetsReset (gapCycles true * m.divPeriod)

end Sys2Proof.Machine
end

