-- ==== Sys2Proof/Safety.lean ====
section
/-! DEFINITION. What counts as a safe run and the terms claims use: the clean state (60_exceptions R302, R303),
the invariants of the block, and what one machine's step may touch (R307). The waveform's own terms are in
Machine/Waveform.lean. -/

namespace Sys2Proof.Machine

/-! ## A clean run -/

/-- `FAULTS` is empty and `REFUSED` is unset: the premise of every claim about a run (R302, R303). -/
abbrev State.clean (s : State) : Prop := s.faults = [] ∧ s.refused = none

/-! ## Invariants -/

/-- The configuration words hold only what R44, R45, R47 and R50 admit; EXECCTRL's bit 31 is a view. -/
abbrev SM.configOk (m : SM) : Prop :=
  clkdivAdmits m.clkdiv = true ∧ execctrlAdmits m.execctrl = true ∧ m.execctrl.getLsbD 31 = false ∧
  shiftctrlAdmits m.shiftctrl = true ∧ pinctrlAdmits m.pinctrl = true

/-- `OSR_COUNT` is 0 to 32 (R24), the FIFO holds at most its capacity (R73), the configuration is admitted. -/
abbrev SM.ok (m : SM) : Prop := m.osrCount ≤ 32 ∧ m.txf.length ≤ m.cap ∧ m.configOk

/-- Every state machine is in order. -/
abbrev State.smsOk (s : State) : Prop := ∀ k : Fin 4, (s.sm k).ok

/-- Each pin has at most one writer among the enabled machines (R81, R277). -/
abbrev State.pinsOwned (s : State) : Prop :=
  ∀ j k : Fin 4, j ≠ k → (s.sm j).enabled = true → (s.sm k).enabled = true →
    ∀ p : PinIx, ¬((s.sm j).inGroup p = true ∧ (s.sm k).inGroup p = true)

/-- No machine that steps has its pulse behind it: its next pulse is in this cycle or later, and later if
its turn in this cycle is over (R88, R131). -/
abbrev State.onSchedule (s : State) : Prop :=
  ∀ k : Fin 4, (s.sm k).enabled = true → (s.sm k).halted = false → s.dummy k = false →
    if s.boundary = true ∨ s.active ≤ k then s.time ≤ (s.sm k).nextEn else s.time < (s.sm k).nextEn

/-! ## What may change -/

/-- The registers of a machine that no instruction writes: the configuration, the run bit, the divider, TXOVER
and the marks of the start sequence (R37, R307). -/
abbrev SM.sameSettings (m m' : SM) : Prop :=
  m'.clkdiv = m.clkdiv ∧ m'.execctrl = m.execctrl ∧ m'.shiftctrl = m.shiftctrl ∧
  m'.pinctrl = m.pinctrl ∧ m'.enabled = m.enabled ∧ m'.divAcc = m.divAcc ∧ m'.nextEn = m.nextEn ∧
  m'.txover = m.txover ∧ m'.restarted = m.restarted ∧ m'.jumped = m.jumped

/-- Everything of the block that belongs to neither the executing machine, nor the pins, nor the marks: the
other machines, every slot of the instruction memory, the clock, the turn, the wire, and the host. -/
abbrev State.sameElsewhere (s t : State) : Prop :=
  (∀ j : Fin 4, j ≠ s.active → t.sm j = s.sm j) ∧
  (∀ a : Nat, Memory.read t.imem a = Memory.read s.imem a) ∧
  t.time = s.time ∧ t.boundary = s.boundary ∧ t.active = s.active ∧ t.nCh = s.nCh ∧
  t.wireOut = s.wireOut ∧ t.wireOe = s.wireOe ∧ t.hostq = s.hostq ∧ t.results = s.results ∧
  t.hostDraws = s.hostDraws

/-- Latches, enables and the writes on their way to the wire are unchanged. -/
abbrev State.samePins (s t : State) : Prop :=
  t.pinOut = s.pinOut ∧ t.pinOe = s.pinOe ∧ t.pinPipe = s.pinPipe

/-- No fault and no refusal was recorded. -/
abbrev State.sameMarks (s t : State) : Prop := t.faults = s.faults ∧ t.refused = s.refused

/-- The latch of pin `p` (R32). -/
def State.latch (s : State) (p : PinIx) : Bool := s.pinOut[p.toNat]'(BitVec.isLt p)

/-- The output enable of pin `p` (R32). -/
def State.enable (s : State) (p : PinIx) : Bool := s.pinOe[p.toNat]'(BitVec.isLt p)

/-! ## The rules' own words, for claims -/

/-- `next(PC)` of R138, written out. -/
abbrev SM.nextSlot (m : SM) : Slot := if m.pc = m.wrapTop then m.wrapBottom else m.pc + 1

/-- The machine has completed with delay `d` and goes on at slot `pc` (R133). -/
abbrev SM.goesTo (m : SM) (pc : Slot) (d : BitVec 5) : SM :=
  { m with stalled := false, pc := pc, delay := d }

/-- Auto-pull acts on this machine: it is on and `OSR_COUNT` has reached the threshold (R199). -/
abbrev SM.wantsWord (m : SM) : Prop := m.autopull = true ∧ m.thr ≤ m.osrCount

/-- `m'` is `m` after the oldest word `w` of its FIFO went into the OSR (R74, R190). -/
abbrev SM.Popped (m m' : SM) : Prop :=
  ∃ w rest, m.txf = w :: rest ∧ m' = { m with osr := some w, osrCount := 0, txf := rest }

/-- What the auto-pull before an OUT's shift makes of a machine it does not stall (R190, R199 (a)). -/
abbrev SM.OutBegins (m m' : SM) : Prop := (m.wantsWord ∧ m.Popped m') ∨ (¬m.wantsWord ∧ m' = m)

/-- What the auto-pull after an OUT's shift makes of a machine (R190, R199 (b)). -/
abbrev SM.OutEnds (m m' : SM) : Prop :=
  (m.wantsWord ∧ m.Popped m') ∨ ((¬m.wantsWord ∨ m.txf = []) ∧ m' = m)

/-- The state after the executing machine raised a fault: its record is in `FAULTS`, the machine is stopped,
and nothing else changed (R302). -/
abbrev State.Faulted (s t : State) (f : Fault) : Prop :=
  t = { s.setCur { s.cur with halted := true } with faults := t.faults } ∧
  f ∈ t.faults ∧ (∀ g ∈ s.faults, g ∈ t.faults) ∧ ∀ g ∈ t.faults, g = f ∨ g ∈ s.faults

/-- The mark REFUSED after a refusal for reason `r`: it is set, and for that reason where it was unset (R303). -/
abbrev Marked (old new : Option Refusal) (r : Refusal) : Prop := new ≠ none ∧ (old = none → new = some r)

/-- The state after a refusal of the executing machine: the mark is set, the machine is stopped, and nothing else
changed (R303). -/
abbrev State.Refused (s t : State) : Prop :=
  t = { s.setCur { s.cur with halted := true } with refused := t.refused } ∧
  Marked s.refused t.refused .refusedInstr

/-- The state after a refused host access: the mark is set, and nothing else changed (R303). -/
abbrev State.AccessRefused (s t : State) (r : Refusal) : Prop :=
  t = { s with refused := t.refused } ∧ Marked s.refused t.refused r

/-- The writes on their way, all applied to a pair of pin arrays (latches, enables) in order (R135). -/
def replay : List PinEvent → Pins × Pins → Pins × Pins
  | [], v => v
  | e :: rest, v =>
    replay rest
      (if e.dir then (v.1, writeGroup e.base e.data e.count v.2)
       else (writeGroup e.base e.data e.count v.1, v.2))

/-- The wire is the latches and enables, `L_OUT` cycles late: what is on its way leads from the one to the
other, in the order of its cycles, and nothing on its way is due yet (R33, R135). -/
abbrev State.wireInStep (s : State) : Prop :=
  replay s.pinPipe (s.wireOut, s.wireOe) = (s.pinOut, s.pinOe) ∧
  (s.pinPipe.map PinEvent.time).Pairwise (· ≤ ·) ∧
  ∀ e ∈ s.pinPipe, e.time ≤ s.time ∧ s.time < e.time + Config.lOut

/-- The state after `n` rounds of a loop whose round is `body` and then one execution of `i`, while each
execution answers a next state. -/
def loopTimes (i : Instr) (body : State → State) : Nat → State → Option State
  | 0, s => some s
  | n + 1, s =>
    match exec i (body s) with
    | .next t => loopTimes i body n t
    | .fault _ => none
    | .refused _ => none

/-- What a host read of a readable register shows (R40 to R50): the word `v`, in terms of the machine's fields;
StatusBits says of the four status registers what their bits are. -/
def State.Shows (s : State) (v : Word) : Reg → Prop
  | .ctrl => v = s.ctrl
  | .fstat => v = s.fstat
  | .fdebug => v = s.fdebug
  | .flevel => v = s.flevel
  | .clkdiv k => v = (s.sm k).clkdiv
  | .execctrl k => v = BitVec.ofBool (s.sm k).stalled ++ (s.sm k).execctrl.extractLsb' 0 31
  | .shiftctrl k => v = (s.sm k).shiftctrl
  | .pinctrl k => v = (s.sm k).pinctrl
  | .addr k => v = BitVec.ofNat 32 (s.sm k).pc.toNat
  | .instr k =>
    v.toNat < 65536 ∧
    ∀ w, Memory.read s.imem (s.sm k).pc.toNat = some w → v = BitVec.ofNat 32 w.toNat
  | .txf _ => False
  | .instrMem _ => False

end Sys2Proof.Machine
end

