-- ==== Sys2Proof/Certificates/Slice0/Obligations.lean ====
section
/-! DEFINITION. The statements for the provers. Each says what a numbered rule of spec/ says an instruction,
a state machine, the host interface or the whole block does; OBLIGATIONS.json names the rules. -/

open Sys2Proof Sys2Proof.Machine

/-! ## Decoding and encoding -/

/-- Decode and encode agree on every well-formed instruction, every operand at every value (R102 to R108). -/
def Obligations.DecodeOfEncode : Prop :=
  ∀ i : Instr, wellFormed i = true → decode (encode i) = i

/-- No word is lost: every word decodes to a well-formed instruction whose word it is (R100, R114). -/
def Obligations.EncodeOfDecode : Prop :=
  ∀ w : Half, wellFormed (decode w) = true ∧ encode (decode w) = w

/-- R114: every word decodes by the first row of the opcode table it matches, admitted rows first; it is
admitted exactly if an admitted row matches, and then exactly one does. -/
def Obligations.DecodeTakesTheFirstMatchingRow : Prop :=
  (∀ w : Half, opcodeTable.findIdx? (fun r => r.matchesWord w) = some (rowOf (decode w))) ∧
  (∀ w : Half, verdict (decode w) = .admitted ↔ ∃ r ∈ admittedRows, r.matchesWord w = true) ∧
  (∀ w : Half, (admittedRows.filter fun r => r.matchesWord w).length ≤ 1)

/-- A word of each family, written out in V1 to V28, decodes to the instruction it stands for. -/
def Obligations.WordsOfTheSpecDecode : Prop :=
  decode 0x1F01 = .jmp 31 1 ∧ decode 0x0044 = .jmpXDec 0 4 ∧ decode 0x006B = .jmpNotY 0 11 ∧
  decode 0x6060 = .outNull 0 0 ∧ decode 0x6041 = .outY 0 1 ∧ decode 0x80A0 = .pullBlock 0 ∧
  decode 0x80C0 = .pullIfemptyNoblock 0 ∧ decode 0xBF42 = .nop 31 ∧ decode 0xE081 = .setPindirs 0 1 ∧
  decode 0xE300 = .setPins 3 0 ∧ decode 0x80A1 = .pullReserved 0 1 1 ∧
  decode 0xA022 = .movOther 0 1 0 2 ∧ decode 0xE0A0 = .setReserved5 0 0

/-- R118: relocating a JMP moves its target by the origin modulo 32 and keeps its condition and delay;
every other word stays as it is. -/
def Obligations.RelocationMovesJumpTargets : Prop :=
  ∀ (o : Slot) (w : Half),
    (opcField w = 0 →
      opcField (relocate o w) = 0 ∧ delayField (relocate o w) = delayField w ∧
      selField (relocate o w) = selField w ∧
      (lowField (relocate o w)).toNat = ((lowField w).toNat + o.toNat) % 32) ∧
    (opcField w ≠ 0 → relocate o w = w)

/-! ## One cycle of a state machine -/

/-- R133, R141: in an instruction cycle the step is the decoded instruction, and then the end of the pulse. -/
def Obligations.StepRunsTheDecodedInstruction : Prop :=
  ∀ (s : State) (w : Half), s.boundary = false → s.due s.active = true → s.cur.delay = 0 →
    Memory.read s.imem s.cur.pc.toNat = some w →
    wellFormed (decode w) = true ∧
    (∀ t, exec (decode w) s = .next t → step s = .next t.endPulse) ∧
    (∀ f, exec (decode w) s = .fault f → step s = .fault f) ∧
    (∀ r, exec (decode w) s = .refused r → step s = .refused r)

/-- What a step adds around `exec`: the divider of the machine moves on unless it stopped, the turn passes to
the next machine or, after the last, to the host at the next boundary; all else is as `exec` left it. -/
def Obligations.EndOfPulsePassesTheTurn : Prop :=
  ∀ t : State,
    (∀ j : Fin 4, j ≠ t.active → t.endPulse.sm j = t.sm j) ∧
    (t.cur.halted = true → t.endPulse.sm t.active = t.cur) ∧
    (t.cur.halted = false →
      t.endPulse.sm t.active =
        { t.cur with
          nextEn := t.cur.nextEn + t.cur.divPeriod +
            (if 256 ≤ t.cur.divAcc.toNat + t.cur.divFrac.toNat then 1 else 0)
          divAcc := t.cur.divAcc + t.cur.divFrac }) ∧
    t.endPulse.imem = t.imem ∧ t.endPulse.pinOut = t.pinOut ∧ t.endPulse.pinOe = t.pinOe ∧
    t.endPulse.faults = t.faults ∧ t.endPulse.refused = t.refused ∧ t.endPulse.hostq = t.hostq ∧
    t.endPulse.results = t.results ∧ t.endPulse.nCh = t.nCh ∧
    (t.active = 3 →
      t.endPulse.time = t.time + 1 ∧ t.endPulse.boundary = true ∧ t.endPulse.active = 0) ∧
    (t.active ≠ 3 →
      t.endPulse.time = t.time ∧ t.endPulse.boundary = t.boundary ∧
      t.endPulse.active = t.active + 1 ∧ t.endPulse.pinPipe = t.pinPipe ∧
      t.endPulse.wireOut = t.wireOut ∧ t.endPulse.wireOe = t.wireOe)

/-- R132: a delay cycle counts DELAY down and does nothing else. -/
def Obligations.DelayCycleOnlyCountsDown : Prop :=
  ∀ s : State, s.boundary = false → s.due s.active = true → s.cur.delay ≠ 0 →
    step s = .next (s.setCur { s.cur with delay := s.cur.delay - 1 }).endPulse

/-- R72, R139, R302: an instruction cycle at an unloaded slot records `FetchUnloaded` with the machine and its
PC, and has no other effect. -/
def Obligations.UnloadedSlotFaults : Prop :=
  ∀ s : State, s.boundary = false → s.due s.active = true → s.cur.delay = 0 →
    Memory.read s.imem s.cur.pc.toNat = none →
    ∃ t, s.Faulted t (.fetchUnloaded s.active s.cur.pc) ∧ step s = .next t.endPulse

/-- R28, R130, R283, R302: a machine that is disabled, stopped, a dummy slot, or between its pulses takes no
step: every machine, the pins, the instruction memory and the marks stay as they are. -/
def Obligations.MachineNotDueTakesNoStep : Prop :=
  ∀ s : State, s.boundary = false →
    (s.cur.enabled = false ∨ s.cur.halted = true ∨ s.nCh ≤ s.active.val ∨ s.cur.nextEn ≠ s.time) →
    ∃ t, step s = .next t ∧ t.sms = s.sms ∧ t.imem = s.imem ∧ t.pinOut = s.pinOut ∧
      t.pinOe = s.pinOe ∧ t.faults = s.faults ∧ t.refused = s.refused ∧ t.hostq = s.hostq

/-- R136: the divider's recurrence; with FRAC 0 every interval is INT', else INT' or INT' + 1, and any 256
consecutive intervals sum to exactly `256 * INT' + FRAC`. -/
def Obligations.DividerIntervals : Prop :=
  ∀ m : SM,
    let period := if m.divInt = 0 then 65536 else m.divInt.toNat
    let sum := m.divAcc.toNat + m.divFrac.toNat
    m.tick =
      { m with
        nextEn := m.nextEn + period + (if 256 ≤ sum then 1 else 0)
        divAcc := BitVec.ofNat 8 (sum % 256) } ∧
    (m.divFrac = 0 → m.tick.nextEn = m.nextEn + period) ∧
    (m.tick.nextEn = m.nextEn + period ∨ m.tick.nextEn = m.nextEn + period + 1) ∧
    (SM.tick^[256] m).nextEn = m.nextEn + (256 * period + m.divFrac.toNat)

/-! ## JMP -/

/-- R161: the unconditional JMP is taken, at WRAP_TOP too. -/
def Obligations.JmpAlwaysIsTaken : Prop :=
  ∀ (s : State) (d a : BitVec 5), exec (.jmp d a) s = .next (s.setCur (s.cur.goesTo a d))

/-- R162, R164: `!X` and `!Y` are taken exactly on 0; an unwritten register is the fault `UnwrittenRead`. -/
def Obligations.JmpIfZero : Prop :=
  ∀ (s : State) (d a : BitVec 5),
    (∀ x, s.cur.x = some x →
      exec (.jmpNotX d a) s =
        .next (s.setCur (s.cur.goesTo (if x = 0 then a else s.cur.nextSlot) d))) ∧
    (s.cur.x = none → ∃ t, exec (.jmpNotX d a) s = .next t ∧
      s.Faulted t (.unwrittenRead s.active s.cur.pc (encode (.jmpNotX d a)) .x)) ∧
    (∀ y, s.cur.y = some y →
      exec (.jmpNotY d a) s =
        .next (s.setCur (s.cur.goesTo (if y = 0 then a else s.cur.nextSlot) d))) ∧
    (s.cur.y = none → ∃ t, exec (.jmpNotY d a) s = .next t ∧
      s.Faulted t (.unwrittenRead s.active s.cur.pc (encode (.jmpNotY d a)) .y))

/-- R163: `X--` tests before the decrement and decrements modulo 2^32 whether taken or not; unwritten X is the
fault `UnwrittenRead`. From X = n a loop closed by this JMP, whatever its body, as long as the body keeps X,
runs the body n + 1 times: the jump to the body is taken n times, and the (n+1)-th JMP falls through with
X = 0xFFFFFFFF. -/
def Obligations.JmpXPostDecrement : Prop :=
  ∀ (s : State) (d a : BitVec 5),
    (∀ v, s.cur.x = some v →
      exec (.jmpXDec d a) s =
        .next (s.setCur
          ({ s.cur with x := some (v - 1) }.goesTo (if v = 0 then s.cur.nextSlot else a) d))) ∧
    (s.cur.x = none → ∃ t, exec (.jmpXDec d a) s = .next t ∧
      s.Faulted t (.unwrittenRead s.active s.cur.pc (encode (.jmpXDec d a)) .x)) ∧
    (∀ (body : State → State) (n : Nat), (∀ u, (body u).cur.x = u.cur.x) → n < 2 ^ 32 →
      s.cur.x = some (BitVec.ofNat 32 n) →
      (∀ k, k ≤ n → 0 < k → ∃ t, loopTimes (.jmpXDec d a) body k s = some t ∧
        t.cur.pc = a ∧ t.cur.x = some (BitVec.ofNat 32 (n - k))) ∧
      ∃ u t, loopTimes (.jmpXDec d a) body n s = some u ∧ exec (.jmpXDec d a) (body u) = .next t ∧
        t.cur.pc = (body u).cur.nextSlot ∧ t.cur.x = some 0xFFFFFFFF)

/-- R165: `Y--` tests before the decrement and decrements modulo 2^32 whether taken or not; unwritten Y is the
fault `UnwrittenRead`. From Y = n a loop closed by this JMP, whatever its body, as long as the body keeps Y,
runs the body n + 1 times: the jump to the body is taken n times, and the (n+1)-th JMP falls through with
Y = 0xFFFFFFFF. -/
def Obligations.JmpYPostDecrement : Prop :=
  ∀ (s : State) (d a : BitVec 5),
    (∀ v, s.cur.y = some v →
      exec (.jmpYDec d a) s =
        .next (s.setCur
          ({ s.cur with y := some (v - 1) }.goesTo (if v = 0 then s.cur.nextSlot else a) d))) ∧
    (s.cur.y = none → ∃ t, exec (.jmpYDec d a) s = .next t ∧
      s.Faulted t (.unwrittenRead s.active s.cur.pc (encode (.jmpYDec d a)) .y)) ∧
    (∀ (body : State → State) (n : Nat), (∀ u, (body u).cur.y = u.cur.y) → n < 2 ^ 32 →
      s.cur.y = some (BitVec.ofNat 32 n) →
      (∀ k, k ≤ n → 0 < k → ∃ t, loopTimes (.jmpYDec d a) body k s = some t ∧
        t.cur.pc = a ∧ t.cur.y = some (BitVec.ofNat 32 (n - k))) ∧
      ∃ u t, loopTimes (.jmpYDec d a) body n s = some u ∧ exec (.jmpYDec d a) (body u) = .next t ∧
        t.cur.pc = (body u).cur.nextSlot ∧ t.cur.y = some 0xFFFFFFFF)

/-- R166: `X!=Y` compares all 32 bits; if either register is unwritten it raises `UnwrittenRead` for one that is. -/
def Obligations.JmpIfNotEqual : Prop :=
  ∀ (s : State) (d a : BitVec 5),
    (∀ x y, s.cur.x = some x → s.cur.y = some y →
      exec (.jmpXNeY d a) s =
        .next (s.setCur (s.cur.goesTo (if x = y then s.cur.nextSlot else a) d))) ∧
    (s.cur.x = none ∨ s.cur.y = none → ∃ t r, exec (.jmpXNeY d a) s = .next t ∧
      ((r = RegName.x ∧ s.cur.x = none) ∨ (r = RegName.y ∧ s.cur.y = none)) ∧
      s.Faulted t (.unwrittenRead s.active s.cur.pc (encode (.jmpXNeY d a)) r))

/-- R167: `JMP PIN` is decided by one draw of the level of JMP_PIN, for every value of the draw; the block's
own latches and enables have no part in it. -/
def Obligations.JmpPinTakesADraw : Prop :=
  ∀ (s : State) (d a : BitVec 5),
    exec (.jmpPin d a) s =
      .next (s.setCur
        ({ s.cur with draws := s.cur.draws + 1 }.goesTo
          (if Config.pinRead s.active s.cur.jmpPinIx s.cur.draws = true then a else s.cur.nextSlot) d))

/-- R168: `!OSRE` is taken while OSR_COUNT is below the threshold, faults on nothing and pulls nothing. -/
def Obligations.JmpWhileBitsAreLeft : Prop :=
  ∀ (s : State) (d a : BitVec 5),
    exec (.jmpNotOsre d a) s =
      .next (s.setCur
        (s.cur.goesTo
          (if s.cur.osrCount < (if s.cur.pullThresh = 0 then 32 else s.cur.pullThresh.toNat) then a
           else s.cur.nextSlot) d))

/-! ## SET and NOP -/

/-- R180 to R182: SET PINS writes bit j of the data to the latch of pin `(SET_BASE + j) mod 32` for j below
SET_COUNT, sends the write to the wire with its cycle, and changes no other latch and no enable; SET PINDIRS
does the same to the output enables. -/
def Obligations.SetWritesTheGroup : Prop :=
  ∀ (s : State) (d v : BitVec 5),
    (∃ t, exec (.setPins d v) s = .next t ∧
      t.cur = s.cur.goesTo s.cur.nextSlot d ∧ s.sameElsewhere t ∧ s.sameMarks t ∧ t.pinOe = s.pinOe ∧
      t.pinPipe = s.pinPipe ++ [⟨s.time, false, s.cur.setBase, s.cur.setCount, v⟩] ∧
      (∀ j, j < s.cur.setCount →
        t.latch (BitVec.ofNat 5 (s.cur.setBase.toNat + j)) = v.getLsbD j) ∧
      (∀ p : PinIx, (∀ j, j < s.cur.setCount → p.toNat ≠ (s.cur.setBase.toNat + j) % 32) →
        t.latch p = s.latch p)) ∧
    (∃ t, exec (.setPindirs d v) s = .next t ∧
      t.cur = s.cur.goesTo s.cur.nextSlot d ∧ s.sameElsewhere t ∧ s.sameMarks t ∧ t.pinOut = s.pinOut ∧
      t.pinPipe = s.pinPipe ++ [⟨s.time, true, s.cur.setBase, s.cur.setCount, v⟩] ∧
      (∀ j, j < s.cur.setCount →
        t.enable (BitVec.ofNat 5 (s.cur.setBase.toNat + j)) = v.getLsbD j) ∧
      (∀ p : PinIx, (∀ j, j < s.cur.setCount → p.toNat ≠ (s.cur.setBase.toNat + j) % 32) →
        t.enable p = s.enable p))

/-- R183, R184: SET X and SET Y write the zero-extended data, written or not before. -/
def Obligations.SetScratchRegister : Prop :=
  ∀ (s : State) (d v : BitVec 5),
    exec (.setX d v) s =
      .next (s.setCur ({ s.cur with x := some (BitVec.ofNat 32 v.toNat) }.goesTo s.cur.nextSlot d)) ∧
    exec (.setY d v) s =
      .next (s.setCur ({ s.cur with y := some (BitVec.ofNat 32 v.toNat) }.goesTo s.cur.nextSlot d))

/-- R138, R220: NOP moves PC to the next slot (by the wrap at WRAP_TOP) and loads the delay, nothing else, with
Y unwritten too. -/
def Obligations.NopOnlyMovesOn : Prop :=
  ∀ (s : State) (d : BitVec 5),
    exec (.nop d) s = .next (s.setCur (s.cur.goesTo s.cur.nextSlot d))

/-! ## OUT and PULL -/

/-- R190 to R193: OUT to X, Y and NULL. Under auto-pull with an empty OSR and an empty FIFO it stalls: STALLED and
TXSTALL are set and nothing else changes. With nothing to pull and no value in the OSR it raises
`UnwrittenRead`. Else, after the refill where one is due, it delivers the bits that leave the OSR (the most
significant for a left shift, else the least significant), keeps the rest, counts them up to 32, and refills an
empty OSR from the FIFO under auto-pull. -/
def Obligations.OutFollowsItsRule : Prop :=
  ∀ (s : State) (d count : BitVec 5),
    (∀ i, i ∈ [.outX d count, .outY d count, .outNull d count] →
      (s.cur.wantsWord → s.cur.txf = [] →
        exec i s = .next (s.setCur { s.cur with stalled := true, txstall := true })) ∧
      (¬s.cur.wantsWord → s.cur.osr = none → ∃ t, exec i s = .next t ∧
        s.Faulted t (.unwrittenRead s.active s.cur.pc (encode i) .osr))) ∧
    (∀ (m : SM) (v : Word), s.cur.OutBegins m → m.osr = some v →
      let n := if count = 0 then 32 else count.toNat
      let data : Word := if m.shiftRight then BitVec.ofNat 32 (v.toNat % 2 ^ n)
        else BitVec.ofNat 32 (v.toNat / 2 ^ (32 - n))
      let rest : Word := if m.shiftRight then BitVec.ofNat 32 (v.toNat / 2 ^ n)
        else BitVec.ofNat 32 (v.toNat * 2 ^ n)
      let m1 := { m with osr := some rest, osrCount := min (m.osrCount + n) 32 }
      (∃ m2, { m1 with x := some data }.OutEnds m2 ∧
        exec (.outX d count) s = .next (s.setCur (m2.goesTo s.cur.nextSlot d))) ∧
      (∃ m2, { m1 with y := some data }.OutEnds m2 ∧
        exec (.outY d count) s = .next (s.setCur (m2.goesTo s.cur.nextSlot d))) ∧
      (∃ m2, m1.OutEnds m2 ∧
        exec (.outNull d count) s = .next (s.setCur (m2.goesTo s.cur.nextSlot d))))

/-- R194: PULL with IFE and BLK as given, in its four forms. A full OSR under auto-pull, or IFEMPTY with bits
left, is a no-op; else the oldest word of the FIFO is loaded; from an empty FIFO BLOCK stalls and NOBLOCK
copies X, or faults where X is unwritten. -/
def Obligations.PullFollowsItsTests : Prop :=
  ∀ (s : State) (d : BitVec 5) (ife blk : Bool) (i : Instr),
    i = (if ife then (if blk then .pullIfemptyBlock d else .pullIfemptyNoblock d)
         else (if blk then .pullBlock d else .pullNoblock d)) →
    let noop := (s.cur.autopull = true ∧ s.cur.osrCount = 0) ∨ (ife = true ∧ s.cur.osrCount < s.cur.thr)
    (noop → exec i s = .next (s.setCur (s.cur.goesTo s.cur.nextSlot d))) ∧
    (¬noop → ∀ m, s.cur.Popped m → exec i s = .next (s.setCur (m.goesTo s.cur.nextSlot d))) ∧
    (¬noop → s.cur.txf = [] → blk = true →
      exec i s = .next (s.setCur { s.cur with stalled := true, txstall := true })) ∧
    (¬noop → s.cur.txf = [] → blk = false → ∀ x, s.cur.x = some x →
      exec i s =
        .next (s.setCur ({ s.cur with osr := some x, osrCount := 0 }.goesTo s.cur.nextSlot d))) ∧
    (¬noop → s.cur.txf = [] → blk = false → s.cur.x = none → ∃ t, exec i s = .next t ∧
      s.Faulted t (.unwrittenRead s.active s.cur.pc (encode i) .x))

/-! ## Refused words -/

/-- R112, R113, R185, R221: every refused or reserved word sets the mark REFUSED, with reason RefusedInstr where no
older one stands, and stops its machine, with no other effect. -/
def Obligations.RefusedWordsSetTheMark : Prop :=
  ∀ (i : Instr) (s : State), verdict i ≠ .admitted → ∃ t, exec i s = .next t ∧ s.Refused t

/-! ## Frames -/

/-- R307: what no instruction changes: the other machines, the instruction memory, the clock, the wire, the
host, and of its own machine the configuration, the run bit, the divider and TXOVER. -/
def Obligations.FrameOfEveryInstruction : Prop :=
  ∀ (i : Instr) (s t : State), exec i s = .next t → s.sameElsewhere t ∧ s.cur.sameSettings t.cur

/-- JMP, NOP, SET X and SET Y leave the OSR, its count, the FIFO, the pins, TXSTALL and the refusal mark; only
`X--` and SET X write X, only `Y--` and SET Y write Y, only JMP PIN draws. -/
def Obligations.FrameOfRegisterInstructions : Prop :=
  ∀ (s t : State) (d a : BitVec 5) (i : Instr),
    i ∈ [.jmp d a, .jmpNotX d a, .jmpXDec d a, .jmpNotY d a, .jmpYDec d a, .jmpXNeY d a, .jmpPin d a,
         .jmpNotOsre d a, .nop d, .setX d a, .setY d a] →
    exec i s = .next t →
    s.sameElsewhere t ∧ s.samePins t ∧ s.cur.sameSettings t.cur ∧ t.refused = s.refused ∧
    t.cur.osr = s.cur.osr ∧ t.cur.osrCount = s.cur.osrCount ∧ t.cur.txf = s.cur.txf ∧
    t.cur.txstall = s.cur.txstall ∧
    (i ∉ [.jmpXDec d a, .setX d a] → t.cur.x = s.cur.x) ∧
    (i ∉ [.jmpYDec d a, .setY d a] → t.cur.y = s.cur.y) ∧
    (i ≠ .jmpPin d a → t.cur.draws = s.cur.draws)

/-- OUT and PULL leave the pins and the draws; only OUT X writes X, only OUT Y writes Y. -/
def Obligations.FrameOfShiftRegisterInstructions : Prop :=
  ∀ (s t : State) (d n : BitVec 5) (i : Instr),
    i ∈ [.outX d n, .outY d n, .outNull d n, .pullBlock d, .pullNoblock d, .pullIfemptyBlock d,
         .pullIfemptyNoblock d] →
    exec i s = .next t →
    s.sameElsewhere t ∧ s.samePins t ∧ s.cur.sameSettings t.cur ∧ t.refused = s.refused ∧
    t.cur.draws = s.cur.draws ∧ (i ≠ .outX d n → t.cur.x = s.cur.x) ∧
    (i ≠ .outY d n → t.cur.y = s.cur.y)

/-- SET PINS and SET PINDIRS leave every register of their machine but PC, STALLED and DELAY. -/
def Obligations.FrameOfPinWriters : Prop :=
  ∀ (s t : State) (d v : BitVec 5) (i : Instr), i ∈ [.setPins d v, .setPindirs d v] →
    exec i s = .next t →
    s.sameElsewhere t ∧ s.sameMarks t ∧ s.cur.sameSettings t.cur ∧ t.cur.x = s.cur.x ∧
    t.cur.y = s.cur.y ∧ t.cur.osr = s.cur.osr ∧ t.cur.osrCount = s.cur.osrCount ∧
    t.cur.txf = s.cur.txf ∧ t.cur.txstall = s.cur.txstall ∧ t.cur.draws = s.cur.draws ∧
    t.cur.halted = s.cur.halted

/-- R81, R307: no instruction changes the latch or the enable of a pin outside its machine's SET group. -/
def Obligations.OnlyGroupPinsChange : Prop :=
  ∀ (i : Instr) (s t : State) (p : PinIx), exec i s = .next t → s.cur.inGroup p = false →
    t.latch p = s.latch p ∧ t.enable p = s.enable p

/-- R74, R84: an instruction takes at most the two oldest words from its machine's FIFO, in order, and puts
none into it. -/
def Obligations.WordsLeaveOldestFirst : Prop :=
  ∀ (i : Instr) (s t : State), exec i s = .next t →
    ∃ taken, taken.length ≤ 2 ∧ s.cur.txf = taken ++ t.cur.txf

/-! ## Isolation -/

/-- R143, R284: what an instruction does to its machine and to the pins of its SET group is a function of that
machine and those pins alone: two states that agree on them still agree after it, whatever the other
machines, the host, the marks and the other pins are. -/
def Obligations.InstructionSeesOnlyItsOwnMachine : Prop :=
  ∀ (i : Instr) (s1 s2 t1 t2 : State), s1.active = s2.active → s1.cur = s2.cur →
    (∀ p : PinIx, s1.cur.inGroup p = true → s1.latch p = s2.latch p ∧ s1.enable p = s2.enable p) →
    exec i s1 = .next t1 → exec i s2 = .next t2 →
    t1.cur = t2.cur ∧
    ∀ p : PinIx, s1.cur.inGroup p = true → t1.latch p = t2.latch p ∧ t1.enable p = t2.enable p

/-- R83, R143: the steps of two machines whose SET groups share no pin commute: in either order the machines,
the pins, the instruction memory, the set of faults and the refusal mark come out the same. -/
def Obligations.StepsOfTwoMachinesCommute : Prop :=
  ∀ (s : State) (j k : Fin 4) (i1 i2 : Instr), j ≠ k →
    (∀ p : PinIx, ¬((s.sm j).inGroup p = true ∧ (s.sm k).inGroup p = true)) →
    ∃ a b c e,
      exec i1 { s with active := j } = .next a ∧ exec i2 { a with active := k } = .next b ∧
      exec i2 { s with active := k } = .next c ∧ exec i1 { c with active := j } = .next e ∧
      b.sms = e.sms ∧ b.pinOut = e.pinOut ∧ b.pinOe = e.pinOe ∧ b.imem = e.imem ∧
      b.refused = e.refused ∧ ∀ f, f ∈ b.faults ↔ f ∈ e.faults

/-! ## The whole block -/

/-- R300, R302 to R304: the block has no error state of its own: every step answers a next state. -/
def Obligations.StepNeverStops : Prop :=
  ∀ s : State, ∃ t, step s = .next t

/-- R302, R303: no later step clears a fault, and none clears or changes the refusal mark. -/
def Obligations.MarksAreSticky : Prop :=
  ∀ s t : State, step s = .next t →
    (∀ f ∈ s.faults, f ∈ t.faults) ∧ ∀ r, s.refused = some r → t.refused = some r

/-- R139, R302, R303: a machine stopped by a fault or a refusal stays stopped, and its turns change nothing of
it. -/
def Obligations.StoppedMachineStaysStopped : Prop :=
  ∀ (s t : State) (k : Fin 4), (s.sm k).halted = true → step s = .next t →
    (t.sm k).halted = true ∧ (s.boundary = false → t.sm k = s.sm k)

/-- R34, R90, R327: while any state machine is enabled, no step changes a slot of the instruction memory. -/
def Obligations.ImemFixedWhileEnabled : Prop :=
  ∀ s t : State, step s = .next t → (∃ k : Fin 4, (s.sm k).enabled = true) →
    ∀ a, Memory.read t.imem a = Memory.read s.imem a

/-- R37, R327: no step changes the configuration of a machine that is enabled, and none but the host's moves
its PC while it is disabled. -/
def Obligations.ConfigurationFixedWhileEnabled : Prop :=
  ∀ (s t : State) (k : Fin 4), step s = .next t →
    ((s.sm k).enabled = true →
      (t.sm k).clkdiv = (s.sm k).clkdiv ∧ (t.sm k).execctrl = (s.sm k).execctrl ∧
      (t.sm k).shiftctrl = (s.sm k).shiftctrl ∧ (t.sm k).pinctrl = (s.sm k).pinctrl) ∧
    ((s.sm k).enabled = false → s.boundary = false → t.sm k = s.sm k)

/-- The instruction memory keeps its canonical form (log 1). -/
def Obligations.ImemStaysCanonical : Prop :=
  ∀ s t : State, Memory.wf s.imem → step s = .next t → Memory.wf t.imem

/-- R24, R37, R73: OSR_COUNT stays at most 32, each FIFO within its capacity, and each configuration
admitted. -/
def Obligations.MachinesStayInOrder : Prop :=
  ∀ s t : State, s.smsOk → step s = .next t → t.smsOk

/-- R81, R277: the SET groups of enabled machines stay disjoint, so a pin never has two writers. -/
def Obligations.PinsKeepOneWriter : Prop :=
  ∀ s t : State, s.pinsOwned → step s = .next t → t.pinsOwned

/-- R88, R131: no step passes over a pulse of a machine that runs. -/
def Obligations.NoPulseIsMissed : Prop :=
  ∀ s t : State, s.onSchedule → step s = .next t → t.onSchedule

/-- R33, R135: the wire stays the latches and enables, `L_OUT` cycles late. Of the pin writes on their way, with
those of the step itself behind them, the wire takes the oldest ones in order, none before `L_OUT` cycles have
passed since its own (and, by the invariant, none after); the others stay on their way. -/
def Obligations.WireFollowsTheLatches : Prop :=
  ∀ s t : State, step s = .next t →
    (s.wireInStep → t.wireInStep) ∧
    ∃ shown fresh, s.pinPipe ++ fresh = shown ++ t.pinPipe ∧
      (t.wireOut, t.wireOe) = replay shown (s.wireOut, s.wireOe) ∧
      (∀ e ∈ shown, e.time + Config.lOut ≤ t.time) ∧ ∀ e ∈ fresh, e.time = s.time

/-- The invariants hold right after reset. That the wire is in step there rests on log 11 (the spec does not give
the wire before `L_OUT` cycles), and that OSR_COUNT is at most 32 there on log 15 (R320 leaves it undefined). -/
def Obligations.ResetMeetsTheInvariants : Prop :=
  Memory.wf State.reset.imem ∧ State.reset.smsOk ∧ State.reset.pinsOwned ∧
  State.reset.onSchedule ∧ State.reset.wireInStep ∧ State.reset.clean

/-- R320: the state right after block reset, where the rule gives a value; no machine steps in it. -/
def Obligations.ResetState : Prop :=
  regValue State.reset .ctrl = some 0 ∧ regValue State.reset .fstat = some 0x0F000F00 ∧
  regValue State.reset .fdebug = some 0 ∧ regValue State.reset .flevel = some 0 ∧
  (∀ k : Fin 4,
    regValue State.reset (.clkdiv k) = some 0x00010000 ∧
    regValue State.reset (.execctrl k) = some 0x0001F000 ∧
    regValue State.reset (.shiftctrl k) = some 0x000C0000 ∧
    regValue State.reset (.addr k) = some 0 ∧
    regValue State.reset (.pinctrl k) = some 0x14000000 ∧
    (State.reset.sm k).txf = [] ∧ (State.reset.sm k).pc = 0 ∧ (State.reset.sm k).x = none ∧
    (State.reset.sm k).y = none ∧ (State.reset.sm k).delay = 0 ∧
    (State.reset.sm k).stalled = false ∧ (State.reset.sm k).enabled = false ∧
    State.reset.due k = false) ∧
  (∀ a, Memory.read State.reset.imem a = none) ∧
  (∀ p : PinIx, State.reset.enable p = false ∧ State.reset.latch p = Config.pinLatchStart) ∧
  State.reset.faults = [] ∧ State.reset.refused = none

/-! ## The host's registers -/

/-- R36, R76: an access that is not 32 bits wide, not aligned, or at an offset that is no register's is refused
with no effect; so is a read of a write-only register and a write of a read-only one (log 18). -/
def Obligations.BadAccessIsRefused : Prop :=
  ∀ (s : State) (width off : Nat) (v : Word),
    ((width ≠ 32 ∨ off % 4 ≠ 0 ∨ ∀ r : Reg, off ≠ regOffset r) →
      s.AccessRefused (hostRead s width off) .refusedHostAccess ∧
      s.AccessRefused (hostWrite s width off v) .refusedHostAccess) ∧
    (∀ r : Reg, ((∃ i, r = .txf i) ∨ ∃ a, r = .instrMem a) →
      s.AccessRefused (hostRead s 32 (regOffset r)) .refusedHostAccess) ∧
    (∀ r : Reg, (r = .fstat ∨ r = .flevel ∨ ∃ i, r = .addr i) →
      s.AccessRefused (hostWrite s 32 (regOffset r) v) .refusedHostAccess)

/-- R38: a host read of a readable register returns its current value, written out by `State.Shows`, and changes
nothing but the results (and, at an unloaded slot, the model's own count of draws, log 25). -/
def Obligations.ReadsHaveNoSideEffect : Prop :=
  ∀ (s : State) (r : Reg), (∀ i, r ≠ .txf i) → (∀ a, r ≠ .instrMem a) →
    ∃ v n, hostRead s 32 (regOffset r) =
      { s with results := s.results ++ [.word v], hostDraws := n } ∧ s.Shows v r ∧
      (n = s.hostDraws ∨ ∃ k, r = .instr k)

/-- R40 to R43, R45: every bit of CTRL, FSTAT and FDEBUG, FLEVEL's fields and EXEC_STALLED say what they are
defined to say; the restart bits of CTRL and the reserved and receive bits are constant. FLEVEL's fields hold a
FIFO of at most 15 words. -/
def Obligations.StatusBits : Prop :=
  ∀ (s : State) (k : Fin 4),
    s.ctrl.getLsbD k.val = (s.sm k).enabled ∧ s.ctrl.extractLsb' 4 28 = 0#28 ∧
    s.fstat.getLsbD (24 + k.val) = (s.sm k).txf.isEmpty ∧
    s.fstat.getLsbD (16 + k.val) = decide ((s.sm k).cap ≤ (s.sm k).txf.length) ∧
    s.fstat.extractLsb' 0 16 = 0x0F00#16 ∧ s.fstat.extractLsb' 20 4 = 0#4 ∧
    s.fstat.extractLsb' 28 4 = 0#4 ∧
    s.fdebug.getLsbD (24 + k.val) = (s.sm k).txstall ∧
    s.fdebug.getLsbD (16 + k.val) = (s.sm k).txover ∧ s.fdebug.extractLsb' 0 16 = 0#16 ∧
    s.fdebug.extractLsb' 20 4 = 0#4 ∧ s.fdebug.extractLsb' 28 4 = 0#4 ∧
    ((∀ j : Fin 4, (s.sm j).txf.length < 16) →
      (s.flevel.extractLsb' (8 * k.val) 8).toNat = (s.sm k).txf.length) ∧
    ((s.sm k).execctrlRead).getLsbD 31 = (s.sm k).stalled

/-- R75: a word written to TXFi is the newest of the queue, or is dropped with TXOVER set where it is full. -/
def Obligations.TxfWritePushesOrDrops : Prop :=
  ∀ (s : State) (k : Fin 4) (w : Word),
    ((s.sm k).txf.length < (s.sm k).cap →
      hostWrite s 32 (regOffset (.txf k)) w =
        s.setSm k { s.sm k with txf := (s.sm k).txf ++ [w] }) ∧
    ((s.sm k).cap ≤ (s.sm k).txf.length →
      hostWrite s 32 (regOffset (.txf k)) w = s.setSm k { s.sm k with txover := true })

/-- R37, R42: a 1 written to a bit of FDEBUG clears it, a 0 keeps it, and nothing else changes; a write with a 1
in a reserved bit is refused. Which of the bits 15:0 are reserved is the family's layout (log 19). -/
def Obligations.FdebugWriteOneClears : Prop :=
  ∀ (s : State) (v : Word),
    let good := v.extractLsb' 28 4 = 0#4 ∧ v.extractLsb' 20 4 = 0#4 ∧ v.extractLsb' 12 4 = 0#4 ∧
      v.extractLsb' 4 4 = 0#4
    (good → ∃ t, hostWrite s 32 (regOffset .fdebug) v = t ∧
      (∀ k : Fin 4, t.sm k =
        { s.sm k with
          txstall := (s.sm k).txstall && !v.getLsbD (24 + k.val)
          txover := (s.sm k).txover && !v.getLsbD (16 + k.val) }) ∧
      t = { s with sms := t.sms }) ∧
    (¬good → s.AccessRefused (hostWrite s 32 (regOffset .fdebug) v) .refusedConfig)

/-- R49: SMi_INSTR reads as the word at PC, its upper half 0, a free draw in the lower half where the slot is
unloaded; it takes a write only while the machine is disabled and only of an unconditional JMP with delay
0, which sets PC (and the model's mark of step 2 of the start, where step 1 was done), and refuses any
other. The model's choice, and no rule of R49, which tests bits 15:5 alone: a write with a bit of 31:16 set is
refused too (log 18), and so is the reason recorded for a refused write (log 18). -/
def Obligations.InstrRegister : Prop :=
  ∀ (s : State) (k : Fin 4) (v : Word),
    (∀ w, Memory.read s.imem (s.sm k).pc.toNat = some w →
      hostRead s 32 (regOffset (.instr k)) =
        { s with results := s.results ++ [.word (BitVec.ofNat 32 w.toNat)] }) ∧
    (Memory.read s.imem (s.sm k).pc.toNat = none → ∃ h : Half,
      hostRead s 32 (regOffset (.instr k)) =
        { s with
          results := s.results ++ [.word (BitVec.ofNat 32 h.toNat)]
          hostDraws := s.hostDraws + 1 }) ∧
    ((s.sm k).enabled = false → v.toNat < 32 →
      hostWrite s 32 (regOffset (.instr k)) v =
        s.setSm k { s.sm k with pc := BitVec.ofNat 5 v.toNat, jumped := (s.sm k).restarted }) ∧
    ((s.sm k).enabled = true ∨ 32 ≤ v.toNat →
      s.AccessRefused (hostWrite s 32 (regOffset (.instr k)) v) .refusedHostAccess)

/-- R77, R276, R327: a write of INSTR_MEMa loads slot a and no other while no machine is enabled; with a machine
enabled, or bits above the word, it is refused. -/
def Obligations.ImemWriteLoadsOneSlot : Prop :=
  ∀ (s : State) (a : Fin 32) (v : Word),
    ((∀ k : Fin 4, (s.sm k).enabled = false) → v.toNat < 65536 →
      ∃ t, hostWrite s 32 (regOffset (.instrMem a)) v = t ∧
        Memory.read t.imem a.val = some (BitVec.ofNat 16 v.toNat) ∧
        (∀ b, b ≠ a.val → Memory.read t.imem b = Memory.read s.imem b) ∧
        t = { s with imem := t.imem }) ∧
    ((∃ k : Fin 4, (s.sm k).enabled = true) ∨ 65536 ≤ v.toNat →
      s.AccessRefused (hostWrite s 32 (regOffset (.instrMem a)) v) .refusedHostAccess)

/-- R37, R44, R330: CLKDIV takes a value only while its machine is disabled, with the reserved bits 0 and INT 0
only with FRAC 0; any other write is refused. -/
def Obligations.ClkdivWriteIsChecked : Prop :=
  ∀ (s : State) (k : Fin 4) (v : Word),
    let good := (s.sm k).enabled = false ∧ v.extractLsb' 0 8 = 0#8 ∧
      (v.extractLsb' 16 16 = 0#16 → v.extractLsb' 8 8 = 0#8)
    (good → hostWrite s 32 (regOffset (.clkdiv k)) v = s.setSm k { s.sm k with clkdiv := v }) ∧
    (¬good → s.AccessRefused (hostWrite s 32 (regOffset (.clkdiv k)) v) .refusedConfig)

/-! ## Starting and stopping a machine -/

/-- R323: SM_RESTART of a disabled machine clears DELAY and STALLED, makes X and Y unwritten and the OSR OSR_START,
and changes nothing else (but the model's mark of the start sequence); of an enabled machine it is refused.
R137, R330: CLKDIV_RESTART of a disabled machine has no effect of its own, alone or beside other bits; of an
enabled one it is refused, whatever the other bits (beside a cleared run bit this is the model's choice,
log 17). R37, R40: a write with a bit of the reserved 31:12 set is refused. -/
def Obligations.RestartClearsOnlyItsList : Prop :=
  ∀ (s : State) (k : Fin 4),
    ((s.sm k).enabled = false → ∃ mark,
      writeReg s .ctrl (s.ctrl ||| 1#32 <<< (4 + k.val)) =
        s.setSm k
          { s.sm k with
            delay := 0, stalled := false, x := none, y := none
            osr := Config.osrStart
            osrCount := (match Config.osrStart with | none => 32 | some _ => 0)
            restarted := mark }) ∧
    ((s.sm k).enabled = true → ∃ r,
      s.AccessRefused (writeReg s .ctrl (s.ctrl ||| 1#32 <<< (4 + k.val))) r) ∧
    ((s.sm k).enabled = false →
      writeReg s .ctrl (s.ctrl ||| 1#32 <<< (8 + k.val)) = s ∧
      ∀ v : Word, hostWrite s 32 (regOffset .ctrl) (v ||| 1#32 <<< (8 + k.val)) =
        hostWrite s 32 (regOffset .ctrl) v) ∧
    (∀ v : Word, (s.sm k).enabled = true → v.getLsbD (8 + k.val) = true →
      s.AccessRefused (hostWrite s 32 (regOffset .ctrl) v) .refusedConfig) ∧
    (∀ v : Word, v.extractLsb' 12 20 ≠ 0#20 →
      s.AccessRefused (hostWrite s 32 (regOffset .ctrl) v) .refusedConfig)

/-- R137, R277, R279 step 3: enabling a restarted and jumped machine whose SET group meets no enabled machine's
sets its run bit, draws its first pulse in `t .. t + INT'` and its accumulator, and changes nothing else.
A dummy slot needs an empty SET group (R283). -/
def Obligations.EnableDrawsThePhase : Prop :=
  ∀ (s : State) (k : Fin 4), s.pinsOwned → (s.sm k).enabled = false → (s.sm k).restarted = true →
    (s.sm k).jumped = true → (s.nCh ≤ k.val → (s.sm k).setCount = 0) →
    (∀ j : Fin 4, (s.sm j).enabled = true → ∀ p : PinIx,
      ¬((s.sm j).inGroup p = true ∧ (s.sm k).inGroup p = true)) →
    ∃ e acc n, s.time ≤ e ∧ e ≤ s.time + (s.sm k).divPeriod ∧
      writeReg s .ctrl (s.ctrl ||| 1#32 <<< k.val) =
        s.setSm k { s.sm k with enabled := true, nextEn := e, divAcc := acc, draws := n }

/-- R277, R279, R325: enabling a disabled machine that was not restarted, or not jumped, or whose SET group
shares a pin with an enabled machine's, is refused with no effect; and so is the start with its first two
steps in the wrong order, the forced JMP before the restart. -/
def Obligations.EnableOutOfOrderIsRefused : Prop :=
  ∀ (s : State) (k : Fin 4), (s.sm k).enabled = false →
    ((s.sm k).restarted = false ∨ (s.sm k).jumped = false ∨
      (∃ (j : Fin 4) (p : PinIx), (s.sm j).enabled = true ∧ (s.sm j).inGroup p = true ∧
        (s.sm k).inGroup p = true) →
      s.AccessRefused (writeReg s .ctrl (s.ctrl ||| 1#32 <<< k.val)) .refusedConfig) ∧
    (∀ v : Word, (s.sm k).restarted = false → v.toNat < 32 →
      let jumped := hostWrite s 32 (regOffset (.instr k)) v
      let restarted := writeReg jumped .ctrl (jumped.ctrl ||| 1#32 <<< (4 + k.val))
      (restarted.sm k).restarted = true ∧ (restarted.sm k).pc = BitVec.ofNat 5 v.toNat ∧
      restarted.AccessRefused (writeReg restarted .ctrl (restarted.ctrl ||| 1#32 <<< k.val))
        .refusedConfig)

/-- R144: clearing SM_ENABLE freezes the machine: it keeps everything but its run bit and the marks of its start
sequence, and no other machine changes. -/
def Obligations.DisableFreezes : Prop :=
  ∀ (s : State) (k : Fin 4), (s.sm k).enabled = true →
    ∃ t, writeReg s .ctrl (s.ctrl &&& ~~~(1#32 <<< k.val)) = t ∧
      t = s.setSm k { s.sm k with enabled := false, restarted := false, jumped := false }

/-! ## Submitting -/

/-- R87, R274: a submit that finds the FIFO full returns false and changes no machine; one that finds room is
followed by its write, which, with room still there, appends the word and returns true. -/
def Obligations.SubmitReportsRoom : Prop :=
  ∀ (s : State) (due lag : Nat) (c : Fin 4) (w : Word) (rest : List HostItem), s.boundary = true →
    due ≤ s.time →
    (s.hostq = ⟨due, .submit c w lag⟩ :: rest → (s.sm c).cap ≤ (s.sm c).txf.length →
      step s = .next { s with hostq := rest, results := s.results ++ [.flag false] }) ∧
    (s.hostq = ⟨due, .submit c w lag⟩ :: rest → (s.sm c).txf.length < (s.sm c).cap →
      step s = .next { s with hostq := ⟨s.time + lag, .submitWrite c w⟩ :: rest }) ∧
    (s.hostq = ⟨due, .submitWrite c w⟩ :: rest → (s.sm c).txf.length < (s.sm c).cap →
      ∃ t, step s = .next t ∧ t.hostq = rest ∧ t.results = s.results ++ [.flag true] ∧
        t.sms = (s.setSm c { s.sm c with txf := (s.sm c).txf ++ [w] }).sms)

/-- R275, R286, R304: a blocking submit to a full FIFO holds the host, which keeps the operation and leaves the
boundary; an unchecked one drops the word, sets TXOVER and returns true all the same. With room in the FIFO
either appends the word as the newest, returns true and is done, and nothing else changes. That a blocking
submit writes at the first boundary with room is the model's choice (log 23). -/
def Obligations.BlockingAndUncheckedSubmit : Prop :=
  ∀ (s : State) (due : Nat) (c : Fin 4) (w : Word) (rest : List HostItem), s.boundary = true →
    due ≤ s.time →
    (s.hostq = ⟨due, .submitBlocking c w⟩ :: rest → (s.sm c).cap ≤ (s.sm c).txf.length →
      step s = .next { s with boundary := false, active := 0 }) ∧
    (s.hostq = ⟨due, .submitUnchecked c w⟩ :: rest → (s.sm c).cap ≤ (s.sm c).txf.length →
      step s = .next
        { s.setSm c { s.sm c with txover := true } with
          hostq := rest, results := s.results ++ [.flag true] }) ∧
    (s.hostq = ⟨due, .submitBlocking c w⟩ :: rest ∨ s.hostq = ⟨due, .submitUnchecked c w⟩ :: rest →
      (s.sm c).txf.length < (s.sm c).cap →
      step s = .next
        { s.setSm c { s.sm c with txf := (s.sm c).txf ++ [w] } with
          hostq := rest, results := s.results ++ [.flag true] })

/-- R272, R281: a multi-channel operation over the channels' arguments submits, channel by channel in ascending
order, the zero-extended payload the encoder gives for each, `lag` boundaries apart, each submit's write at the
boundary of its read (both the model's choice, log 23), and then returns the array of results: the item that
ends it makes one array of the last results. Without success reporting the unchecked submit takes the place of
the submit. -/
def Obligations.MultiChannelSubmitsInOrder : Prop :=
  ∀ (s : State) (due : Nat) (rest : List HostItem), s.boundary = true → due ≤ s.time →
    (∀ (lag : Nat) (checked : Bool) (op : MultiOp) (calls : List EncOp),
      s.nCh ≤ 4 → calls.length = s.nCh →
      ((op = .throttleMinimum ∧ ∀ e ∈ calls, e = .throttleMinimum) ∨
        (∃ vs, op = .command vs ∧ calls = vs.map .command) ∨
        (∃ fs, op = .reverse fs ∧ calls = fs.map .reverse) ∨
        (∃ vs, op = .throttleClamp vs ∧ calls = vs.map .throttleClamp)) →
      s.hostq = ⟨due, .multi checked op lag⟩ :: rest →
      ∃ submits, step s = .next { s with hostq := submits ++ ⟨due, .collect s.nCh⟩ :: rest } ∧
        submits.length = s.nCh ∧
        ∀ (c : Fin 4) (e : EncOp), calls[c.val]? = some e →
          submits[c.val]? = some
            ⟨due + lag * c.val,
              if checked then .submit c (BitVec.ofNat 32 (Config.enc e).toNat) 0
              else .submitUnchecked c (BitVec.ofNat 32 (Config.enc e).toNat)⟩) ∧
    (∀ (before : List HostResult) (oks : List Bool), s.results = before ++ oks.map .flag →
      s.hostq = ⟨due, .collect oks.length⟩ :: rest →
      step s = .next { s with hostq := rest, results := before ++ [.flags oks] })

/-! ## The other configuration registers -/

/-- R37, R45, R47, R50: EXECCTRL, SHIFTCTRL and PINCTRL take a value only while their machine is disabled and only
with every field that is reserved or admitted as 0 at 0, SET_COUNT at most 5 and OUT_COUNT at most 32, and
FJOIN_TX unchanged unless the FIFO is empty; any other write is refused. The model's choices: EXECCTRL's bit 31 is
ignored (log 19), and a refused change of FJOIN_TX records RefusedConfig (log 18). -/
def Obligations.OtherConfigurationWritesAreChecked : Prop :=
  ∀ (s : State) (k : Fin 4) (v : Word),
    let execGood := (s.sm k).enabled = false ∧ v.extractLsb' 29 2 = 0#2 ∧ v.extractLsb' 17 2 = 0#2 ∧
      v.extractLsb' 5 2 = 0#2
    let shiftGood := (s.sm k).enabled = false ∧ v.getLsbD 31 = false ∧ v.getLsbD 16 = false ∧
      v.extractLsb' 0 16 = 0#16 ∧ (v.getLsbD 30 = (s.sm k).shiftctrl.getLsbD 30 ∨ (s.sm k).txf = [])
    let pinGood := (s.sm k).enabled = false ∧ v.extractLsb' 29 3 = 0#3 ∧
      (v.extractLsb' 26 3).toNat ≤ 5 ∧ (v.extractLsb' 20 6).toNat ≤ 32
    (execGood → hostWrite s 32 (regOffset (.execctrl k)) v =
      s.setSm k { s.sm k with execctrl := BitVec.ofNat 32 (v.toNat % 2 ^ 31) }) ∧
    (¬execGood → s.AccessRefused (hostWrite s 32 (regOffset (.execctrl k)) v) .refusedConfig) ∧
    (shiftGood → hostWrite s 32 (regOffset (.shiftctrl k)) v = s.setSm k { s.sm k with shiftctrl := v }) ∧
    (¬shiftGood → s.AccessRefused (hostWrite s 32 (regOffset (.shiftctrl k)) v) .refusedConfig) ∧
    (pinGood → hostWrite s 32 (regOffset (.pinctrl k)) v = s.setSm k { s.sm k with pinctrl := v }) ∧
    (¬pinGood → s.AccessRefused (hostWrite s 32 (regOffset (.pinctrl k)) v) .refusedConfig)
end

