-- ==== Sys2Proof/Laws/Decode.lean ====
section
/-! SUPPORT. The fields of an assembled word and of an assembled argument (30_encoding R100), as bits and as
fields: what the encoder puts in, the decoder's field functions take out. -/

namespace Sys2Proof

/-! ## Bits of a word -/

/-- Bit `i` of an assembled word comes from the argument, the delay or the class. -/
theorem getLsbD_assemble (o : BitVec 3) (d : BitVec 5) (a : BitVec 8) (i : Nat) :
    (assemble o d a).getLsbD i =
      if i < 8 then a.getLsbD i else if i < 13 then d.getLsbD (i - 8) else o.getLsbD (i - 13) := by
  show ((o ++ d : BitVec (3 + 5)) ++ a : BitVec (3 + 5 + 8)).getLsbD i = _
  rw [BitVec.getLsbD_append, BitVec.getLsbD_append]
  by_cases h1 : i < 8
  · simp [h1]
  · by_cases h2 : i < 13
    · have : i - 8 < 5 := by omega
      simp [h1, h2, this]
    · have : ¬i - 8 < 5 := by omega
      have e : i - 8 - 5 = i - 13 := by omega
      simp [h1, h2, this, e]

/-- Bit `i` of a selector and a low field. -/
theorem getLsbD_selArg (s : BitVec 3) (l : BitVec 5) (i : Nat) :
    (selArg s l).getLsbD i = if i < 5 then l.getLsbD i else s.getLsbD (i - 5) := by
  show (s ++ l : BitVec (3 + 5)).getLsbD i = _
  rw [BitVec.getLsbD_append]

/-- Bit `i` of a MOV argument. -/
theorem getLsbD_movArg (t : BitVec 3) (op : BitVec 2) (s : BitVec 3) (i : Nat) :
    (movArg t op s).getLsbD i =
      if i < 3 then s.getLsbD i else if i < 5 then op.getLsbD (i - 3) else t.getLsbD (i - 5) := by
  show ((t ++ op : BitVec (3 + 2)) ++ s : BitVec (3 + 2 + 3)).getLsbD i = _
  rw [BitVec.getLsbD_append, BitVec.getLsbD_append]
  by_cases h1 : i < 3
  · simp [h1]
  · by_cases h2 : i < 5
    · have : i - 3 < 2 := by omega
      simp [h1, h2, this]
    · have : ¬i - 3 < 2 := by omega
      have e : i - 3 - 2 = i - 5 := by omega
      simp [h1, h2, this, e]

/-! ## Fields of an assembled word -/

/-- A field of an assembled word is a run of its bits. -/
theorem extractLsb'_assemble_arg (o : BitVec 3) (d : BitVec 5) (a : BitVec 8) (st n : Nat)
    (h : st + n ≤ 8) : (assemble o d a).extractLsb' st n = a.extractLsb' st n := by
  apply BitVec.eq_of_getLsbD_eq
  intro i hi
  have : st + i < 8 := by omega
  rw [BitVec.getLsbD_extractLsb', BitVec.getLsbD_extractLsb', getLsbD_assemble, if_pos this]

@[simp] theorem opcField_assemble (o : BitVec 3) (d : BitVec 5) (a : BitVec 8) :
    opcField (assemble o d a) = o := by
  apply BitVec.eq_of_getLsbD_eq
  intro i hi
  have h1 : ¬13 + i < 8 := by omega
  have h2 : ¬13 + i < 13 := by omega
  have e : 13 + i - 13 = i := by omega
  rw [opcField, BitVec.getLsbD_extractLsb', getLsbD_assemble, if_neg h1, if_neg h2, e]
  simp [hi]

@[simp] theorem delayField_assemble (o : BitVec 3) (d : BitVec 5) (a : BitVec 8) :
    delayField (assemble o d a) = d := by
  apply BitVec.eq_of_getLsbD_eq
  intro i hi
  have h1 : ¬8 + i < 8 := by omega
  have h2 : 8 + i < 13 := by omega
  have e : 8 + i - 8 = i := by omega
  rw [delayField, BitVec.getLsbD_extractLsb', getLsbD_assemble, if_neg h1, if_pos h2, e]
  simp [hi]

@[simp] theorem argField_assemble (o : BitVec 3) (d : BitVec 5) (a : BitVec 8) :
    argField (assemble o d a) = a := by
  rw [argField, extractLsb'_assemble_arg _ _ _ _ _ (by omega)]
  exact BitVec.extractLsb'_eq_self

@[simp] theorem selField_assemble (o : BitVec 3) (d : BitVec 5) (s : BitVec 3) (l : BitVec 5) :
    selField (assemble o d (selArg s l)) = s := by
  rw [selField, extractLsb'_assemble_arg _ _ _ _ _ (by omega)]
  apply BitVec.eq_of_getLsbD_eq
  intro i hi
  have h1 : ¬5 + i < 5 := by omega
  have e : 5 + i - 5 = i := by omega
  rw [BitVec.getLsbD_extractLsb', getLsbD_selArg, if_neg h1, e]
  simp [hi]

@[simp] theorem lowField_assemble (o : BitVec 3) (d : BitVec 5) (s : BitVec 3) (l : BitVec 5) :
    lowField (assemble o d (selArg s l)) = l := by
  rw [lowField, extractLsb'_assemble_arg _ _ _ _ _ (by omega)]
  apply BitVec.eq_of_getLsbD_eq
  intro i hi
  have h1 : 0 + i < 5 := by omega
  rw [BitVec.getLsbD_extractLsb', getLsbD_selArg, if_pos h1]
  simp [hi]

/-! ## Fields of a MOV word -/

@[simp] theorem selField_assemble_movArg (o : BitVec 3) (d : BitVec 5) (t : BitVec 3) (op : BitVec 2)
    (s : BitVec 3) : selField (assemble o d (movArg t op s)) = t := by
  rw [selField, extractLsb'_assemble_arg _ _ _ _ _ (by omega)]
  apply BitVec.eq_of_getLsbD_eq
  intro i hi
  have h1 : ¬5 + i < 3 := by omega
  have h2 : ¬5 + i < 5 := by omega
  have e : 5 + i - 5 = i := by omega
  rw [BitVec.getLsbD_extractLsb', getLsbD_movArg, if_neg h1, if_neg h2, e]
  simp [hi]

@[simp] theorem movOp_assemble (o : BitVec 3) (d : BitVec 5) (t : BitVec 3) (op : BitVec 2)
    (s : BitVec 3) : (assemble o d (movArg t op s)).extractLsb' 3 2 = op := by
  rw [extractLsb'_assemble_arg _ _ _ _ _ (by omega)]
  apply BitVec.eq_of_getLsbD_eq
  intro i hi
  have h1 : ¬3 + i < 3 := by omega
  have h2 : 3 + i < 5 := by omega
  have e : 3 + i - 3 = i := by omega
  rw [BitVec.getLsbD_extractLsb', getLsbD_movArg, if_neg h1, if_pos h2, e]
  simp [hi]

@[simp] theorem movSrc_assemble (o : BitVec 3) (d : BitVec 5) (t : BitVec 3) (op : BitVec 2)
    (s : BitVec 3) : (assemble o d (movArg t op s)).extractLsb' 0 3 = s := by
  rw [extractLsb'_assemble_arg _ _ _ _ _ (by omega)]
  apply BitVec.eq_of_getLsbD_eq
  intro i hi
  have h1 : 0 + i < 3 := by omega
  rw [BitVec.getLsbD_extractLsb', getLsbD_movArg, if_pos h1]
  simp [hi]

/-! ## Every word is assembled from its fields -/

/-- A word is its class, its delay and its argument. -/
theorem assemble_fields (w : Half) : assemble (opcField w) (delayField w) (argField w) = w := by
  apply BitVec.eq_of_getLsbD_eq
  intro i hi
  rw [getLsbD_assemble]
  split
  · rw [argField, BitVec.getLsbD_extractLsb']
    have : i < 8 := by assumption
    simp [this]
  · split
    · rw [delayField, BitVec.getLsbD_extractLsb']
      have h1 : i - 8 < 5 := by omega
      have e : 8 + (i - 8) = i := by omega
      simp [h1, e]
    · rw [opcField, BitVec.getLsbD_extractLsb']
      have h1 : i - 13 < 3 := by omega
      have e : 13 + (i - 13) = i := by omega
      simp [h1, e]

/-- The argument of a word is its selector and its low field. -/
theorem selArg_fields (w : Half) : selArg (selField w) (lowField w) = argField w := by
  apply BitVec.eq_of_getLsbD_eq
  intro i hi
  rw [getLsbD_selArg, argField, BitVec.getLsbD_extractLsb']
  split
  · rw [lowField, BitVec.getLsbD_extractLsb']
    have : i < 5 := by assumption
    simp [this, hi]
  · rw [selField, BitVec.getLsbD_extractLsb']
    have h1 : i - 5 < 3 := by omega
    have e : 5 + (i - 5) = i := by omega
    simp [h1, e, hi]

/-- The argument of a MOV word is its three fields. -/
theorem movArg_fields (w : Half) :
    movArg (selField w) (w.extractLsb' 3 2) (w.extractLsb' 0 3) = argField w := by
  apply BitVec.eq_of_getLsbD_eq
  intro i hi
  rw [getLsbD_movArg, argField, BitVec.getLsbD_extractLsb']
  split
  · rw [BitVec.getLsbD_extractLsb']
    have : i < 3 := by assumption
    simp [this, hi]
  · split
    · rw [BitVec.getLsbD_extractLsb']
      have h1 : i - 3 < 2 := by omega
      have e : 3 + (i - 3) = i := by omega
      simp [h1, e, hi]
    · rw [selField, BitVec.getLsbD_extractLsb']
      have h1 : i - 5 < 3 := by omega
      have e : 5 + (i - 5) = i := by omega
      simp [h1, e, hi]

end Sys2Proof
end

