-- ==== Sys2Proof/Laws/Memory.lean ====
section
/-! SUPPORT. The laws of the instruction memory: reading after a write, and the canonical form, which every
write keeps and the memory after reset has. -/

namespace Sys2Proof.Machine

/-- The written slot reads as the written word. -/
@[simp] theorem Memory.read_write_self (m : Memory) (a : Nat) (v : Half) :
    Memory.read (Memory.write m a v) a = some v := by
  induction m with
  | nil => simp [Memory.write, Memory.read]
  | cons c m ih =>
    obtain ⟨b, w⟩ := c
    simp only [Memory.write]
    split
    · simp [Memory.read]
    · split
      · simp [Memory.read]
      · rename_i hne
        simp [Memory.read, hne, ih]

/-- Every other slot reads as before. -/
theorem Memory.read_write_of_ne (m : Memory) {a b : Nat} (v : Half) (h : b ≠ a) :
    Memory.read (Memory.write m a v) b = Memory.read m b := by
  induction m with
  | nil => simp [Memory.write, Memory.read, h]
  | cons c m ih =>
    obtain ⟨x, w⟩ := c
    simp only [Memory.write]
    split
    · simp [Memory.read, h]
    · split
      · subst_vars; simp [Memory.read, h]
      · simp [Memory.read, ih]

/-- The slots listed after a write: the written one and those listed before. -/
theorem Memory.mem_write (m : Memory) (a : Nat) (v : Half) {c : Nat × Half}
    (h : c ∈ Memory.write m a v) : c.1 = a ∨ c ∈ m := by
  induction m with
  | nil => simp only [Memory.write, List.mem_singleton] at h; simp [h]
  | cons e m ih =>
    obtain ⟨x, w⟩ := e
    simp only [Memory.write] at h
    split at h
    · simp only [List.mem_cons] at h ⊢
      rcases h with rfl | h
      · exact .inl rfl
      · exact .inr h
    · split at h
      · simp only [List.mem_cons] at h ⊢
        rcases h with rfl | h
        · exact .inl rfl
        · exact .inr (.inr h)
      · simp only [List.mem_cons] at h ⊢
        rcases h with rfl | h
        · exact .inr (.inl rfl)
        · rcases ih h with h | h
          · exact .inl h
          · exact .inr (.inr h)

/-- A write of one of the 32 slots keeps the canonical form. -/
theorem Memory.wf_write {m : Memory} {a : Nat} (v : Half) (ha : a < 32) (h : Memory.wf m) :
    Memory.wf (Memory.write m a v) := by
  refine ⟨?_, fun c hc => ?_⟩
  · have hp := h.1
    clear h
    induction m with
    | nil => simp [Memory.write]
    | cons e m ih =>
      obtain ⟨x, w⟩ := e
      simp only [List.map_cons, List.pairwise_cons] at hp
      simp only [Memory.write]
      split
      · rename_i hlt
        simp only [List.map_cons, List.pairwise_cons, List.mem_cons]
        refine ⟨?_, hp⟩
        rintro y (rfl | hy)
        · exact hlt
        · exact Nat.lt_trans hlt (hp.1 y hy)
      · split
        · subst_vars
          simpa only [List.map_cons, List.pairwise_cons] using hp
        · rename_i h1 h2
          simp only [List.map_cons, List.pairwise_cons]
          refine ⟨fun y hy => ?_, ih hp.2⟩
          obtain ⟨c, hc, rfl⟩ := List.mem_map.1 hy
          rcases Memory.mem_write m a v hc with h | h
          · omega
          · exact hp.1 _ (List.mem_map_of_mem h)
  · rcases Memory.mem_write m a v hc with h' | h'
    · omega
    · exact h.2 c h'

/-- Memories in canonical form that read alike at every slot are the same data. -/
theorem Memory.eq_of_read {m m' : Memory} (h : Memory.wf m) (h' : Memory.wf m')
    (heq : ∀ a, Memory.read m a = Memory.read m' a) : m = m' := by
  have none_of_lt : ∀ {n : Memory} {a : Nat}, (∀ y ∈ n.map Prod.fst, a < y) → Memory.read n a = none := by
    intro n a hn
    induction n with
    | nil => rfl
    | cons c n ih =>
      have h1 : a < c.1 := hn c.1 (by simp)
      have h2 : Memory.read n a = none := ih fun y hy => hn y (by simp only [List.map_cons, List.mem_cons]; exact .inr hy)
      simp [Memory.read, Nat.ne_of_lt h1, h2]
  have hp := h.1; have hp' := h'.1
  clear h h'
  induction m generalizing m' with
  | nil =>
    cases m' with
    | nil => rfl
    | cons c m' => have := heq c.1; simp [Memory.read] at this
  | cons c m ih =>
    cases m' with
    | nil => have := heq c.1; simp [Memory.read] at this
    | cons c' m' =>
      simp only [List.map_cons, List.pairwise_cons] at hp hp'
      have key : c.1 = c'.1 := by
        rcases Nat.lt_trichotomy c.1 c'.1 with hlt | he | hlt
        · have e := heq c.1
          have : Memory.read m' c.1 = none := none_of_lt fun y hy => Nat.lt_trans hlt (hp'.1 y hy)
          simp [Memory.read, Nat.ne_of_lt hlt, this] at e
        · exact he
        · have e := heq c'.1
          have : Memory.read m c'.1 = none := none_of_lt fun y hy => Nat.lt_trans hlt (hp.1 y hy)
          simp [Memory.read, Nat.ne_of_lt hlt, this] at e
      have hw : c.2 = c'.2 := by have e := heq c.1; simpa [Memory.read, key] using e
      have tail : m = m' := by
        refine ih (fun a => ?_) hp.2 hp'.2
        by_cases ha : a = c.1
        · have h1 : Memory.read m a = none := none_of_lt fun y hy => ha ▸ hp.1 y hy
          have h2 : Memory.read m' a = none := none_of_lt fun y hy => (ha.trans key) ▸ hp'.1 y hy
          rw [h1, h2]
        · have e := heq a
          have ha' : a ≠ c'.1 := key ▸ ha
          simpa [Memory.read, ha, ha'] using e
      rw [tail, Prod.ext key hw]

/-- Nothing is loaded in the empty memory. -/
@[simp] theorem Memory.read_nil (a : Nat) : Memory.read [] a = none := rfl

/-- The instruction memory right after reset is in canonical form. -/
theorem Memory.wf_reset : Memory.wf State.reset.imem := ⟨List.Pairwise.nil, by intro c hc; cases hc⟩

end Sys2Proof.Machine
end

