-- ==== Sys2Proof/Laws/State.lean ====
section
/-! SUPPORT. One lemma for each field of the state under each named update, all by rfl, so that no later
proof unfolds a record update. -/

namespace Sys2Proof.Machine

/-! ## The four state machines -/

@[simp] theorem State.sm_setSm_same (s : State) (k : Fin 4) (m : SM) : (s.setSm k m).sm k = m := by
  simp [State.sm, State.setSm]

@[simp] theorem State.sm_setSm_ne (s : State) (m : SM) {j k : Fin 4} (h : j ≠ k) :
    (s.setSm k m).sm j = s.sm j := by
  have : k.val ≠ j.val := fun e => h (Fin.ext e.symm)
  simp [State.sm, State.setSm, Vector.getElem_set_ne _ _ this]

/-- Machine `j` after a write of machine `k`. -/
theorem State.sm_setSm (s : State) (j k : Fin 4) (m : SM) :
    (s.setSm k m).sm j = if j = k then m else s.sm j := by
  split
  · subst j; simp
  · simp [*]

@[simp] theorem State.cur_setCur (s : State) (m : SM) : (s.setCur m).cur = m :=
  State.sm_setSm_same s s.active m

@[simp] theorem State.sm_setCur_ne (s : State) (m : SM) {j : Fin 4} (h : j ≠ s.active) :
    (s.setCur m).sm j = s.sm j :=
  State.sm_setSm_ne s m h

@[simp] theorem State.sm_active (s : State) : s.sm s.active = s.cur := rfl

/-- Machine `j` after a write of the executing machine. -/
theorem State.sm_setCur (s : State) (j : Fin 4) (m : SM) :
    (s.setCur m).sm j = if j = s.active then m else s.sm j :=
  State.sm_setSm s j s.active m

/-! ## setSm -/

@[simp] theorem State.setSm_imem (s : State) (k : Fin 4) (m : SM) :
    (s.setSm k m).imem = s.imem := rfl

@[simp] theorem State.setSm_pinOut (s : State) (k : Fin 4) (m : SM) :
    (s.setSm k m).pinOut = s.pinOut := rfl

@[simp] theorem State.setSm_pinOe (s : State) (k : Fin 4) (m : SM) :
    (s.setSm k m).pinOe = s.pinOe := rfl

@[simp] theorem State.setSm_wireOut (s : State) (k : Fin 4) (m : SM) :
    (s.setSm k m).wireOut = s.wireOut := rfl

@[simp] theorem State.setSm_wireOe (s : State) (k : Fin 4) (m : SM) :
    (s.setSm k m).wireOe = s.wireOe := rfl

@[simp] theorem State.setSm_pinPipe (s : State) (k : Fin 4) (m : SM) :
    (s.setSm k m).pinPipe = s.pinPipe := rfl

@[simp] theorem State.setSm_faults (s : State) (k : Fin 4) (m : SM) :
    (s.setSm k m).faults = s.faults := rfl

@[simp] theorem State.setSm_refused (s : State) (k : Fin 4) (m : SM) :
    (s.setSm k m).refused = s.refused := rfl

@[simp] theorem State.setSm_time (s : State) (k : Fin 4) (m : SM) :
    (s.setSm k m).time = s.time := rfl

@[simp] theorem State.setSm_boundary (s : State) (k : Fin 4) (m : SM) :
    (s.setSm k m).boundary = s.boundary := rfl

@[simp] theorem State.setSm_active (s : State) (k : Fin 4) (m : SM) :
    (s.setSm k m).active = s.active := rfl

@[simp] theorem State.setSm_nCh (s : State) (k : Fin 4) (m : SM) :
    (s.setSm k m).nCh = s.nCh := rfl

@[simp] theorem State.setSm_hostq (s : State) (k : Fin 4) (m : SM) :
    (s.setSm k m).hostq = s.hostq := rfl

@[simp] theorem State.setSm_results (s : State) (k : Fin 4) (m : SM) :
    (s.setSm k m).results = s.results := rfl

@[simp] theorem State.setSm_hostDraws (s : State) (k : Fin 4) (m : SM) :
    (s.setSm k m).hostDraws = s.hostDraws := rfl

/-! ## setCur -/

@[simp] theorem State.setCur_imem (s : State) (m : SM) :
    (s.setCur m).imem = s.imem := rfl

@[simp] theorem State.setCur_pinOut (s : State) (m : SM) :
    (s.setCur m).pinOut = s.pinOut := rfl

@[simp] theorem State.setCur_pinOe (s : State) (m : SM) :
    (s.setCur m).pinOe = s.pinOe := rfl

@[simp] theorem State.setCur_wireOut (s : State) (m : SM) :
    (s.setCur m).wireOut = s.wireOut := rfl

@[simp] theorem State.setCur_wireOe (s : State) (m : SM) :
    (s.setCur m).wireOe = s.wireOe := rfl

@[simp] theorem State.setCur_pinPipe (s : State) (m : SM) :
    (s.setCur m).pinPipe = s.pinPipe := rfl

@[simp] theorem State.setCur_faults (s : State) (m : SM) :
    (s.setCur m).faults = s.faults := rfl

@[simp] theorem State.setCur_refused (s : State) (m : SM) :
    (s.setCur m).refused = s.refused := rfl

@[simp] theorem State.setCur_time (s : State) (m : SM) :
    (s.setCur m).time = s.time := rfl

@[simp] theorem State.setCur_boundary (s : State) (m : SM) :
    (s.setCur m).boundary = s.boundary := rfl

@[simp] theorem State.setCur_active (s : State) (m : SM) :
    (s.setCur m).active = s.active := rfl

@[simp] theorem State.setCur_nCh (s : State) (m : SM) :
    (s.setCur m).nCh = s.nCh := rfl

@[simp] theorem State.setCur_hostq (s : State) (m : SM) :
    (s.setCur m).hostq = s.hostq := rfl

@[simp] theorem State.setCur_results (s : State) (m : SM) :
    (s.setCur m).results = s.results := rfl

@[simp] theorem State.setCur_hostDraws (s : State) (m : SM) :
    (s.setCur m).hostDraws = s.hostDraws := rfl

/-! ## raise -/

@[simp] theorem State.raise_imem (s : State) (f : Fault) :
    (s.raise f).imem = s.imem := rfl

@[simp] theorem State.raise_pinOut (s : State) (f : Fault) :
    (s.raise f).pinOut = s.pinOut := rfl

@[simp] theorem State.raise_pinOe (s : State) (f : Fault) :
    (s.raise f).pinOe = s.pinOe := rfl

@[simp] theorem State.raise_wireOut (s : State) (f : Fault) :
    (s.raise f).wireOut = s.wireOut := rfl

@[simp] theorem State.raise_wireOe (s : State) (f : Fault) :
    (s.raise f).wireOe = s.wireOe := rfl

@[simp] theorem State.raise_pinPipe (s : State) (f : Fault) :
    (s.raise f).pinPipe = s.pinPipe := rfl

@[simp] theorem State.raise_refused (s : State) (f : Fault) :
    (s.raise f).refused = s.refused := rfl

@[simp] theorem State.raise_time (s : State) (f : Fault) :
    (s.raise f).time = s.time := rfl

@[simp] theorem State.raise_boundary (s : State) (f : Fault) :
    (s.raise f).boundary = s.boundary := rfl

@[simp] theorem State.raise_active (s : State) (f : Fault) :
    (s.raise f).active = s.active := rfl

@[simp] theorem State.raise_nCh (s : State) (f : Fault) :
    (s.raise f).nCh = s.nCh := rfl

@[simp] theorem State.raise_hostq (s : State) (f : Fault) :
    (s.raise f).hostq = s.hostq := rfl

@[simp] theorem State.raise_results (s : State) (f : Fault) :
    (s.raise f).results = s.results := rfl

@[simp] theorem State.raise_hostDraws (s : State) (f : Fault) :
    (s.raise f).hostDraws = s.hostDraws := rfl

/-! ## refuseInstr -/

@[simp] theorem State.refuseInstr_imem (s : State) :
    (s.refuseInstr).imem = s.imem := rfl

@[simp] theorem State.refuseInstr_pinOut (s : State) :
    (s.refuseInstr).pinOut = s.pinOut := rfl

@[simp] theorem State.refuseInstr_pinOe (s : State) :
    (s.refuseInstr).pinOe = s.pinOe := rfl

@[simp] theorem State.refuseInstr_wireOut (s : State) :
    (s.refuseInstr).wireOut = s.wireOut := rfl

@[simp] theorem State.refuseInstr_wireOe (s : State) :
    (s.refuseInstr).wireOe = s.wireOe := rfl

@[simp] theorem State.refuseInstr_pinPipe (s : State) :
    (s.refuseInstr).pinPipe = s.pinPipe := rfl

@[simp] theorem State.refuseInstr_faults (s : State) :
    (s.refuseInstr).faults = s.faults := rfl

@[simp] theorem State.refuseInstr_time (s : State) :
    (s.refuseInstr).time = s.time := rfl

@[simp] theorem State.refuseInstr_boundary (s : State) :
    (s.refuseInstr).boundary = s.boundary := rfl

@[simp] theorem State.refuseInstr_active (s : State) :
    (s.refuseInstr).active = s.active := rfl

@[simp] theorem State.refuseInstr_nCh (s : State) :
    (s.refuseInstr).nCh = s.nCh := rfl

@[simp] theorem State.refuseInstr_hostq (s : State) :
    (s.refuseInstr).hostq = s.hostq := rfl

@[simp] theorem State.refuseInstr_results (s : State) :
    (s.refuseInstr).results = s.results := rfl

@[simp] theorem State.refuseInstr_hostDraws (s : State) :
    (s.refuseInstr).hostDraws = s.hostDraws := rfl

/-! ## refuseHost -/

@[simp] theorem State.refuseHost_sms (s : State) (r : Refusal) :
    (s.refuseHost r).sms = s.sms := rfl

@[simp] theorem State.refuseHost_imem (s : State) (r : Refusal) :
    (s.refuseHost r).imem = s.imem := rfl

@[simp] theorem State.refuseHost_pinOut (s : State) (r : Refusal) :
    (s.refuseHost r).pinOut = s.pinOut := rfl

@[simp] theorem State.refuseHost_pinOe (s : State) (r : Refusal) :
    (s.refuseHost r).pinOe = s.pinOe := rfl

@[simp] theorem State.refuseHost_wireOut (s : State) (r : Refusal) :
    (s.refuseHost r).wireOut = s.wireOut := rfl

@[simp] theorem State.refuseHost_wireOe (s : State) (r : Refusal) :
    (s.refuseHost r).wireOe = s.wireOe := rfl

@[simp] theorem State.refuseHost_pinPipe (s : State) (r : Refusal) :
    (s.refuseHost r).pinPipe = s.pinPipe := rfl

@[simp] theorem State.refuseHost_faults (s : State) (r : Refusal) :
    (s.refuseHost r).faults = s.faults := rfl

@[simp] theorem State.refuseHost_time (s : State) (r : Refusal) :
    (s.refuseHost r).time = s.time := rfl

@[simp] theorem State.refuseHost_boundary (s : State) (r : Refusal) :
    (s.refuseHost r).boundary = s.boundary := rfl

@[simp] theorem State.refuseHost_active (s : State) (r : Refusal) :
    (s.refuseHost r).active = s.active := rfl

@[simp] theorem State.refuseHost_nCh (s : State) (r : Refusal) :
    (s.refuseHost r).nCh = s.nCh := rfl

@[simp] theorem State.refuseHost_hostq (s : State) (r : Refusal) :
    (s.refuseHost r).hostq = s.hostq := rfl

@[simp] theorem State.refuseHost_results (s : State) (r : Refusal) :
    (s.refuseHost r).results = s.results := rfl

@[simp] theorem State.refuseHost_hostDraws (s : State) (r : Refusal) :
    (s.refuseHost r).hostDraws = s.hostDraws := rfl

/-! ## writePins -/

@[simp] theorem State.writePins_sms (s : State) (b : PinIx) (n : Nat) (v : BitVec 5) :
    (s.writePins b n v).sms = s.sms := rfl

@[simp] theorem State.writePins_imem (s : State) (b : PinIx) (n : Nat) (v : BitVec 5) :
    (s.writePins b n v).imem = s.imem := rfl

@[simp] theorem State.writePins_pinOe (s : State) (b : PinIx) (n : Nat) (v : BitVec 5) :
    (s.writePins b n v).pinOe = s.pinOe := rfl

@[simp] theorem State.writePins_wireOut (s : State) (b : PinIx) (n : Nat) (v : BitVec 5) :
    (s.writePins b n v).wireOut = s.wireOut := rfl

@[simp] theorem State.writePins_wireOe (s : State) (b : PinIx) (n : Nat) (v : BitVec 5) :
    (s.writePins b n v).wireOe = s.wireOe := rfl

@[simp] theorem State.writePins_faults (s : State) (b : PinIx) (n : Nat) (v : BitVec 5) :
    (s.writePins b n v).faults = s.faults := rfl

@[simp] theorem State.writePins_refused (s : State) (b : PinIx) (n : Nat) (v : BitVec 5) :
    (s.writePins b n v).refused = s.refused := rfl

@[simp] theorem State.writePins_time (s : State) (b : PinIx) (n : Nat) (v : BitVec 5) :
    (s.writePins b n v).time = s.time := rfl

@[simp] theorem State.writePins_boundary (s : State) (b : PinIx) (n : Nat) (v : BitVec 5) :
    (s.writePins b n v).boundary = s.boundary := rfl

@[simp] theorem State.writePins_active (s : State) (b : PinIx) (n : Nat) (v : BitVec 5) :
    (s.writePins b n v).active = s.active := rfl

@[simp] theorem State.writePins_nCh (s : State) (b : PinIx) (n : Nat) (v : BitVec 5) :
    (s.writePins b n v).nCh = s.nCh := rfl

@[simp] theorem State.writePins_hostq (s : State) (b : PinIx) (n : Nat) (v : BitVec 5) :
    (s.writePins b n v).hostq = s.hostq := rfl

@[simp] theorem State.writePins_results (s : State) (b : PinIx) (n : Nat) (v : BitVec 5) :
    (s.writePins b n v).results = s.results := rfl

@[simp] theorem State.writePins_hostDraws (s : State) (b : PinIx) (n : Nat) (v : BitVec 5) :
    (s.writePins b n v).hostDraws = s.hostDraws := rfl

/-! ## writePinDirs -/

@[simp] theorem State.writePinDirs_sms (s : State) (b : PinIx) (n : Nat) (v : BitVec 5) :
    (s.writePinDirs b n v).sms = s.sms := rfl

@[simp] theorem State.writePinDirs_imem (s : State) (b : PinIx) (n : Nat) (v : BitVec 5) :
    (s.writePinDirs b n v).imem = s.imem := rfl

@[simp] theorem State.writePinDirs_pinOut (s : State) (b : PinIx) (n : Nat) (v : BitVec 5) :
    (s.writePinDirs b n v).pinOut = s.pinOut := rfl

@[simp] theorem State.writePinDirs_wireOut (s : State) (b : PinIx) (n : Nat) (v : BitVec 5) :
    (s.writePinDirs b n v).wireOut = s.wireOut := rfl

@[simp] theorem State.writePinDirs_wireOe (s : State) (b : PinIx) (n : Nat) (v : BitVec 5) :
    (s.writePinDirs b n v).wireOe = s.wireOe := rfl

@[simp] theorem State.writePinDirs_faults (s : State) (b : PinIx) (n : Nat) (v : BitVec 5) :
    (s.writePinDirs b n v).faults = s.faults := rfl

@[simp] theorem State.writePinDirs_refused (s : State) (b : PinIx) (n : Nat) (v : BitVec 5) :
    (s.writePinDirs b n v).refused = s.refused := rfl

@[simp] theorem State.writePinDirs_time (s : State) (b : PinIx) (n : Nat) (v : BitVec 5) :
    (s.writePinDirs b n v).time = s.time := rfl

@[simp] theorem State.writePinDirs_boundary (s : State) (b : PinIx) (n : Nat) (v : BitVec 5) :
    (s.writePinDirs b n v).boundary = s.boundary := rfl

@[simp] theorem State.writePinDirs_active (s : State) (b : PinIx) (n : Nat) (v : BitVec 5) :
    (s.writePinDirs b n v).active = s.active := rfl

@[simp] theorem State.writePinDirs_nCh (s : State) (b : PinIx) (n : Nat) (v : BitVec 5) :
    (s.writePinDirs b n v).nCh = s.nCh := rfl

@[simp] theorem State.writePinDirs_hostq (s : State) (b : PinIx) (n : Nat) (v : BitVec 5) :
    (s.writePinDirs b n v).hostq = s.hostq := rfl

@[simp] theorem State.writePinDirs_results (s : State) (b : PinIx) (n : Nat) (v : BitVec 5) :
    (s.writePinDirs b n v).results = s.results := rfl

@[simp] theorem State.writePinDirs_hostDraws (s : State) (b : PinIx) (n : Nat) (v : BitVec 5) :
    (s.writePinDirs b n v).hostDraws = s.hostDraws := rfl

/-! ## giveResult -/

@[simp] theorem State.giveResult_sms (s : State) (r : HostResult) :
    (s.giveResult r).sms = s.sms := rfl

@[simp] theorem State.giveResult_imem (s : State) (r : HostResult) :
    (s.giveResult r).imem = s.imem := rfl

@[simp] theorem State.giveResult_pinOut (s : State) (r : HostResult) :
    (s.giveResult r).pinOut = s.pinOut := rfl

@[simp] theorem State.giveResult_pinOe (s : State) (r : HostResult) :
    (s.giveResult r).pinOe = s.pinOe := rfl

@[simp] theorem State.giveResult_wireOut (s : State) (r : HostResult) :
    (s.giveResult r).wireOut = s.wireOut := rfl

@[simp] theorem State.giveResult_wireOe (s : State) (r : HostResult) :
    (s.giveResult r).wireOe = s.wireOe := rfl

@[simp] theorem State.giveResult_pinPipe (s : State) (r : HostResult) :
    (s.giveResult r).pinPipe = s.pinPipe := rfl

@[simp] theorem State.giveResult_faults (s : State) (r : HostResult) :
    (s.giveResult r).faults = s.faults := rfl

@[simp] theorem State.giveResult_refused (s : State) (r : HostResult) :
    (s.giveResult r).refused = s.refused := rfl

@[simp] theorem State.giveResult_time (s : State) (r : HostResult) :
    (s.giveResult r).time = s.time := rfl

@[simp] theorem State.giveResult_boundary (s : State) (r : HostResult) :
    (s.giveResult r).boundary = s.boundary := rfl

@[simp] theorem State.giveResult_active (s : State) (r : HostResult) :
    (s.giveResult r).active = s.active := rfl

@[simp] theorem State.giveResult_nCh (s : State) (r : HostResult) :
    (s.giveResult r).nCh = s.nCh := rfl

@[simp] theorem State.giveResult_hostq (s : State) (r : HostResult) :
    (s.giveResult r).hostq = s.hostq := rfl

@[simp] theorem State.giveResult_hostDraws (s : State) (r : HostResult) :
    (s.giveResult r).hostDraws = s.hostDraws := rfl

/-! ## drainWire -/

@[simp] theorem State.drainWire_sms (s : State) (now : Nat) :
    (s.drainWire now).sms = s.sms := rfl

@[simp] theorem State.drainWire_imem (s : State) (now : Nat) :
    (s.drainWire now).imem = s.imem := rfl

@[simp] theorem State.drainWire_pinOut (s : State) (now : Nat) :
    (s.drainWire now).pinOut = s.pinOut := rfl

@[simp] theorem State.drainWire_pinOe (s : State) (now : Nat) :
    (s.drainWire now).pinOe = s.pinOe := rfl

@[simp] theorem State.drainWire_faults (s : State) (now : Nat) :
    (s.drainWire now).faults = s.faults := rfl

@[simp] theorem State.drainWire_refused (s : State) (now : Nat) :
    (s.drainWire now).refused = s.refused := rfl

@[simp] theorem State.drainWire_time (s : State) (now : Nat) :
    (s.drainWire now).time = s.time := rfl

@[simp] theorem State.drainWire_boundary (s : State) (now : Nat) :
    (s.drainWire now).boundary = s.boundary := rfl

@[simp] theorem State.drainWire_active (s : State) (now : Nat) :
    (s.drainWire now).active = s.active := rfl

@[simp] theorem State.drainWire_nCh (s : State) (now : Nat) :
    (s.drainWire now).nCh = s.nCh := rfl

@[simp] theorem State.drainWire_hostq (s : State) (now : Nat) :
    (s.drainWire now).hostq = s.hostq := rfl

@[simp] theorem State.drainWire_results (s : State) (now : Nat) :
    (s.drainWire now).results = s.results := rfl

@[simp] theorem State.drainWire_hostDraws (s : State) (now : Nat) :
    (s.drainWire now).hostDraws = s.hostDraws := rfl

/-! ## endCycle -/

@[simp] theorem State.endCycle_sms (s : State) :
    (s.endCycle).sms = s.sms := rfl

@[simp] theorem State.endCycle_imem (s : State) :
    (s.endCycle).imem = s.imem := rfl

@[simp] theorem State.endCycle_pinOut (s : State) :
    (s.endCycle).pinOut = s.pinOut := rfl

@[simp] theorem State.endCycle_pinOe (s : State) :
    (s.endCycle).pinOe = s.pinOe := rfl

@[simp] theorem State.endCycle_faults (s : State) :
    (s.endCycle).faults = s.faults := rfl

@[simp] theorem State.endCycle_refused (s : State) :
    (s.endCycle).refused = s.refused := rfl

@[simp] theorem State.endCycle_nCh (s : State) :
    (s.endCycle).nCh = s.nCh := rfl

@[simp] theorem State.endCycle_hostq (s : State) :
    (s.endCycle).hostq = s.hostq := rfl

@[simp] theorem State.endCycle_results (s : State) :
    (s.endCycle).results = s.results := rfl

@[simp] theorem State.endCycle_hostDraws (s : State) :
    (s.endCycle).hostDraws = s.hostDraws := rfl

/-! ## leaveBoundary -/

@[simp] theorem State.leaveBoundary_sms (s : State) :
    (s.leaveBoundary).sms = s.sms := rfl

@[simp] theorem State.leaveBoundary_imem (s : State) :
    (s.leaveBoundary).imem = s.imem := rfl

@[simp] theorem State.leaveBoundary_pinOut (s : State) :
    (s.leaveBoundary).pinOut = s.pinOut := rfl

@[simp] theorem State.leaveBoundary_pinOe (s : State) :
    (s.leaveBoundary).pinOe = s.pinOe := rfl

@[simp] theorem State.leaveBoundary_wireOut (s : State) :
    (s.leaveBoundary).wireOut = s.wireOut := rfl

@[simp] theorem State.leaveBoundary_wireOe (s : State) :
    (s.leaveBoundary).wireOe = s.wireOe := rfl

@[simp] theorem State.leaveBoundary_pinPipe (s : State) :
    (s.leaveBoundary).pinPipe = s.pinPipe := rfl

@[simp] theorem State.leaveBoundary_faults (s : State) :
    (s.leaveBoundary).faults = s.faults := rfl

@[simp] theorem State.leaveBoundary_refused (s : State) :
    (s.leaveBoundary).refused = s.refused := rfl

@[simp] theorem State.leaveBoundary_time (s : State) :
    (s.leaveBoundary).time = s.time := rfl

@[simp] theorem State.leaveBoundary_nCh (s : State) :
    (s.leaveBoundary).nCh = s.nCh := rfl

@[simp] theorem State.leaveBoundary_hostq (s : State) :
    (s.leaveBoundary).hostq = s.hostq := rfl

@[simp] theorem State.leaveBoundary_results (s : State) :
    (s.leaveBoundary).results = s.results := rfl

@[simp] theorem State.leaveBoundary_hostDraws (s : State) :
    (s.leaveBoundary).hostDraws = s.hostDraws := rfl

/-! ## collect -/

@[simp] theorem State.collect_sms (s : State) (n : Nat) :
    (s.collect n).sms = s.sms := rfl

@[simp] theorem State.collect_imem (s : State) (n : Nat) :
    (s.collect n).imem = s.imem := rfl

@[simp] theorem State.collect_pinOut (s : State) (n : Nat) :
    (s.collect n).pinOut = s.pinOut := rfl

@[simp] theorem State.collect_pinOe (s : State) (n : Nat) :
    (s.collect n).pinOe = s.pinOe := rfl

@[simp] theorem State.collect_wireOut (s : State) (n : Nat) :
    (s.collect n).wireOut = s.wireOut := rfl

@[simp] theorem State.collect_wireOe (s : State) (n : Nat) :
    (s.collect n).wireOe = s.wireOe := rfl

@[simp] theorem State.collect_pinPipe (s : State) (n : Nat) :
    (s.collect n).pinPipe = s.pinPipe := rfl

@[simp] theorem State.collect_faults (s : State) (n : Nat) :
    (s.collect n).faults = s.faults := rfl

@[simp] theorem State.collect_refused (s : State) (n : Nat) :
    (s.collect n).refused = s.refused := rfl

@[simp] theorem State.collect_time (s : State) (n : Nat) :
    (s.collect n).time = s.time := rfl

@[simp] theorem State.collect_boundary (s : State) (n : Nat) :
    (s.collect n).boundary = s.boundary := rfl

@[simp] theorem State.collect_active (s : State) (n : Nat) :
    (s.collect n).active = s.active := rfl

@[simp] theorem State.collect_nCh (s : State) (n : Nat) :
    (s.collect n).nCh = s.nCh := rfl

@[simp] theorem State.collect_hostq (s : State) (n : Nat) :
    (s.collect n).hostq = s.hostq := rfl

@[simp] theorem State.collect_hostDraws (s : State) (n : Nat) :
    (s.collect n).hostDraws = s.hostDraws := rfl

/-! ## The machines under updates of other fields -/

@[simp] theorem State.refuseHost_sm (s : State) (r : Refusal) (k : Fin 4) :
    (s.refuseHost r).sm k = s.sm k := rfl

@[simp] theorem State.refuseHost_cur (s : State) (r : Refusal) :
    (s.refuseHost r).cur = s.cur := rfl

@[simp] theorem State.writePins_sm (s : State) (b : PinIx) (n : Nat) (v : BitVec 5) (k : Fin 4) :
    (s.writePins b n v).sm k = s.sm k := rfl

@[simp] theorem State.writePins_cur (s : State) (b : PinIx) (n : Nat) (v : BitVec 5) :
    (s.writePins b n v).cur = s.cur := rfl

@[simp] theorem State.writePinDirs_sm (s : State) (b : PinIx) (n : Nat) (v : BitVec 5) (k : Fin 4) :
    (s.writePinDirs b n v).sm k = s.sm k := rfl

@[simp] theorem State.writePinDirs_cur (s : State) (b : PinIx) (n : Nat) (v : BitVec 5) :
    (s.writePinDirs b n v).cur = s.cur := rfl

@[simp] theorem State.giveResult_sm (s : State) (r : HostResult) (k : Fin 4) :
    (s.giveResult r).sm k = s.sm k := rfl

@[simp] theorem State.giveResult_cur (s : State) (r : HostResult) :
    (s.giveResult r).cur = s.cur := rfl

@[simp] theorem State.drainWire_sm (s : State) (now : Nat) (k : Fin 4) :
    (s.drainWire now).sm k = s.sm k := rfl

@[simp] theorem State.drainWire_cur (s : State) (now : Nat) :
    (s.drainWire now).cur = s.cur := rfl

@[simp] theorem State.endCycle_sm (s : State) (k : Fin 4) :
    (s.endCycle).sm k = s.sm k := rfl

@[simp] theorem State.leaveBoundary_sm (s : State) (k : Fin 4) :
    (s.leaveBoundary).sm k = s.sm k := rfl

@[simp] theorem State.collect_sm (s : State) (n : Nat) (k : Fin 4) :
    (s.collect n).sm k = s.sm k := rfl

@[simp] theorem State.collect_cur (s : State) (n : Nat) :
    (s.collect n).cur = s.cur := rfl

@[simp] theorem State.raise_cur (s : State) (f : Fault) :
    (s.raise f).cur = { s.cur with halted := true } :=
  State.cur_setCur s _

@[simp] theorem State.refuseInstr_cur (s : State) :
    s.refuseInstr.cur = { s.cur with halted := true } :=
  State.cur_setCur s _

@[simp] theorem State.raise_sm_ne (s : State) (f : Fault) {j : Fin 4} (h : j ≠ s.active) :
    (s.raise f).sm j = s.sm j :=
  State.sm_setSm_ne s _ h

@[simp] theorem State.refuseInstr_sm_ne (s : State) {j : Fin 4} (h : j ≠ s.active) :
    s.refuseInstr.sm j = s.sm j :=
  State.sm_setSm_ne s _ h

@[simp] theorem State.raise_faults (s : State) (f : Fault) :
    (s.raise f).faults = recordFault s.faults f := rfl

@[simp] theorem State.refuseInstr_refused (s : State) :
    s.refuseInstr.refused = markRefused s.refused .refusedInstr := rfl

@[simp] theorem State.refuseHost_refused (s : State) (r : Refusal) :
    (s.refuseHost r).refused = markRefused s.refused r := rfl

@[simp] theorem State.endCycle_time (s : State) : s.endCycle.time = s.time + 1 := rfl

@[simp] theorem State.endCycle_boundary (s : State) : s.endCycle.boundary = true := rfl

@[simp] theorem State.endCycle_active (s : State) : s.endCycle.active = 0 := rfl

@[simp] theorem State.leaveBoundary_boundary (s : State) : s.leaveBoundary.boundary = false := rfl

@[simp] theorem State.leaveBoundary_active (s : State) : s.leaveBoundary.active = 0 := rfl

/-! ## complete -/

@[simp] theorem SM.complete_x (m : SM) (d : BitVec 5) (g : Option Slot) :
    (m.complete d g).x = m.x := rfl

@[simp] theorem SM.complete_y (m : SM) (d : BitVec 5) (g : Option Slot) :
    (m.complete d g).y = m.y := rfl

@[simp] theorem SM.complete_osr (m : SM) (d : BitVec 5) (g : Option Slot) :
    (m.complete d g).osr = m.osr := rfl

@[simp] theorem SM.complete_osrCount (m : SM) (d : BitVec 5) (g : Option Slot) :
    (m.complete d g).osrCount = m.osrCount := rfl

@[simp] theorem SM.complete_divAcc (m : SM) (d : BitVec 5) (g : Option Slot) :
    (m.complete d g).divAcc = m.divAcc := rfl

@[simp] theorem SM.complete_nextEn (m : SM) (d : BitVec 5) (g : Option Slot) :
    (m.complete d g).nextEn = m.nextEn := rfl

@[simp] theorem SM.complete_enabled (m : SM) (d : BitVec 5) (g : Option Slot) :
    (m.complete d g).enabled = m.enabled := rfl

@[simp] theorem SM.complete_txf (m : SM) (d : BitVec 5) (g : Option Slot) :
    (m.complete d g).txf = m.txf := rfl

@[simp] theorem SM.complete_clkdiv (m : SM) (d : BitVec 5) (g : Option Slot) :
    (m.complete d g).clkdiv = m.clkdiv := rfl

@[simp] theorem SM.complete_execctrl (m : SM) (d : BitVec 5) (g : Option Slot) :
    (m.complete d g).execctrl = m.execctrl := rfl

@[simp] theorem SM.complete_shiftctrl (m : SM) (d : BitVec 5) (g : Option Slot) :
    (m.complete d g).shiftctrl = m.shiftctrl := rfl

@[simp] theorem SM.complete_pinctrl (m : SM) (d : BitVec 5) (g : Option Slot) :
    (m.complete d g).pinctrl = m.pinctrl := rfl

@[simp] theorem SM.complete_txstall (m : SM) (d : BitVec 5) (g : Option Slot) :
    (m.complete d g).txstall = m.txstall := rfl

@[simp] theorem SM.complete_txover (m : SM) (d : BitVec 5) (g : Option Slot) :
    (m.complete d g).txover = m.txover := rfl

@[simp] theorem SM.complete_restarted (m : SM) (d : BitVec 5) (g : Option Slot) :
    (m.complete d g).restarted = m.restarted := rfl

@[simp] theorem SM.complete_jumped (m : SM) (d : BitVec 5) (g : Option Slot) :
    (m.complete d g).jumped = m.jumped := rfl

@[simp] theorem SM.complete_halted (m : SM) (d : BitVec 5) (g : Option Slot) :
    (m.complete d g).halted = m.halted := rfl

@[simp] theorem SM.complete_draws (m : SM) (d : BitVec 5) (g : Option Slot) :
    (m.complete d g).draws = m.draws := rfl

@[simp] theorem SM.complete_stalled (m : SM) (d : BitVec 5) (g : Option Slot) :
    (m.complete d g).stalled = false := rfl

@[simp] theorem SM.complete_pc (m : SM) (d : BitVec 5) (g : Option Slot) :
    (m.complete d g).pc = g.getD m.succ := rfl

@[simp] theorem SM.complete_delay (m : SM) (d : BitVec 5) (g : Option Slot) :
    (m.complete d g).delay = d := rfl

/-! ## stall -/

@[simp] theorem SM.stall_pc (m : SM) :
    (m.stall).pc = m.pc := rfl

@[simp] theorem SM.stall_x (m : SM) :
    (m.stall).x = m.x := rfl

@[simp] theorem SM.stall_y (m : SM) :
    (m.stall).y = m.y := rfl

@[simp] theorem SM.stall_osr (m : SM) :
    (m.stall).osr = m.osr := rfl

@[simp] theorem SM.stall_osrCount (m : SM) :
    (m.stall).osrCount = m.osrCount := rfl

@[simp] theorem SM.stall_delay (m : SM) :
    (m.stall).delay = m.delay := rfl

@[simp] theorem SM.stall_divAcc (m : SM) :
    (m.stall).divAcc = m.divAcc := rfl

@[simp] theorem SM.stall_nextEn (m : SM) :
    (m.stall).nextEn = m.nextEn := rfl

@[simp] theorem SM.stall_enabled (m : SM) :
    (m.stall).enabled = m.enabled := rfl

@[simp] theorem SM.stall_txf (m : SM) :
    (m.stall).txf = m.txf := rfl

@[simp] theorem SM.stall_clkdiv (m : SM) :
    (m.stall).clkdiv = m.clkdiv := rfl

@[simp] theorem SM.stall_execctrl (m : SM) :
    (m.stall).execctrl = m.execctrl := rfl

@[simp] theorem SM.stall_shiftctrl (m : SM) :
    (m.stall).shiftctrl = m.shiftctrl := rfl

@[simp] theorem SM.stall_pinctrl (m : SM) :
    (m.stall).pinctrl = m.pinctrl := rfl

@[simp] theorem SM.stall_txover (m : SM) :
    (m.stall).txover = m.txover := rfl

@[simp] theorem SM.stall_restarted (m : SM) :
    (m.stall).restarted = m.restarted := rfl

@[simp] theorem SM.stall_jumped (m : SM) :
    (m.stall).jumped = m.jumped := rfl

@[simp] theorem SM.stall_halted (m : SM) :
    (m.stall).halted = m.halted := rfl

@[simp] theorem SM.stall_draws (m : SM) :
    (m.stall).draws = m.draws := rfl

/-! ## tick -/

@[simp] theorem SM.tick_pc (m : SM) :
    (m.tick).pc = m.pc := rfl

@[simp] theorem SM.tick_x (m : SM) :
    (m.tick).x = m.x := rfl

@[simp] theorem SM.tick_y (m : SM) :
    (m.tick).y = m.y := rfl

@[simp] theorem SM.tick_osr (m : SM) :
    (m.tick).osr = m.osr := rfl

@[simp] theorem SM.tick_osrCount (m : SM) :
    (m.tick).osrCount = m.osrCount := rfl

@[simp] theorem SM.tick_delay (m : SM) :
    (m.tick).delay = m.delay := rfl

@[simp] theorem SM.tick_stalled (m : SM) :
    (m.tick).stalled = m.stalled := rfl

@[simp] theorem SM.tick_enabled (m : SM) :
    (m.tick).enabled = m.enabled := rfl

@[simp] theorem SM.tick_txf (m : SM) :
    (m.tick).txf = m.txf := rfl

@[simp] theorem SM.tick_clkdiv (m : SM) :
    (m.tick).clkdiv = m.clkdiv := rfl

@[simp] theorem SM.tick_execctrl (m : SM) :
    (m.tick).execctrl = m.execctrl := rfl

@[simp] theorem SM.tick_shiftctrl (m : SM) :
    (m.tick).shiftctrl = m.shiftctrl := rfl

@[simp] theorem SM.tick_pinctrl (m : SM) :
    (m.tick).pinctrl = m.pinctrl := rfl

@[simp] theorem SM.tick_txstall (m : SM) :
    (m.tick).txstall = m.txstall := rfl

@[simp] theorem SM.tick_txover (m : SM) :
    (m.tick).txover = m.txover := rfl

@[simp] theorem SM.tick_restarted (m : SM) :
    (m.tick).restarted = m.restarted := rfl

@[simp] theorem SM.tick_jumped (m : SM) :
    (m.tick).jumped = m.jumped := rfl

@[simp] theorem SM.tick_halted (m : SM) :
    (m.tick).halted = m.halted := rfl

@[simp] theorem SM.tick_draws (m : SM) :
    (m.tick).draws = m.draws := rfl

/-! ## delayCycle -/

@[simp] theorem SM.delayCycle_pc (m : SM) :
    (m.delayCycle).pc = m.pc := rfl

@[simp] theorem SM.delayCycle_x (m : SM) :
    (m.delayCycle).x = m.x := rfl

@[simp] theorem SM.delayCycle_y (m : SM) :
    (m.delayCycle).y = m.y := rfl

@[simp] theorem SM.delayCycle_osr (m : SM) :
    (m.delayCycle).osr = m.osr := rfl

@[simp] theorem SM.delayCycle_osrCount (m : SM) :
    (m.delayCycle).osrCount = m.osrCount := rfl

@[simp] theorem SM.delayCycle_stalled (m : SM) :
    (m.delayCycle).stalled = m.stalled := rfl

@[simp] theorem SM.delayCycle_divAcc (m : SM) :
    (m.delayCycle).divAcc = m.divAcc := rfl

@[simp] theorem SM.delayCycle_nextEn (m : SM) :
    (m.delayCycle).nextEn = m.nextEn := rfl

@[simp] theorem SM.delayCycle_enabled (m : SM) :
    (m.delayCycle).enabled = m.enabled := rfl

@[simp] theorem SM.delayCycle_txf (m : SM) :
    (m.delayCycle).txf = m.txf := rfl

@[simp] theorem SM.delayCycle_clkdiv (m : SM) :
    (m.delayCycle).clkdiv = m.clkdiv := rfl

@[simp] theorem SM.delayCycle_execctrl (m : SM) :
    (m.delayCycle).execctrl = m.execctrl := rfl

@[simp] theorem SM.delayCycle_shiftctrl (m : SM) :
    (m.delayCycle).shiftctrl = m.shiftctrl := rfl

@[simp] theorem SM.delayCycle_pinctrl (m : SM) :
    (m.delayCycle).pinctrl = m.pinctrl := rfl

@[simp] theorem SM.delayCycle_txstall (m : SM) :
    (m.delayCycle).txstall = m.txstall := rfl

@[simp] theorem SM.delayCycle_txover (m : SM) :
    (m.delayCycle).txover = m.txover := rfl

@[simp] theorem SM.delayCycle_restarted (m : SM) :
    (m.delayCycle).restarted = m.restarted := rfl

@[simp] theorem SM.delayCycle_jumped (m : SM) :
    (m.delayCycle).jumped = m.jumped := rfl

@[simp] theorem SM.delayCycle_halted (m : SM) :
    (m.delayCycle).halted = m.halted := rfl

@[simp] theorem SM.delayCycle_draws (m : SM) :
    (m.delayCycle).draws = m.draws := rfl

/-! ## restart -/

@[simp] theorem SM.restart_pc (m : SM) :
    (m.restart).pc = m.pc := rfl

@[simp] theorem SM.restart_divAcc (m : SM) :
    (m.restart).divAcc = m.divAcc := rfl

@[simp] theorem SM.restart_nextEn (m : SM) :
    (m.restart).nextEn = m.nextEn := rfl

@[simp] theorem SM.restart_enabled (m : SM) :
    (m.restart).enabled = m.enabled := rfl

@[simp] theorem SM.restart_txf (m : SM) :
    (m.restart).txf = m.txf := rfl

@[simp] theorem SM.restart_clkdiv (m : SM) :
    (m.restart).clkdiv = m.clkdiv := rfl

@[simp] theorem SM.restart_execctrl (m : SM) :
    (m.restart).execctrl = m.execctrl := rfl

@[simp] theorem SM.restart_shiftctrl (m : SM) :
    (m.restart).shiftctrl = m.shiftctrl := rfl

@[simp] theorem SM.restart_pinctrl (m : SM) :
    (m.restart).pinctrl = m.pinctrl := rfl

@[simp] theorem SM.restart_txstall (m : SM) :
    (m.restart).txstall = m.txstall := rfl

@[simp] theorem SM.restart_txover (m : SM) :
    (m.restart).txover = m.txover := rfl

@[simp] theorem SM.restart_jumped (m : SM) :
    (m.restart).jumped = m.jumped := rfl

@[simp] theorem SM.restart_halted (m : SM) :
    (m.restart).halted = m.halted := rfl

@[simp] theorem SM.restart_draws (m : SM) :
    (m.restart).draws = m.draws := rfl

/-! ## start -/

@[simp] theorem SM.start_pc (m : SM) (k : Fin 4) (now : Nat) :
    (m.start k now).pc = m.pc := rfl

@[simp] theorem SM.start_x (m : SM) (k : Fin 4) (now : Nat) :
    (m.start k now).x = m.x := rfl

@[simp] theorem SM.start_y (m : SM) (k : Fin 4) (now : Nat) :
    (m.start k now).y = m.y := rfl

@[simp] theorem SM.start_osr (m : SM) (k : Fin 4) (now : Nat) :
    (m.start k now).osr = m.osr := rfl

@[simp] theorem SM.start_osrCount (m : SM) (k : Fin 4) (now : Nat) :
    (m.start k now).osrCount = m.osrCount := rfl

@[simp] theorem SM.start_delay (m : SM) (k : Fin 4) (now : Nat) :
    (m.start k now).delay = m.delay := rfl

@[simp] theorem SM.start_stalled (m : SM) (k : Fin 4) (now : Nat) :
    (m.start k now).stalled = m.stalled := rfl

@[simp] theorem SM.start_txf (m : SM) (k : Fin 4) (now : Nat) :
    (m.start k now).txf = m.txf := rfl

@[simp] theorem SM.start_clkdiv (m : SM) (k : Fin 4) (now : Nat) :
    (m.start k now).clkdiv = m.clkdiv := rfl

@[simp] theorem SM.start_execctrl (m : SM) (k : Fin 4) (now : Nat) :
    (m.start k now).execctrl = m.execctrl := rfl

@[simp] theorem SM.start_shiftctrl (m : SM) (k : Fin 4) (now : Nat) :
    (m.start k now).shiftctrl = m.shiftctrl := rfl

@[simp] theorem SM.start_pinctrl (m : SM) (k : Fin 4) (now : Nat) :
    (m.start k now).pinctrl = m.pinctrl := rfl

@[simp] theorem SM.start_txstall (m : SM) (k : Fin 4) (now : Nat) :
    (m.start k now).txstall = m.txstall := rfl

@[simp] theorem SM.start_txover (m : SM) (k : Fin 4) (now : Nat) :
    (m.start k now).txover = m.txover := rfl

@[simp] theorem SM.start_restarted (m : SM) (k : Fin 4) (now : Nat) :
    (m.start k now).restarted = m.restarted := rfl

@[simp] theorem SM.start_jumped (m : SM) (k : Fin 4) (now : Nat) :
    (m.start k now).jumped = m.jumped := rfl

@[simp] theorem SM.start_halted (m : SM) (k : Fin 4) (now : Nat) :
    (m.start k now).halted = m.halted := rfl

/-! ## disable -/

@[simp] theorem SM.disable_pc (m : SM) :
    (m.disable).pc = m.pc := rfl

@[simp] theorem SM.disable_x (m : SM) :
    (m.disable).x = m.x := rfl

@[simp] theorem SM.disable_y (m : SM) :
    (m.disable).y = m.y := rfl

@[simp] theorem SM.disable_osr (m : SM) :
    (m.disable).osr = m.osr := rfl

@[simp] theorem SM.disable_osrCount (m : SM) :
    (m.disable).osrCount = m.osrCount := rfl

@[simp] theorem SM.disable_delay (m : SM) :
    (m.disable).delay = m.delay := rfl

@[simp] theorem SM.disable_stalled (m : SM) :
    (m.disable).stalled = m.stalled := rfl

@[simp] theorem SM.disable_divAcc (m : SM) :
    (m.disable).divAcc = m.divAcc := rfl

@[simp] theorem SM.disable_nextEn (m : SM) :
    (m.disable).nextEn = m.nextEn := rfl

@[simp] theorem SM.disable_txf (m : SM) :
    (m.disable).txf = m.txf := rfl

@[simp] theorem SM.disable_clkdiv (m : SM) :
    (m.disable).clkdiv = m.clkdiv := rfl

@[simp] theorem SM.disable_execctrl (m : SM) :
    (m.disable).execctrl = m.execctrl := rfl

@[simp] theorem SM.disable_shiftctrl (m : SM) :
    (m.disable).shiftctrl = m.shiftctrl := rfl

@[simp] theorem SM.disable_pinctrl (m : SM) :
    (m.disable).pinctrl = m.pinctrl := rfl

@[simp] theorem SM.disable_txstall (m : SM) :
    (m.disable).txstall = m.txstall := rfl

@[simp] theorem SM.disable_txover (m : SM) :
    (m.disable).txover = m.txover := rfl

@[simp] theorem SM.disable_halted (m : SM) :
    (m.disable).halted = m.halted := rfl

@[simp] theorem SM.disable_draws (m : SM) :
    (m.disable).draws = m.draws := rfl

/-! ## shifted -/

@[simp] theorem SM.shifted_pc (m : SM) (n : Nat) (v : Word) :
    (m.shifted n v).pc = m.pc := rfl

@[simp] theorem SM.shifted_x (m : SM) (n : Nat) (v : Word) :
    (m.shifted n v).x = m.x := rfl

@[simp] theorem SM.shifted_y (m : SM) (n : Nat) (v : Word) :
    (m.shifted n v).y = m.y := rfl

@[simp] theorem SM.shifted_delay (m : SM) (n : Nat) (v : Word) :
    (m.shifted n v).delay = m.delay := rfl

@[simp] theorem SM.shifted_stalled (m : SM) (n : Nat) (v : Word) :
    (m.shifted n v).stalled = m.stalled := rfl

@[simp] theorem SM.shifted_divAcc (m : SM) (n : Nat) (v : Word) :
    (m.shifted n v).divAcc = m.divAcc := rfl

@[simp] theorem SM.shifted_nextEn (m : SM) (n : Nat) (v : Word) :
    (m.shifted n v).nextEn = m.nextEn := rfl

@[simp] theorem SM.shifted_enabled (m : SM) (n : Nat) (v : Word) :
    (m.shifted n v).enabled = m.enabled := rfl

@[simp] theorem SM.shifted_txf (m : SM) (n : Nat) (v : Word) :
    (m.shifted n v).txf = m.txf := rfl

@[simp] theorem SM.shifted_clkdiv (m : SM) (n : Nat) (v : Word) :
    (m.shifted n v).clkdiv = m.clkdiv := rfl

@[simp] theorem SM.shifted_execctrl (m : SM) (n : Nat) (v : Word) :
    (m.shifted n v).execctrl = m.execctrl := rfl

@[simp] theorem SM.shifted_shiftctrl (m : SM) (n : Nat) (v : Word) :
    (m.shifted n v).shiftctrl = m.shiftctrl := rfl

@[simp] theorem SM.shifted_pinctrl (m : SM) (n : Nat) (v : Word) :
    (m.shifted n v).pinctrl = m.pinctrl := rfl

@[simp] theorem SM.shifted_txstall (m : SM) (n : Nat) (v : Word) :
    (m.shifted n v).txstall = m.txstall := rfl

@[simp] theorem SM.shifted_txover (m : SM) (n : Nat) (v : Word) :
    (m.shifted n v).txover = m.txover := rfl

@[simp] theorem SM.shifted_restarted (m : SM) (n : Nat) (v : Word) :
    (m.shifted n v).restarted = m.restarted := rfl

@[simp] theorem SM.shifted_jumped (m : SM) (n : Nat) (v : Word) :
    (m.shifted n v).jumped = m.jumped := rfl

@[simp] theorem SM.shifted_halted (m : SM) (n : Nat) (v : Word) :
    (m.shifted n v).halted = m.halted := rfl

@[simp] theorem SM.shifted_draws (m : SM) (n : Nat) (v : Word) :
    (m.shifted n v).draws = m.draws := rfl

end Sys2Proof.Machine
end

