-- ==== Sys2Proof/Laws/Ops.lean ====
section
/-! SUPPORT. What each shared operation can do, said once: the marks, the pin groups, the FIFO and the shift
register, the ends of an instruction cycle, then any one instruction (`exec_cases`), and the wire, lengths in
system cycles and the pin trace. Later proofs cite these and unfold none of the operations. -/

namespace Sys2Proof.Machine

/-! ## The marks -/

/-- The faults after one is recorded: it and those before. -/
@[simp] theorem mem_recordFault (fs : List Fault) (f g : Fault) :
    g ∈ recordFault fs f ↔ g = f ∨ g ∈ fs := by
  unfold recordFault
  split
  · constructor
    · exact .inr
    · rintro (rfl | h) <;> assumption
  · simp [or_comm]

/-- A refusal leaves a mark, the older one if there is one. -/
theorem markRefused_eq (old : Option Refusal) (r : Refusal) :
    markRefused old r = some (old.getD r) := by
  cases old <;> rfl

/-- A refusal marks. -/
theorem marked_markRefused (old : Option Refusal) (r : Refusal) : Marked old (markRefused old r) r := by
  cases old <;> simp [markRefused, Marked]

/-- A raised fault is the state `Faulted` describes. -/
theorem State.faulted_raise (s : State) (f : Fault) : s.Faulted (s.raise f) f :=
  ⟨rfl, (mem_recordFault _ _ _).2 (.inl rfl), fun _ h => (mem_recordFault _ _ _).2 (.inr h),
    fun _ h => (mem_recordFault _ _ _).1 h⟩

/-- A refused instruction leaves the state `Refused` describes. -/
theorem State.refused_refuseInstr (s : State) : s.Refused s.refuseInstr :=
  ⟨rfl, marked_markRefused _ _⟩

/-- A refused host access leaves the state `AccessRefused` describes. -/
theorem State.accessRefused_refuseHost (s : State) (r : Refusal) : s.AccessRefused (s.refuseHost r) r :=
  ⟨rfl, marked_markRefused _ _⟩

/-! ## Pin groups -/

/-- A pin after the writes of a SET of at most 32 pins: in the group its bit of the data, else as before. -/
theorem getElem_writeGroup (base : PinIx) (data : BitVec 5) (v : Pins) (p : PinIx) :
    ∀ n, n ≤ 32 →
      (writeGroup base data n v)[p.toNat]'(BitVec.isLt p) =
        if (p - base).toNat < n then data.getLsbD (p - base).toNat
        else v[p.toNat]'(BitVec.isLt p) := by
  intro n
  induction n with
  | zero => intro _; simp [writeGroup]
  | succ n ih =>
    intro hn
    have ih := ih (by omega)
    have hof : (BitVec.ofNat 5 n).toNat = n := by
      rw [BitVec.toNat_ofNat]; exact Nat.mod_eq_of_lt (by omega)
    rw [writeGroup, Vector.getElem_set]
    by_cases h : (base + BitVec.ofNat 5 n).toNat = p.toNat
    · have hp : base + BitVec.ofNat 5 n = p := BitVec.eq_of_toNat_eq h
      have hk : (p - base).toNat = n := by
        rw [← hp, show base + BitVec.ofNat 5 n - base = BitVec.ofNat 5 n by
          rw [BitVec.add_comm, BitVec.add_sub_cancel], hof]
      rw [if_pos h, hk, if_pos (by omega)]
    · have hne : (p - base).toNat ≠ n := by
        intro hk
        apply h
        have : p - base = BitVec.ofNat 5 n := BitVec.eq_of_toNat_eq (by rw [hk, hof])
        rw [← this, BitVec.add_comm, BitVec.sub_add_cancel]
      rw [if_neg h, ih]
      by_cases hlt : (p - base).toNat < n
      · rw [if_pos hlt, if_pos (by omega)]
      · rw [if_neg hlt, if_neg (by omega)]

/-- The SET count is a 3-bit field. -/
theorem SM.setCount_lt (m : SM) : m.setCount < 8 := BitVec.isLt _

/-! ## The FIFO and the shift register -/

/-- A load takes the oldest word, and does nothing only on an empty FIFO. -/
theorem SM.loadOsr_eq_some {m m' : SM} : m.loadOsr = some m' ↔ m.Popped m' := by
  unfold SM.loadOsr SM.Popped
  cases m.txf with
  | nil => simp
  | cons w rest =>
    simp only [Option.some.injEq, List.cons.injEq]
    constructor
    · rintro rfl; exact ⟨w, rest, ⟨rfl, rfl⟩, rfl⟩
    · rintro ⟨w', rest', ⟨rfl, rfl⟩, h⟩; exact h.symm

theorem SM.loadOsr_eq_none {m : SM} : m.loadOsr = none ↔ m.txf = [] := by
  unfold SM.loadOsr
  cases m.txf <;> simp

/-- The auto-pull test is the one of `wantsWord`. -/
theorem SM.wantsWord_iff (m : SM) : (m.autopull && m.osrEmpty) = true ↔ m.wantsWord := by
  simp [SM.wantsWord, SM.osrEmpty]

/-- The auto-pull before the shift stalls only where it wants a word and there is none. -/
theorem SM.pullBefore_eq_none {m : SM} : m.pullBefore = none ↔ m.wantsWord ∧ m.txf = [] := by
  unfold SM.pullBefore
  split
  · rename_i h; rw [SM.loadOsr_eq_none]; exact ⟨fun e => ⟨m.wantsWord_iff.1 h, e⟩, fun e => e.2⟩
  · rename_i h; exact ⟨fun e => by simp at e, fun e => absurd (m.wantsWord_iff.2 e.1) h⟩

theorem SM.pullBefore_eq_some {m m' : SM} : m.pullBefore = some m' ↔ m.OutBegins m' := by
  unfold SM.pullBefore SM.OutBegins
  split
  · rename_i h
    have h := m.wantsWord_iff.1 h
    rw [SM.loadOsr_eq_some]
    exact ⟨fun e => .inl ⟨h, e⟩, fun e => e.elim (·.2) fun e => absurd h e.1⟩
  · rename_i h
    have h : ¬m.wantsWord := fun w => h (m.wantsWord_iff.2 w)
    simp only [Option.some.injEq]
    exact ⟨fun e => .inr ⟨h, e.symm⟩, fun e => e.elim (fun e => absurd e.1 h) (·.2.symm)⟩

/-- The auto-pull after the shift refills or leaves the machine as it is. -/
theorem SM.outEnds_pullAfter (m : SM) : m.OutEnds m.pullAfter := by
  unfold SM.pullAfter
  split
  · rename_i h
    have h := m.wantsWord_iff.1 h
    cases e : m.loadOsr with
    | none => exact .inr ⟨.inr (SM.loadOsr_eq_none.1 e), rfl⟩
    | some m' => exact .inl ⟨h, SM.loadOsr_eq_some.1 e⟩
  · rename_i h
    exact .inr ⟨.inl fun w => h (m.wantsWord_iff.2 w), rfl⟩

/-- A bit count is 1 to 32. -/
theorem bitCount_pos (f : BitVec 5) : 1 ≤ bitCount f := by
  unfold bitCount
  split
  · omega
  · rename_i h
    have : f.toNat ≠ 0 := fun e => h (BitVec.eq_of_toNat_eq e)
    omega

theorem bitCount_le (f : BitVec 5) : bitCount f ≤ 32 := by
  have := f.isLt
  unfold bitCount
  split <;> omega

/-- A machine's next slot is the one R138 writes out. -/
theorem SM.succ_eq (m : SM) : m.succ = m.nextSlot := rfl

/-- Completing is going to the target, or to the next slot. -/
theorem SM.complete_eq (m : SM) (d : BitVec 5) (target : Option Slot) :
    m.complete d target = m.goesTo (target.getD m.nextSlot) d := rfl

/-- A JMP goes to its slot if taken, else to the next one. -/
theorem branch_eq (s : State) (m : SM) (taken : Bool) (d a : BitVec 5) :
    branch s m taken d a = .next (s.setCur (m.goesTo (if taken then a else m.nextSlot) d)) := by
  cases taken <;> rfl

/-- A register that holds a value is read. -/
theorem withReg_some (s : State) (i : Instr) (r : RegName) (x : Word)
    (use : Word → Host.Outcome State Fault Refusal) : withReg s i r (some x) use = use x := rfl

/-- A register that holds none raises the fault. -/
theorem withReg_none (s : State) (i : Instr) (r : RegName)
    (use : Word → Host.Outcome State Fault Refusal) :
    withReg s i r none use = .next (s.raise (.unwrittenRead s.active s.cur.pc (encode i) r)) := rfl

/-! ## What an instruction may do to its machine before it ends -/

/-- From `m` to `m'` an instruction kept the settings, PC, DELAY, STALLED, TXSTALL and the stop, kept OSR_COUNT
in its range, and took at most the two oldest words of the FIFO. -/
abbrev SM.Worked (m m' : SM) : Prop :=
  m.sameSettings m' ∧ m'.pc = m.pc ∧ m'.delay = m.delay ∧ m'.stalled = m.stalled ∧
  m'.txstall = m.txstall ∧ m'.halted = m.halted ∧ (m.osrCount ≤ 32 → m'.osrCount ≤ 32) ∧
  ∃ taken, taken.length ≤ 2 ∧ m.txf = taken ++ m'.txf

theorem SM.worked_self (m : SM) : m.Worked m :=
  ⟨⟨rfl, rfl, rfl, rfl, rfl, rfl, rfl, rfl, rfl, rfl⟩, rfl, rfl, rfl, rfl, rfl, id, [], by simp, by simp⟩

theorem SM.worked_x (m : SM) (v : Option Word) : m.Worked { m with x := v } :=
  ⟨⟨rfl, rfl, rfl, rfl, rfl, rfl, rfl, rfl, rfl, rfl⟩, rfl, rfl, rfl, rfl, rfl, id, [], by simp, by simp⟩

theorem SM.worked_y (m : SM) (v : Option Word) : m.Worked { m with y := v } :=
  ⟨⟨rfl, rfl, rfl, rfl, rfl, rfl, rfl, rfl, rfl, rfl⟩, rfl, rfl, rfl, rfl, rfl, id, [], by simp, by simp⟩

theorem SM.worked_draws (m : SM) (n : Nat) : m.Worked { m with draws := n } :=
  ⟨⟨rfl, rfl, rfl, rfl, rfl, rfl, rfl, rfl, rfl, rfl⟩, rfl, rfl, rfl, rfl, rfl, id, [], by simp, by simp⟩

theorem SM.worked_popped {m m' : SM} (h : m.Popped m') : m.Worked m' := by
  obtain ⟨w, rest, ht, rfl⟩ := h
  exact ⟨⟨rfl, rfl, rfl, rfl, rfl, rfl, rfl, rfl, rfl, rfl⟩, rfl, rfl, rfl, rfl, rfl,
    fun _ => Nat.zero_le 32, [w], by simp, by simpa using ht⟩

/-! ## How an instruction cycle ends -/

/-- Everything one instruction of the executing machine can come to. -/
inductive State.Ends (i : Instr) (s : State) : State → Prop
  /-- It completed, and wrote no pin. -/
  | completed (m : SM) (d : BitVec 5) (target : Option Slot) (h : s.cur.Worked m) :
      State.Ends i s (s.setCur (m.complete d target))
  /-- It completed a SET PINS. -/
  | wrotePins (d v : BitVec 5) :
      State.Ends i s
        ((s.writePins s.cur.setBase s.cur.setCount v).setCur (s.cur.complete d none))
  /-- It completed a SET PINDIRS. -/
  | wroteDirs (d v : BitVec 5) :
      State.Ends i s
        ((s.writePinDirs s.cur.setBase s.cur.setCount v).setCur (s.cur.complete d none))
  /-- It stalled. -/
  | stalled : State.Ends i s (s.setCur s.cur.stall)
  /-- It read a register that holds no value. -/
  | faulted (r : RegName) : State.Ends i s (s.raise (.unwrittenRead s.active s.cur.pc (encode i) r))
  /-- It was refused. -/
  | refused : State.Ends i s s.refuseInstr

theorem finish_ends {s : State} {i : Instr} {m : SM} {d : BitVec 5} {target : Option Slot}
    (h : s.cur.Worked m) : ∃ t, finish s m d target = .next t ∧ s.Ends i t :=
  ⟨_, rfl, .completed m d target h⟩

theorem withReg_ends {s : State} {i : Instr} {r : RegName} {v : Option Word}
    {use : Word → Host.Outcome State Fault Refusal}
    (h : ∀ x, v = some x → ∃ t, use x = .next t ∧ s.Ends i t) :
    ∃ t, withReg s i r v use = .next t ∧ s.Ends i t := by
  cases v with
  | none => exact ⟨_, rfl, .faulted r⟩
  | some x => exact h x rfl

theorem outWith_ends (s : State) (i : Instr) (d count : BitVec 5) (deliver : SM → Word → SM)
    (hd : ∀ m v, m.Worked (deliver m v) ∧ (deliver m v).txf = m.txf) :
    ∃ t, outWith s i d count deliver = .next t ∧ s.Ends i t := by
  unfold outWith
  cases hb : s.cur.pullBefore with
  | none => exact ⟨_, rfl, .stalled⟩
  | some m =>
    refine withReg_ends fun v _ => ⟨_, rfl, .completed _ d none ?_⟩
    have h1 : s.cur.Worked m ∧ ∃ t1, t1.length ≤ 1 ∧ s.cur.txf = t1 ++ m.txf := by
      rcases SM.pullBefore_eq_some.1 hb with ⟨_, h⟩ | ⟨_, rfl⟩
      · obtain ⟨w, rest, ht, rfl⟩ := id h
        exact ⟨SM.worked_popped h, [w], by simp, by simpa using ht⟩
      · exact ⟨SM.worked_self _, [], by simp, by simp⟩
    obtain ⟨⟨hs, hpc, hdl, hst, htx, hh, hc, -⟩, t1, hl1, ht1⟩ := h1
    obtain ⟨⟨hs2, hpc2, hdl2, hst2, htx2, hh2, hc2, -⟩, hf2⟩ :=
      hd (m.shifted (bitCount count) v) (shiftOut m.shiftRight (bitCount count) v).1
    generalize deliver (m.shifted (bitCount count) v) (shiftOut m.shiftRight (bitCount count) v).1 = m2 at *
    have h3 : m2.Worked m2.pullAfter ∧ ∃ t3, t3.length ≤ 1 ∧ m2.txf = t3 ++ m2.pullAfter.txf := by
      rcases m2.outEnds_pullAfter with ⟨_, h⟩ | ⟨_, h⟩
      · refine ⟨SM.worked_popped h, ?_⟩
        obtain ⟨w, rest, ht, he⟩ := h
        exact ⟨[w], by simp, by rw [he]; simpa using ht⟩
      · rw [h]; exact ⟨SM.worked_self _, [], by simp, by simp⟩
    obtain ⟨⟨hs3, hpc3, hdl3, hst3, htx3, hh3, hc3, -⟩, t3, hl3, ht3⟩ := h3
    generalize m2.pullAfter = m3 at *
    have hsh : (m.shifted (bitCount count) v).txf = m.txf := rfl
    refine ⟨?_, hpc3.trans (hpc2.trans hpc), hdl3.trans (hdl2.trans hdl), hst3.trans (hst2.trans hst),
      htx3.trans (htx2.trans htx), hh3.trans (hh2.trans hh),
      fun _ => hc3 (hc2 (Nat.min_le_right _ _)), t1 ++ t3, ?_, ?_⟩
    · obtain ⟨a1, a2, a3, a4, a5, a6, a7, a8, a9, a10⟩ := hs
      obtain ⟨b1, b2, b3, b4, b5, b6, b7, b8, b9, b10⟩ := hs2
      obtain ⟨c1, c2, c3, c4, c5, c6, c7, c8, c9, c10⟩ := hs3
      exact ⟨c1.trans (b1.trans a1), c2.trans (b2.trans a2), c3.trans (b3.trans a3),
        c4.trans (b4.trans a4), c5.trans (b5.trans a5), c6.trans (b6.trans a6),
        c7.trans (b7.trans a7), c8.trans (b8.trans a8), c9.trans (b9.trans a9),
        c10.trans (b10.trans a10)⟩
    · rw [List.length_append]; omega
    · rw [ht1, List.append_assoc, ← ht3, hf2, hsh]

theorem pullWith_ends (s : State) (i : Instr) (d : BitVec 5) (ifEmpty block : Bool) :
    ∃ t, pullWith s i d ifEmpty block = .next t ∧ s.Ends i t := by
  unfold pullWith
  dsimp only
  split
  · exact ⟨_, rfl, .completed _ d none (SM.worked_self _)⟩
  · split
    · exact ⟨_, rfl, .completed _ d none (SM.worked_self _)⟩
    · split
      · rename_i h
        exact ⟨_, rfl, .completed _ d none (SM.worked_popped (SM.loadOsr_eq_some.1 h))⟩
      · split
        · exact ⟨_, rfl, .stalled⟩
        · exact withReg_ends fun x _ => ⟨_, rfl, .completed _ d none
            ⟨⟨rfl, rfl, rfl, rfl, rfl, rfl, rfl, rfl, rfl, rfl⟩, rfl, rfl, rfl, rfl, rfl,
              fun _ => Nat.zero_le 32, [], by simp, by simp⟩⟩

/-! ## OUT and PULL as their common rules -/

theorem exec_outX (d n : BitVec 5) (s : State) :
    exec (.outX d n) s = outWith s (.outX d n) d n fun m v => { m with x := some v } := rfl

theorem exec_outY (d n : BitVec 5) (s : State) :
    exec (.outY d n) s = outWith s (.outY d n) d n fun m v => { m with y := some v } := rfl

theorem exec_outNull (d n : BitVec 5) (s : State) :
    exec (.outNull d n) s = outWith s (.outNull d n) d n fun m _ => m := rfl

theorem exec_pullBlock (d : BitVec 5) (s : State) :
    exec (.pullBlock d) s = pullWith s (.pullBlock d) d false true := rfl

theorem exec_pullNoblock (d : BitVec 5) (s : State) :
    exec (.pullNoblock d) s = pullWith s (.pullNoblock d) d false false := rfl

theorem exec_pullIfemptyBlock (d : BitVec 5) (s : State) :
    exec (.pullIfemptyBlock d) s = pullWith s (.pullIfemptyBlock d) d true true := rfl

theorem exec_pullIfemptyNoblock (d : BitVec 5) (s : State) :
    exec (.pullIfemptyNoblock d) s = pullWith s (.pullIfemptyNoblock d) d true false := rfl

/-- Every instruction answers a next state, one of those `State.Ends` lists. -/
theorem exec_cases (i : Instr) (s : State) : ∃ t, exec i s = .next t ∧ s.Ends i t := by
  cases i with
  | jmp d a => exact finish_ends (SM.worked_self _)
  | jmpNotX d a => exact withReg_ends fun x _ => finish_ends (SM.worked_self _)
  | jmpXDec d a => exact withReg_ends fun x _ => finish_ends (SM.worked_x _ _)
  | jmpNotY d a => exact withReg_ends fun y _ => finish_ends (SM.worked_self _)
  | jmpYDec d a => exact withReg_ends fun y _ => finish_ends (SM.worked_y _ _)
  | jmpXNeY d a =>
    exact withReg_ends fun x _ => withReg_ends fun y _ => finish_ends (SM.worked_self _)
  | jmpPin d a => exact finish_ends (SM.worked_draws _ _)
  | jmpNotOsre d a => exact finish_ends (SM.worked_self _)
  | outX d n =>
    exact outWith_ends s (.outX d n) d n (fun m v => { m with x := some v })
      fun m _ => ⟨m.worked_x _, rfl⟩
  | outY d n =>
    exact outWith_ends s (.outY d n) d n (fun m v => { m with y := some v })
      fun m _ => ⟨m.worked_y _, rfl⟩
  | outNull d n =>
    exact outWith_ends s (.outNull d n) d n (fun m _ => m) fun m _ => ⟨m.worked_self, rfl⟩
  | pullBlock d => exact pullWith_ends s (.pullBlock d) d false true
  | pullNoblock d => exact pullWith_ends s (.pullNoblock d) d false false
  | pullIfemptyBlock d => exact pullWith_ends s (.pullIfemptyBlock d) d true true
  | pullIfemptyNoblock d => exact pullWith_ends s (.pullIfemptyNoblock d) d true false
  | nop d => exact finish_ends (SM.worked_self _)
  | setPins d v => exact ⟨_, rfl, .wrotePins d v⟩
  | setX d v => exact finish_ends (SM.worked_x _ _)
  | setY d v => exact finish_ends (SM.worked_y _ _)
  | setPindirs d v => exact ⟨_, rfl, .wroteDirs d v⟩
  | _ => exact ⟨_, rfl, .refused⟩

/-! ## Status fields -/

/-- Bit `i` of a packed status field is machine `i - b`'s, and no other bit is set. -/
theorem getLsbD_packBits (b : Nat) (f : Fin 4 → Bool) (i : Nat) (hb : b + 4 ≤ 32) :
    (packBits b f).getLsbD i = if h : b ≤ i ∧ i < b + 4 then f ⟨i - b, by omega⟩ else false := by
  have one : ∀ (c : Bool) j, j < 32 →
      (if c then 1#32 <<< j else 0#32).getLsbD i = (c && decide (i = j)) := by
    intro c j hj
    cases c
    · simp
    · simp only [if_true, BitVec.getLsbD_shiftLeft, Bool.true_and]
      by_cases h : i = j
      · subst h; simp [hj]
      · by_cases h2 : i < j
        · simp [h2]; omega
        · simp [h, BitVec.getLsbD_one]; omega
  unfold packBits
  simp only [BitVec.getLsbD_or]
  simp only [show (0 : Word) = 0#32 from rfl]
  rw [one _ _ (by omega), one _ _ (by omega), one _ _ (by omega), one _ _ (by omega)]
  split
  · rename_i h
    obtain ⟨j, rfl⟩ : ∃ j, i = b + j := ⟨i - b, by omega⟩
    simp only [Nat.add_sub_cancel_left]
    have : j < 4 := by omega
    match j, this with
    | 0, _ => simp
    | 1, _ => simp
    | 2, _ => simp
    | 3, _ => simp
  · have : i ≠ b ∧ i ≠ b+1 ∧ i ≠ b+2 ∧ i ≠ b+3 := by omega
    simp [this]

/-! ## The wire -/

/-- What the wire takes from the writes on their way: the oldest of them, in order, each due by `now` (R135). -/
theorem drainPipe_takes (now : Nat) (pipe : List PinEvent) (out oe : Pins) :
    ∃ shown, pipe = shown ++ (drainPipe now pipe out oe).1 ∧
      (drainPipe now pipe out oe).2 = replay shown (out, oe) ∧
      ∀ e ∈ shown, e.time + Config.lOut ≤ now := by
  induction pipe generalizing out oe with
  | nil => exact ⟨[], rfl, rfl, by simp⟩
  | cons e rest ih =>
    rw [drainPipe]
    split
    · next due =>
      split
      · next dir =>
        obtain ⟨shown, hp, hw, hd⟩ := ih out (writeGroup e.base e.data e.count oe)
        exact ⟨e :: shown, congrArg _ hp, by simpa [replay, dir] using hw, List.forall_mem_cons.2 ⟨due, hd⟩⟩
      · next dir =>
        obtain ⟨shown, hp, hw, hd⟩ := ih (writeGroup e.base e.data e.count out) oe
        exact ⟨e :: shown, congrArg _ hp, by simpa [replay, dir] using hw, List.forall_mem_cons.2 ⟨due, hd⟩⟩
    · exact ⟨[], rfl, rfl, by simp⟩

/-! ## Lengths in system cycles -/

/-- `n` pulses move the next pulse on by the system cycles that `n` cycles last (R136). -/
theorem SM.tick_iterate_nextEn (m : SM) (n : Nat) : (SM.tick^[n] m).nextEn = m.nextEn + m.systemCycles n := by
  induction n generalizing m with
  | zero => simp [SM.systemCycles, Nat.div_eq_of_lt m.divAcc.isLt]
  | succ n ih =>
    have acc := m.divAcc.isLt
    have frac := m.divFrac.isLt
    have period : m.tick.divPeriod = m.divPeriod := rfl
    have frac' : m.tick.divFrac = m.divFrac := rfl
    rw [Function.iterate_succ_apply, ih, SM.systemCycles, SM.systemCycles, period, frac', Nat.succ_mul, Nat.succ_mul]
    have sum : m.divSum = m.divAcc.toNat + m.divFrac.toNat := rfl
    simp only [SM.tick, SM.divStep, BitVec.toNat_ofNat]
    split <;> omega

/-- What `n` cycles last lies between the fewest and the most system cycles (R142, R256). -/
theorem SM.systemCycles_bounds (m : SM) (n : Nat) :
    m.fewestCycles n ≤ m.systemCycles n ∧ m.systemCycles n ≤ m.mostCycles n := by
  have acc := m.divAcc.isLt
  simp only [SM.fewestCycles, SM.systemCycles, SM.mostCycles]
  omega

/-- The fewest are those from the accumulator 0, and the most those from 255 (R256). -/
theorem SM.systemCycles_attained (m : SM) (n : Nat) :
    { m with divAcc := 0 }.systemCycles n = m.fewestCycles n ∧
    { m with divAcc := 255 }.systemCycles n = m.mostCycles n := by
  refine ⟨congrArg (n * m.divPeriod + · / 256) (Nat.zero_add _), congrArg (n * m.divPeriod + · / 256) ?_⟩
  exact Nat.add_comm 255 _

/-- A longer gap meets the minimum if a shorter one does. -/
theorem meetsReset_mono {a b : Nat} (h : a ≤ b) : meetsReset a → meetsReset b :=
  fun ha => ha.trans (Nat.mul_le_mul_right _ h)

/-- The shortest gap meets the minimum from every accumulator exactly if `gapMeetsReset` (R256). -/
theorem gapMeetsReset_iff (m : SM) :
    gapMeetsReset m ↔ ∀ acc, meetsReset ({ m with divAcc := acc }.systemCycles (gapCycles true)) :=
  ⟨fun h acc => meetsReset_mono ({ m with divAcc := acc }.systemCycles_bounds _).1 h,
   fun h => (congrArg meetsReset (m.systemCycles_attained _).1).mp (h 0)⟩

/-- R256's condition is enough for every divisor (R256). -/
theorem gapMeetsReset_of_divisor {m : SM} : divisorMeetsReset m → gapMeetsReset m :=
  meetsReset_mono (Nat.le_add_right _ _)

/-- With `FRAC = 0` it is necessary too (R256). -/
theorem gapMeetsReset_iff_divisor {m : SM} (h : m.divFrac = 0) : gapMeetsReset m ↔ divisorMeetsReset m := by
  simp [gapMeetsReset, divisorMeetsReset, SM.fewestCycles, h]

/-! ## The pin trace -/

/-- A channel's trace shows nothing at or past its horizon (R145, R257; log 31). -/
theorem channelTrace_before_horizon {held : Bool} {frames : List (Word × Nat)} {horizon : Nat} {v : Interval}
    (h : v ∈ channelTrace held frames horizon) : v.start < horizon ∧ v.stop ≤ horizon := by
  obtain ⟨u, -, hu⟩ := List.mem_filterMap.mp h
  simp only [Interval.upTo] at hu
  split at hu
  · cases hu; exact ⟨‹_›, Nat.min_le_right ..⟩
  · cases hu

end Sys2Proof.Machine
end

