-- ==== Sys2Proof/Laws/PerInstr.lean ====
section
/-! SUPPORT. For every instruction, one lemma: its word matches its row of the opcode table (30_encoding R114,
R119), whatever its operands. -/

namespace Sys2Proof

/-! ## Masks on an assembled word -/

theorem assemble_and (o o' : BitVec 3) (d d' : BitVec 5) (a a' : BitVec 8) :
    assemble o d a &&& assemble o' d' a' = assemble (o &&& o') (d &&& d') (a &&& a') := by
  apply BitVec.eq_of_getLsbD_eq
  intro i _
  rw [BitVec.getLsbD_and, getLsbD_assemble, getLsbD_assemble, getLsbD_assemble]
  split
  · rw [BitVec.getLsbD_and]
  · split <;> rw [BitVec.getLsbD_and]

/-- A mask over all of the class, none of the delay and `ma` of the argument. -/
theorem assemble_and_mask (o : BitVec 3) (d : BitVec 5) (a ma : BitVec 8) :
    assemble o d a &&& assemble 7 0 ma = assemble o 0 (a &&& ma) := by
  rw [assemble_and]
  congr 1
  · exact BitVec.and_allOnes
  · exact BitVec.and_zero

theorem selArg_and (s : BitVec 3) (l : BitVec 5) : selArg s l &&& selArg 7 0 = selArg s 0 := by
  apply BitVec.eq_of_getLsbD_eq
  intro i hi
  rw [BitVec.getLsbD_and, getLsbD_selArg, getLsbD_selArg, getLsbD_selArg]
  split
  · simp
  · have : i - 5 = 0 ∨ i - 5 = 1 ∨ i - 5 = 2 := by omega
    rcases this with h | h | h <;> rw [h] <;> simp

theorem movArg_and_dest (t : BitVec 3) (op : BitVec 2) (s : BitVec 3) :
    movArg t op s &&& movArg 7 0 0 = movArg t 0 0 := by
  apply BitVec.eq_of_getLsbD_eq
  intro i hi
  rw [BitVec.getLsbD_and, getLsbD_movArg, getLsbD_movArg, getLsbD_movArg]
  split
  · simp
  · split
    · simp
    · have : i - 5 = 0 ∨ i - 5 = 1 ∨ i - 5 = 2 := by omega
      rcases this with h | h | h <;> rw [h] <;> simp

theorem movArg_and_op (t : BitVec 3) (op : BitVec 2) (s : BitVec 3) :
    movArg t op s &&& movArg 0 3 0 = movArg 0 op 0 := by
  apply BitVec.eq_of_getLsbD_eq
  intro i hi
  rw [BitVec.getLsbD_and, getLsbD_movArg, getLsbD_movArg, getLsbD_movArg]
  split
  · simp
  · split
    · have : i - 3 = 0 ∨ i - 3 = 1 := by omega
      rcases this with h | h <;> rw [h] <;> simp
    · simp

theorem movArg_and_src (t : BitVec 3) (op : BitVec 2) (s : BitVec 3) :
    movArg t op s &&& movArg 0 0 7 = movArg 0 0 s := by
  apply BitVec.eq_of_getLsbD_eq
  intro i hi
  rw [BitVec.getLsbD_and, getLsbD_movArg, getLsbD_movArg, getLsbD_movArg]
  split
  · have : i = 0 ∨ i = 1 ∨ i = 2 := by omega
    rcases this with h | h | h <;> rw [h] <;> simp
  · split <;> simp

/-! ## A word matches a row -/

/-- A row that fixes class and selector. -/
theorem matches_sel (o s : BitVec 3) (d l : BitVec 5) (p : Half) (b : Bool)
    (h : assemble o 0 (selArg s 0) = p) :
    OpRow.matchesWord ⟨0xE0E0, p, b⟩ (assemble o d (selArg s l)) = true := by
  have hm : (0xE0E0 : Half) = assemble 7 0 (selArg 7 0) := by decide
  simp only [OpRow.matchesWord, beq_iff_eq]
  rw [hm, assemble_and_mask, selArg_and, h]

/-- A row that fixes the class only. -/
theorem matches_class (o : BitVec 3) (d : BitVec 5) (a : BitVec 8) (p : Half) (b : Bool)
    (h : assemble o 0 0 = p) : OpRow.matchesWord ⟨0xE000, p, b⟩ (assemble o d a) = true := by
  have hm : (0xE000 : Half) = assemble 7 0 0 := by decide
  simp only [OpRow.matchesWord, beq_iff_eq]
  rw [hm, assemble_and_mask, show a &&& 0 = 0 from BitVec.and_zero, h]

/-- A row that fixes the class and the whole argument. -/
theorem matches_arg (o : BitVec 3) (d : BitVec 5) (a : BitVec 8) (p : Half) (b : Bool)
    (h : assemble o 0 a = p) : OpRow.matchesWord ⟨0xE0FF, p, b⟩ (assemble o d a) = true := by
  have hm : (0xE0FF : Half) = assemble 7 0 0xFF := by decide
  simp only [OpRow.matchesWord, beq_iff_eq]
  rw [hm, assemble_and_mask, show a &&& 0xFF = a from BitVec.and_allOnes, h]

/-- A row that fixes the class and bit 7 of the argument. -/
theorem matches_top (o : BitVec 3) (d : BitVec 5) (t : BitVec 1) (a : BitVec 7) (arg : BitVec 8) (p : Half)
    (b : Bool) (ha : arg = t ++ a) (h : assemble o 0 (t ++ 0#7) = p) :
    OpRow.matchesWord ⟨0xE080, p, b⟩ (assemble o d arg) = true := by
  have hm : (0xE080 : Half) = assemble 7 0 (1#1 ++ 0#7) := by decide
  have hand : (t ++ a : BitVec (1 + 7)) &&& (1#1 ++ 0#7) = t ++ 0#7 := by
    apply BitVec.eq_of_getLsbD_eq
    intro i hi
    rw [BitVec.getLsbD_and, BitVec.getLsbD_append, BitVec.getLsbD_append, BitVec.getLsbD_append]
    split
    · simp
    · have : i - 7 = 0 := by omega
      rw [this]; simp
  subst ha
  simp only [OpRow.matchesWord, beq_iff_eq]
  rw [hm, assemble_and_mask]
  exact (congrArg (assemble o 0) hand).trans h

/-- The argument of a reserved PULL, its last two fields taken together. -/
theorem append_assoc_arg (ib : BitVec 2) (low : BitVec 5) :
    (1#1 ++ ib ++ low : BitVec (1 + 2 + 5)) = (1#1 ++ (ib ++ low : BitVec (2 + 5)) : BitVec (1 + 7)) := by
  apply BitVec.eq_of_getLsbD_eq
  intro i hi
  rw [BitVec.getLsbD_append, BitVec.getLsbD_append]
  show _ = (1#1 ++ (ib ++ low : BitVec (2 + 5)) : BitVec (1 + (2 + 5))).getLsbD i
  rw [BitVec.getLsbD_append, BitVec.getLsbD_append]
  by_cases h1 : i < 5
  · have h2 : i < 2 + 5 := by omega
    simp [h1, h2]
  · by_cases h2 : i < 2 + 5
    · have h3 : i - 5 < 2 := by omega
      simp [h1, h2, h3]
    · have h3 : ¬i - 5 < 2 := by omega
      have e : i - 5 - 2 = i - (2 + 5) := by omega
      simp only [if_neg h1, if_neg h2, if_neg h3, e]

/-- A row that fixes the class and one field of a MOV argument. -/
theorem matches_mov (o : BitVec 3) (d : BitVec 5) (a ma a' : BitVec 8) (m p : Half) (b : Bool)
    (hm : m = assemble 7 0 ma) (ha : a &&& ma = a') (h : assemble o 0 a' = p) :
    OpRow.matchesWord ⟨m, p, b⟩ (assemble o d a) = true := by
  simp only [OpRow.matchesWord, beq_iff_eq]
  rw [hm, assemble_and_mask, ha, h]

end Sys2Proof

namespace Sys2Proof.Laws.MatchesItsRow

/-- The word of the instruction matches its row of the opcode table. -/
def Statement (i : Instr) : Prop :=
  (opcodeTable[rowOf i]?.map fun r => r.matchesWord (encode i)) = some true

theorem jmp (delay : BitVec 5) (addr : Slot) :
    Statement (.jmp delay addr) :=
  congrArg some (matches_sel 0 0 delay addr _ _ (by decide))

theorem jmpNotX (delay : BitVec 5) (addr : Slot) :
    Statement (.jmpNotX delay addr) :=
  congrArg some (matches_sel 0 1 delay addr _ _ (by decide))

theorem jmpXDec (delay : BitVec 5) (addr : Slot) :
    Statement (.jmpXDec delay addr) :=
  congrArg some (matches_sel 0 2 delay addr _ _ (by decide))

theorem jmpNotY (delay : BitVec 5) (addr : Slot) :
    Statement (.jmpNotY delay addr) :=
  congrArg some (matches_sel 0 3 delay addr _ _ (by decide))

theorem jmpYDec (delay : BitVec 5) (addr : Slot) :
    Statement (.jmpYDec delay addr) :=
  congrArg some (matches_sel 0 4 delay addr _ _ (by decide))

theorem jmpXNeY (delay : BitVec 5) (addr : Slot) :
    Statement (.jmpXNeY delay addr) :=
  congrArg some (matches_sel 0 5 delay addr _ _ (by decide))

theorem jmpPin (delay : BitVec 5) (addr : Slot) :
    Statement (.jmpPin delay addr) :=
  congrArg some (matches_sel 0 6 delay addr _ _ (by decide))

theorem jmpNotOsre (delay : BitVec 5) (addr : Slot) :
    Statement (.jmpNotOsre delay addr) :=
  congrArg some (matches_sel 0 7 delay addr _ _ (by decide))

theorem outX (delay : BitVec 5) (count : BitVec 5) :
    Statement (.outX delay count) :=
  congrArg some (matches_sel 3 1 delay count _ _ (by decide))

theorem outY (delay : BitVec 5) (count : BitVec 5) :
    Statement (.outY delay count) :=
  congrArg some (matches_sel 3 2 delay count _ _ (by decide))

theorem outNull (delay : BitVec 5) (count : BitVec 5) :
    Statement (.outNull delay count) :=
  congrArg some (matches_sel 3 3 delay count _ _ (by decide))

theorem pullBlock (delay : BitVec 5) :
    Statement (.pullBlock delay) :=
  congrArg some (matches_arg _ delay _ _ _ (by decide))

theorem pullNoblock (delay : BitVec 5) :
    Statement (.pullNoblock delay) :=
  congrArg some (matches_arg _ delay _ _ _ (by decide))

theorem pullIfemptyBlock (delay : BitVec 5) :
    Statement (.pullIfemptyBlock delay) :=
  congrArg some (matches_arg _ delay _ _ _ (by decide))

theorem pullIfemptyNoblock (delay : BitVec 5) :
    Statement (.pullIfemptyNoblock delay) :=
  congrArg some (matches_arg _ delay _ _ _ (by decide))

theorem nop (delay : BitVec 5) :
    Statement (.nop delay) :=
  congrArg some (matches_arg _ delay _ _ _ (by decide))

theorem setPins (delay : BitVec 5) (data : BitVec 5) :
    Statement (.setPins delay data) :=
  congrArg some (matches_sel 7 0 delay data _ _ (by decide))

theorem setX (delay : BitVec 5) (data : BitVec 5) :
    Statement (.setX delay data) :=
  congrArg some (matches_sel 7 1 delay data _ _ (by decide))

theorem setY (delay : BitVec 5) (data : BitVec 5) :
    Statement (.setY delay data) :=
  congrArg some (matches_sel 7 2 delay data _ _ (by decide))

theorem setPindirs (delay : BitVec 5) (data : BitVec 5) :
    Statement (.setPindirs delay data) :=
  congrArg some (matches_sel 7 4 delay data _ _ (by decide))

theorem waitRefused (delay : BitVec 5) (arg : BitVec 8) :
    Statement (.waitRefused delay arg) :=
  congrArg some (matches_class _ delay arg _ _ (by decide))

theorem inRefused (delay : BitVec 5) (arg : BitVec 8) :
    Statement (.inRefused delay arg) :=
  congrArg some (matches_class _ delay arg _ _ (by decide))

theorem outPinsRefused (delay : BitVec 5) (count : BitVec 5) :
    Statement (.outPinsRefused delay count) :=
  congrArg some (matches_sel 3 0 delay count _ _ (by decide))

theorem outPindirsRefused (delay : BitVec 5) (count : BitVec 5) :
    Statement (.outPindirsRefused delay count) :=
  congrArg some (matches_sel 3 4 delay count _ _ (by decide))

theorem outPcRefused (delay : BitVec 5) (count : BitVec 5) :
    Statement (.outPcRefused delay count) :=
  congrArg some (matches_sel 3 5 delay count _ _ (by decide))

theorem outIsrRefused (delay : BitVec 5) (count : BitVec 5) :
    Statement (.outIsrRefused delay count) :=
  congrArg some (matches_sel 3 6 delay count _ _ (by decide))

theorem outExecRefused (delay : BitVec 5) (count : BitVec 5) :
    Statement (.outExecRefused delay count) :=
  congrArg some (matches_sel 3 7 delay count _ _ (by decide))

theorem pushRefused (delay : BitVec 5) (arg : BitVec 7) :
    Statement (.pushRefused delay arg) :=
  congrArg some (matches_top 4 delay 0#1 arg _ _ _ rfl (by decide))

theorem pullReserved (delay : BitVec 5) (ifeBlk : BitVec 2) (low : BitVec 5) :
    Statement (.pullReserved delay ifeBlk low) :=
  congrArg some (matches_top 4 delay 1#1 (ifeBlk ++ low : BitVec (2 + 5)) _ _ _ (append_assoc_arg ifeBlk low) (by decide))

theorem movReservedDest (delay : BitVec 5) (op : BitVec 2) (src : BitVec 3) :
    Statement (.movReservedDest delay op src) :=
  congrArg some (matches_mov 5 delay _ (movArg 7 0 0) _ _ _ _ (by decide) (movArg_and_dest 3 op src) (by decide))

theorem movReservedOp (delay : BitVec 5) (dest : BitVec 3) (src : BitVec 3) :
    Statement (.movReservedOp delay dest src) :=
  congrArg some (matches_mov 5 delay _ (movArg 0 3 0) _ _ _ _ (by decide) (movArg_and_op dest 3 src) (by decide))

theorem movReservedSrc (delay : BitVec 5) (dest : BitVec 3) (op : BitVec 2) :
    Statement (.movReservedSrc delay dest op) :=
  congrArg some (matches_mov 5 delay _ (movArg 0 0 7) _ _ _ _ (by decide) (movArg_and_src dest op 4) (by decide))

theorem movOther (delay : BitVec 5) (dest : BitVec 3) (op : BitVec 2) (src : BitVec 3) :
    Statement (.movOther delay dest op src) :=
  congrArg some (matches_class 5 delay _ _ _ (by decide))

theorem irqRefused (delay : BitVec 5) (arg : BitVec 8) :
    Statement (.irqRefused delay arg) :=
  congrArg some (matches_class _ delay arg _ _ (by decide))

theorem setReserved3 (delay : BitVec 5) (data : BitVec 5) :
    Statement (.setReserved3 delay data) :=
  congrArg some (matches_sel 7 3 delay data _ _ (by decide))

theorem setReserved5 (delay : BitVec 5) (data : BitVec 5) :
    Statement (.setReserved5 delay data) :=
  congrArg some (matches_sel 7 5 delay data _ _ (by decide))

theorem setReserved6 (delay : BitVec 5) (data : BitVec 5) :
    Statement (.setReserved6 delay data) :=
  congrArg some (matches_sel 7 6 delay data _ _ (by decide))

theorem setReserved7 (delay : BitVec 5) (data : BitVec 5) :
    Statement (.setReserved7 delay data) :=
  congrArg some (matches_sel 7 7 delay data _ _ (by decide))

end Sys2Proof.Laws.MatchesItsRow
end

