-- ==== Sys2Proof/Laws/Registers.lean ====
section
/-! SUPPORT. The host's accesses, said once: which register answers at which offset, what a write can come to
(`writeReg_cases`), and what a step of the host can come to (`hostTurn_cases`). -/

namespace Sys2Proof.Machine

/-! ## Offsets (R36, R76) -/

/-- Every register answers at its own offset. -/
@[simp] theorem regAt_regOffset (r : Reg) : regAt (regOffset r) = some r := by
  cases r with
  | ctrl | fstat | fdebug | flevel => rfl
  | txf i => revert i; decide
  | instrMem a => revert a; decide
  | clkdiv i | execctrl i | shiftctrl i | addr i | instr i | pinctrl i => revert i; decide

/-- No offset from 0x128 on is a register's. -/
theorem regAt_eq_none_of_le {off : Nat} (h : 0x128 ≤ off) : regAt off = none := by
  unfold regAt
  repeat' split
  all_goals first
    | rfl
    | omega

/-- No other offset is a register's. -/
theorem regAt_eq_some {off : Nat} {r : Reg} (h : regAt off = some r) : off = regOffset r := by
  have key : ∀ o : Fin 0x128,
      (match regAt o.val with | some q => decide (o.val = regOffset q) | none => true) = true := by
    decide +kernel
  by_cases hlt : off < 0x128
  · have := key ⟨off, hlt⟩
    rw [h] at this
    exact of_decide_eq_true this
  · rw [regAt_eq_none_of_le (by omega)] at h; cases h

@[simp] theorem hostRead_regOffset (s : State) (r : Reg) : hostRead s 32 (regOffset r) = readReg s r := by
  simp [hostRead]

@[simp] theorem hostWrite_regOffset (s : State) (r : Reg) (v : Word) :
    hostWrite s 32 (regOffset r) v = writeReg s r v := by
  simp [hostWrite]

/-! ## The four machines together -/

/-- Four machines written one after the other. -/
theorem State.sm_setAll (s : State) (f : Fin 4 → SM) (k : Fin 4) :
    ((((s.setSm 0 (f 0)).setSm 1 (f 1)).setSm 2 (f 2)).setSm 3 (f 3)).sm k = f k := by
  simp only [State.sm_setSm]
  revert k
  intro k
  match k with
  | 0 => rfl
  | 1 => rfl
  | 2 => rfl
  | 3 => rfl

/-- Two states whose machines agree hold the same vector of machines. -/
theorem State.sms_ext {s t : State} (h : ∀ k, s.sm k = t.sm k) : s.sms = t.sms := by
  apply Vector.ext
  intro i hi
  exact h ⟨i, hi⟩

theorem State.anyEnabled_iff (s : State) : s.anyEnabled = true ↔ ∃ k, (s.sm k).enabled = true := by
  unfold State.anyEnabled
  constructor
  · intro h
    simp only [Bool.or_eq_true] at h
    rcases h with ((h | h) | h) | h
    exacts [⟨0, h⟩, ⟨1, h⟩, ⟨2, h⟩, ⟨3, h⟩]
  · rintro ⟨k, h⟩
    match k with
    | 0 => simp [h]
    | 1 => simp [h]
    | 2 => simp [h]
    | 3 => simp [h]

theorem State.anyEnabled_eq_false (s : State) : s.anyEnabled = false ↔ ∀ k, (s.sm k).enabled = false := by
  rw [← Bool.not_eq_true, State.anyEnabled_iff]
  simp

/-! ## Writes -/

/-- A write of a configuration register left everything but the configuration. -/
abbrev SM.sameWork (m m' : SM) : Prop :=
  m' = { m with
    clkdiv := m'.clkdiv, execctrl := m'.execctrl, shiftctrl := m'.shiftctrl, pinctrl := m'.pinctrl }

/-- Everything one register write of the host can come to. -/
inductive State.Wrote (s : State) : State → Prop
  /-- It was refused. -/
  | refused (r : Refusal) : State.Wrote s (s.refuseHost r)
  /-- It wrote CTRL. -/
  | ctrl (t : State) (v : Word) (h : ctrlAdmits s v = true) (hk : ∀ k, t.sm k = ctrlSm s v k)
      (ht : t = { s with sms := t.sms }) : State.Wrote s t
  /-- It cleared bits of FDEBUG. -/
  | debug (t : State) (v : Word) (hk : ∀ k, t.sm k = clearDebug (s.sm k) k v)
      (ht : t = { s with sms := t.sms }) : State.Wrote s t
  /-- It pushed a word. -/
  | push (k : Fin 4) (w : Word) : State.Wrote s (s.setSm k ((s.sm k).fifoPush w))
  /-- It configured a disabled machine; the capacity changed only of an empty FIFO. -/
  | config (k : Fin 4) (m : SM) (hd : (s.sm k).enabled = false) (hw : (s.sm k).sameWork m)
      (hok : (s.sm k).configOk → m.configOk) (hcap : m.cap = (s.sm k).cap ∨ (s.sm k).txf = []) :
      State.Wrote s (s.setSm k m)
  /-- It placed the PC of a disabled machine. -/
  | jump (k : Fin 4) (pc : Slot) (hd : (s.sm k).enabled = false) :
      State.Wrote s (s.setSm k { s.sm k with pc := pc, jumped := (s.sm k).restarted })
  /-- It loaded a slot while no machine was enabled. -/
  | load (a : Fin 32) (w : Half) (hd : ∀ k, (s.sm k).enabled = false) :
      State.Wrote s { s with imem := Memory.write s.imem a.val w }

/-- A masked EXECCTRL value is admitted if the value was, and its bit 31 is clear. -/
theorem execctrlAdmits_mask (v : Word) (h : execctrlAdmits v = true) :
    execctrlAdmits (v &&& 0x7FFFFFFF) = true ∧ (v &&& 0x7FFFFFFF).getLsbD 31 = false := by
  have low : ∀ st n : Nat, st + n ≤ 31 →
      (v &&& 0x7FFFFFFF#32).extractLsb' st n = v.extractLsb' st n := by
    intro st n hn
    apply BitVec.eq_of_getLsbD_eq
    intro i hi
    have hm : (0x7FFFFFFF#32).getLsbD (st + i) = true := by
      have : ∀ j : Fin 31, (0x7FFFFFFF#32).getLsbD j.val = true := by decide
      exact this ⟨st + i, by omega⟩
    rw [BitVec.getLsbD_extractLsb', BitVec.getLsbD_extractLsb', BitVec.getLsbD_and, hm, Bool.and_true]
  constructor
  · unfold execctrlAdmits at h ⊢
    rw [show (v &&& 0x7FFFFFFF : Word) = v &&& 0x7FFFFFFF#32 from rfl,
      low 29 2 (by omega), low 17 2 (by omega), low 5 2 (by omega)]
    exact h
  · rw [BitVec.getLsbD_and]
    exact Bool.and_false _

theorem writeConfig_cases (s : State) (k : Fin 4) (admitted : Bool) (m : SM)
    (hw : (s.sm k).sameWork m) (hok : admitted = true → (s.sm k).configOk → m.configOk)
    (hcap : admitted = true → m.cap = (s.sm k).cap ∨ (s.sm k).txf = []) :
    s.Wrote (writeConfig s k admitted m) := by
  unfold writeConfig
  split
  · rename_i h
    simp only [Bool.and_eq_true, Bool.not_eq_true'] at h
    exact .config k m h.1 hw (hok h.2) (hcap h.2)
  · exact .refused _

/-- Every register write comes to one of those `State.Wrote` lists. -/
theorem writeReg_cases (s : State) (r : Reg) (v : Word) : s.Wrote (writeReg s r v) := by
  cases r with
  | ctrl =>
    show s.Wrote (writeCtrl s v)
    unfold writeCtrl
    split
    · exact .ctrl _ v (by assumption) (State.sm_setAll s (ctrlSm s v)) rfl
    · exact .refused _
  | fstat | flevel | addr => exact .refused _
  | fdebug =>
    unfold writeReg
    dsimp only
    split
    · exact .debug _ v (State.sm_setAll s fun k => clearDebug (s.sm k) k v) rfl
    · exact .refused _
  | txf i => exact .push i v
  | instrMem a =>
    unfold writeReg
    dsimp only
    split
    · rename_i h
      simp only [Bool.and_eq_true, Bool.not_eq_true'] at h
      exact .load a _ ((State.anyEnabled_eq_false s).1 h.1)
    · exact .refused _
  | clkdiv i =>
    exact writeConfig_cases s i _ _ rfl (fun h c => ⟨h, c.2⟩) fun _ => .inl rfl
  | execctrl i =>
    refine writeConfig_cases s i _ _ rfl (fun h c => ?_) fun _ => .inl rfl
    have := execctrlAdmits_mask v h
    exact ⟨c.1, this.1, this.2, c.2.2.2⟩
  | shiftctrl i =>
    refine writeConfig_cases s i _ _ rfl (fun h c => ?_) fun h => ?_
    · simp only [Bool.and_eq_true] at h
      exact ⟨c.1, c.2.1, c.2.2.1, h.1, c.2.2.2.2⟩
    · simp only [Bool.and_eq_true, Bool.or_eq_true, beq_iff_eq] at h
      rcases h.2 with e | e
      · left
        show (if v.getLsbD 30 then 8 else 4) = if (s.sm i).fjoinTx then 8 else 4
        rw [e]
      · right
        simpa [SM.fifoEmpty] using e
  | instr i =>
    unfold writeReg
    dsimp only
    split
    · rename_i h
      simp only [Bool.and_eq_true, Bool.not_eq_true'] at h
      exact .jump i _ h.1
    · exact .refused _
  | pinctrl i =>
    exact writeConfig_cases s i _ _ rfl (fun h c => ⟨c.1, c.2.1, c.2.2.1, c.2.2.2.1, h⟩) fun _ => .inl rfl

theorem hostWrite_cases (s : State) (width off : Nat) (v : Word) : s.Wrote (hostWrite s width off v) := by
  unfold hostWrite
  split
  · split
    · exact writeReg_cases s _ v
    · exact .refused _
  · exact .refused _

/-- A register write does not look at the host's queue. -/
theorem State.Wrote.of_hostq {s t : State} {q : List HostItem}
    (h : State.Wrote { s with hostq := q } t) : ∃ u, s.Wrote u ∧ t = { u with hostq := q } := by
  cases h with
  | refused r => exact ⟨_, .refused r, rfl⟩
  | ctrl _ v ha hk ht =>
    exact ⟨{ s with sms := t.sms }, .ctrl _ v ha hk rfl, ht⟩
  | debug _ v hk ht => exact ⟨{ s with sms := t.sms }, .debug _ v hk rfl, ht⟩
  | push k w => exact ⟨_, .push k w, rfl⟩
  | config k m hd hw hok hcap => exact ⟨_, .config k m hd hw hok hcap, rfl⟩
  | jump k pc hd => exact ⟨_, .jump k pc hd, rfl⟩
  | load a w hd => exact ⟨_, .load a w hd, rfl⟩

/-! ## Reads -/

/-- A read changes the results and the count of draws, or is refused. -/
theorem readReg_cases (s : State) (r : Reg) :
    (∃ rs n, readReg s r = { s with results := rs, hostDraws := n }) ∨
    ∃ q, readReg s r = s.refuseHost q := by
  cases r with
  | txf i | instrMem a => exact .inr ⟨_, rfl⟩
  | instr i =>
    unfold readReg
    dsimp only
    split
    · exact .inl ⟨_, _, rfl⟩
    · exact .inl ⟨_, _, rfl⟩
  | _ => exact .inl ⟨_, _, rfl⟩

/-! ## A step of the host -/

/-- Everything one operation of the host can come to: at most one register write, then its queue, its results,
its draws, and (at the construction of a driver, with no machine enabled) the number of channels. -/
theorem hostAct_cases (s t : State) (it : HostItem) (rest : List HostItem) (h : hostAct s it rest = some t) :
    ∃ u q rs n c, (u = s ∨ s.Wrote u) ∧ (c = s.nCh ∨ ∀ k, (s.sm k).enabled = false) ∧
      t = { u with hostq := q, results := rs, hostDraws := n, nCh := c } := by
  have quiet : ∀ (q : List HostItem) (rs : List HostResult),
      ∃ u q' rs' n c, (u = s ∨ s.Wrote u) ∧ (c = s.nCh ∨ ∀ k, (s.sm k).enabled = false) ∧
        { s with hostq := q, results := rs } = { u with hostq := q', results := rs', hostDraws := n, nCh := c } :=
    fun q rs => ⟨s, q, rs, s.hostDraws, s.nCh, .inl rfl, .inl rfl, rfl⟩
  have wrote : ∀ (x : State) (q : List HostItem) (rs : List HostResult → List HostResult),
      State.Wrote { s with hostq := q } x →
      ∃ u q' rs' n c, (u = s ∨ s.Wrote u) ∧ (c = s.nCh ∨ ∀ k, (s.sm k).enabled = false) ∧
        { x with results := rs x.results } =
          { u with hostq := q', results := rs', hostDraws := n, nCh := c } := by
    intro x q rs hx
    obtain ⟨u, hu, rfl⟩ := hx.of_hostq
    refine ⟨u, q, rs u.results, u.hostDraws, u.nCh, .inr hu, .inl ?_, rfl⟩
    cases hu with
    | ctrl _ _ _ _ ht => rw [ht]
    | debug _ _ _ ht => rw [ht]
    | _ => rfl
  have refused : ∀ (q : List HostItem) (r : Refusal),
      ∃ u q' rs' n c, (u = s ∨ s.Wrote u) ∧ (c = s.nCh ∨ ∀ k, (s.sm k).enabled = false) ∧
        State.refuseHost { s with hostq := q } r =
          { u with hostq := q', results := rs', hostDraws := n, nCh := c } :=
    fun q r => wrote _ q id (.refused r)
  unfold hostAct at h
  dsimp only at h
  split at h
  · obtain rfl := Option.some.inj h
    unfold hostRead
    split
    · split
      · rcases readReg_cases { s with hostq := rest } (by assumption) with ⟨rs, n, e⟩ | ⟨q, e⟩
        · rw [e]; exact ⟨s, rest, rs, n, s.nCh, .inl rfl, .inl rfl, rfl⟩
        · rw [e]; exact refused rest q
      · exact refused rest _
    · exact refused rest _
  · obtain rfl := Option.some.inj h
    exact wrote _ rest id (hostWrite_cases _ _ _ _)
  · rename_i ones _
    obtain rfl := Option.some.inj h
    exact wrote (writeReg { s with hostq := rest } .ctrl (s.ctrl ||| ones)) rest id (writeReg_cases _ _ _)
  · split at h
    · obtain rfl := Option.some.inj h; exact quiet rest _
    · obtain rfl := Option.some.inj h; exact quiet _ s.results
  · obtain rfl := Option.some.inj h
    exact wrote _ rest (· ++ [.flag true]) (hostWrite_cases _ _ _ _)
  · split at h
    · cases h
    · obtain rfl := Option.some.inj h
      exact wrote _ rest (· ++ [.flag true]) (hostWrite_cases _ _ _ _)
  · obtain rfl := Option.some.inj h
    exact wrote _ rest (· ++ [.flag true]) (hostWrite_cases _ _ _ _)
  · obtain rfl := Option.some.inj h; exact quiet _ s.results
  · obtain rfl := Option.some.inj h; exact quiet rest _
  · split at h
    · obtain rfl := Option.some.inj h; exact quiet _ s.results
    · obtain rfl := Option.some.inj h; exact quiet rest _
  · obtain rfl := Option.some.inj h; exact quiet _ s.results
  · obtain rfl := Option.some.inj h; exact quiet _ s.results
  · obtain rfl := Option.some.inj h; exact quiet _ s.results
  · split at h
    · obtain rfl := Option.some.inj h; exact refused rest _
    · split at h
      · obtain rfl := Option.some.inj h; exact refused rest _
      · rename_i he
        split at h
        · obtain rfl := Option.some.inj h
          exact ⟨s, _, s.results, s.hostDraws, _, .inl rfl,
            .inr ((State.anyEnabled_eq_false s).1 (by simpa using he)), rfl⟩
        · obtain rfl := Option.some.inj h; exact quiet rest _

/-- Everything a step of the host can come to: it leaves the boundary, or does one operation. -/
theorem hostTurn_cases (s : State) :
    hostTurn s = s.leaveBoundary ∨
    ∃ u q rs n c, (u = s ∨ s.Wrote u) ∧ (c = s.nCh ∨ ∀ k, (s.sm k).enabled = false) ∧
      hostTurn s = { u with hostq := q, results := rs, hostDraws := n, nCh := c } := by
  unfold hostTurn
  split
  · exact .inl rfl
  · rename_i it rest _
    split
    · cases h : hostAct s it rest with
      | none => exact .inl rfl
      | some t => exact .inr (hostAct_cases s t it rest h)
    · exact .inl rfl

end Sys2Proof.Machine
end

