-- ==== Sys2Proof/Laws/Step.lean ====
section
/-! SUPPORT. What a step can come to, said once: the end of a turn, the turn of a machine (`smTurn_cases`), and
a step of the block (`step_cases`); and what `withFetchWord` places. -/

namespace Sys2Proof.Machine

/-! ## The end of a turn -/

@[simp] theorem State.endTurn_sms (s : State) : s.endTurn.sms = s.sms := by
  unfold State.endTurn; split <;> rfl

@[simp] theorem State.endTurn_sm (s : State) (k : Fin 4) : s.endTurn.sm k = s.sm k :=
  congrArg (fun v : Vector SM 4 => v[k.val]) s.endTurn_sms

@[simp] theorem State.endTurn_imem (s : State) : s.endTurn.imem = s.imem := by
  unfold State.endTurn; split <;> rfl

@[simp] theorem State.endTurn_pinOut (s : State) : s.endTurn.pinOut = s.pinOut := by
  unfold State.endTurn; split <;> rfl

@[simp] theorem State.endTurn_pinOe (s : State) : s.endTurn.pinOe = s.pinOe := by
  unfold State.endTurn; split <;> rfl

@[simp] theorem State.endTurn_faults (s : State) : s.endTurn.faults = s.faults := by
  unfold State.endTurn; split <;> rfl

@[simp] theorem State.endTurn_refused (s : State) : s.endTurn.refused = s.refused := by
  unfold State.endTurn; split <;> rfl

@[simp] theorem State.endTurn_nCh (s : State) : s.endTurn.nCh = s.nCh := by
  unfold State.endTurn; split <;> rfl

@[simp] theorem State.endTurn_hostq (s : State) : s.endTurn.hostq = s.hostq := by
  unfold State.endTurn; split <;> rfl

@[simp] theorem State.endTurn_results (s : State) : s.endTurn.results = s.results := by
  unfold State.endTurn; split <;> rfl

/-! ## The turn of a machine -/

/-- A turn is no step, or it is a delay cycle, a fetch fault or one instruction, and then the end of the pulse. -/
theorem smTurn_cases (s : State) :
    (s.due s.active = false ∧ smTurn s = .next s.endTurn) ∨
    (s.due s.active = true ∧ ∃ u, smTurn s = .next u.endPulse ∧
      (u = s.setCur s.cur.delayCycle ∨ u = s.raise (.fetchUnloaded s.active s.cur.pc) ∨
        ∃ i, s.Ends i u)) := by
  unfold smTurn
  split
  · rename_i hd
    refine .inr ⟨hd, ?_⟩
    split
    · exact ⟨_, rfl, .inl rfl⟩
    · split
      · exact ⟨_, rfl, .inr (.inl rfl)⟩
      · rename_i w _
        obtain ⟨t, ht, he⟩ := exec_cases (decode w) s
        rw [ht]
        exact ⟨t, rfl, .inr (.inr ⟨_, he⟩)⟩
  · rename_i hd
    exact .inl ⟨by simpa using hd, rfl⟩

/-- A step is one of the host at a boundary, else the turn of a machine. -/
theorem step_cases {s t : State} (h : step s = .next t) :
    (s.boundary = true ∧ t = hostTurn s) ∨
    (s.boundary = false ∧ s.due s.active = false ∧ t = s.endTurn) ∨
    (s.boundary = false ∧ s.due s.active = true ∧ ∃ u, t = u.endPulse ∧
      (u = s.setCur s.cur.delayCycle ∨ u = s.raise (.fetchUnloaded s.active s.cur.pc) ∨
        ∃ i, s.Ends i u)) := by
  unfold step at h
  split at h
  · rename_i hb
    exact .inl ⟨hb, (Host.Outcome.next.inj h).symm⟩
  · rename_i hb
    have hb : s.boundary = false := by simpa using hb
    rcases smTurn_cases s with ⟨hd, e⟩ | ⟨hd, u, e, hu⟩
    · rw [e] at h; exact .inr (.inl ⟨hb, hd, (Host.Outcome.next.inj h).symm⟩)
    · rw [e] at h; exact .inr (.inr ⟨hb, hd, u, (Host.Outcome.next.inj h).symm, hu⟩)

/-! ## Placing an instruction -/

/-- The next step after `withFetchWord` is a turn of a machine, no step of the host. -/
@[simp] theorem State.withFetchWord_boundary (s : State) (nbits w : Nat) :
    (s.withFetchWord nbits w).boundary = false := rfl

/-- The placed word is in the slot the next step fetches. -/
theorem State.withFetchWord_fetch (s : State) (nbits w : Nat) :
    (s.withFetchWord nbits w).fetch = some (BitVec.ofNat 16 w) := by
  have hpc : (s.withFetchWord nbits w).cur.pc = (s.sm s.nextSm).pc := by
    show ((s.setSm s.nextSm _).sm s.nextSm).pc = _
    rw [State.sm_setSm_same]
  unfold State.fetch
  rw [hpc]
  exact Memory.read_write_self _ _ _

/-- The machine whose turn it is steps. -/
theorem State.withFetchWord_due (s : State) (nbits w : Nat) :
    (s.withFetchWord nbits w).due (s.withFetchWord nbits w).active = true := by
  have hm : (s.withFetchWord nbits w).sm s.nextSm =
      { s.sm s.nextSm with enabled := true, halted := false, delay := 0, nextEn := s.time } :=
    State.sm_setSm_same _ _ _
  show (s.withFetchWord nbits w).due s.nextSm = true
  unfold State.due State.dummy
  rw [hm]
  simp [State.withFetchWord]

/-- Placing a word keeps the instruction memory canonical. -/
theorem State.withFetchWord_wf (s : State) (nbits w : Nat) (h : Memory.wf s.imem) :
    Memory.wf (s.withFetchWord nbits w).imem :=
  Memory.wf_write _ (BitVec.isLt _) h

end Sys2Proof.Machine
end

