-- ==== Sys2Proof/Machine/Assembler.lean ====
section
/-! DEFINITION. The assembler of the admitted forms (30_encoding R116, R117): its lines as data, what they
assemble to, and how each is written; and the listing of the waveform program (45_dshot_program R230). No
step of the block reads any of it: the host installs words. -/

namespace Sys2Proof.Machine

/-! ## Lines (R116) -/

/-- The target of a JMP: a label or a slot number. -/
inductive AsmTarget where
  | name (label : String)
  | slot (n : Nat)
deriving DecidableEq, Repr

/-- The written conditions of a JMP; an omitted one means always. -/
inductive AsmCond where
  | notX
  | xDec
  | notY
  | yDec
  | xNeY
  | pin
  | notOsre
deriving DecidableEq, Repr

/-- The destinations of `out`. -/
inductive AsmOutDest where
  | x
  | y
  | null
deriving DecidableEq, Repr

/-- The destinations of `set`. -/
inductive AsmSetDest where
  | pins
  | x
  | y
  | pindirs
deriving DecidableEq, Repr

/-- An instruction as written, without its delay. -/
inductive AsmOp where
  | jmp (cond : Option AsmCond) (target : AsmTarget)
  | out (dest : AsmOutDest) (n : Nat)
  | pull (ifempty : Bool) (block : Option Bool)
  | set (dest : AsmSetDest) (v : Nat)
  | nop
deriving DecidableEq, Repr

/-- A line: `label:`, `.wrap_target`, `.wrap`, or an instruction with its delay, an omitted one 0. -/
inductive AsmLine where
  | label (name : String)
  | wrapTarget
  | wrap
  | op (o : AsmOp) (delay : Option Nat)
deriving DecidableEq, Repr

/-! ## Assembling -/

/-- A number of a five-bit field, 0 to 31. -/
def asmFive (n : Nat) : Option (BitVec 5) := if n < 32 then some (BitVec.ofNat 5 n) else none

/-- The JMP of a condition; an omitted one is COND 000 (R117). -/
def asmJmp (d : BitVec 5) (a : Slot) : Option AsmCond → Instr
  | none => .jmp d a
  | some .notX => .jmpNotX d a
  | some .xDec => .jmpXDec d a
  | some .notY => .jmpNotY d a
  | some .yDec => .jmpYDec d a
  | some .xNeY => .jmpXNeY d a
  | some .pin => .jmpPin d a
  | some .notOsre => .jmpNotOsre d a

/-- The PULL of its two words; an omitted block or noblock means block (R116). -/
def asmPull (d : BitVec 5) (ifempty block : Bool) : Instr :=
  if ifempty then (if block then .pullIfemptyBlock d else .pullIfemptyNoblock d)
  else (if block then .pullBlock d else .pullNoblock d)

/-- The slot of a target, by the program's labels. -/
def asmSlot (labels : List (String × Nat)) : AsmTarget → Option Slot
  | .slot n => asmFive n
  | .name l => (labels.lookup l).bind asmFive

/-- One instruction; `none` where a number is out of its range or a label is not there. -/
def asmOp (labels : List (String × Nat)) (d : BitVec 5) : AsmOp → Option Instr
  | .jmp cond target => (asmSlot labels target).map fun a => asmJmp d a cond
  | .out dest n =>
    if 1 ≤ n ∧ n ≤ 32 then
      let count := BitVec.ofNat 5 n
      some (match dest with
        | .x => .outX d count
        | .y => .outY d count
        | .null => .outNull d count)
    else none
  | .pull ifempty block => some (asmPull d ifempty (block.getD true))
  | .set dest v =>
    (asmFive v).map fun data =>
      match dest with
      | .pins => .setPins d data
      | .x => .setX d data
      | .y => .setY d data
      | .pindirs => .setPindirs d data
  | .nop => some (.nop d)

/-- The labels with the slots of the instructions after them, the first instruction at slot `at_` (R116). DESIGN
CHOICE: a label with no instruction after it names the slot after the last one (log 32). -/
def asmLabels : List AsmLine → Nat → List (String × Nat)
  | [], _ => []
  | .label l :: rest, at_ => (l, at_) :: asmLabels rest at_
  | .op _ _ :: rest, at_ => asmLabels rest (at_ + 1)
  | .wrapTarget :: rest, at_ => asmLabels rest at_
  | .wrap :: rest, at_ => asmLabels rest at_

/-- The words of the instructions, in order. -/
def asmWords (labels : List (String × Nat)) : List AsmLine → Option (List Half)
  | [] => some []
  | .op o delay :: rest => do
    let d ← asmFive (delay.getD 0)
    let i ← asmOp labels d o
    let words ← asmWords labels rest
    some (encode i :: words)
  | .label _ :: rest => asmWords labels rest
  | .wrapTarget :: rest => asmWords labels rest
  | .wrap :: rest => asmWords labels rest

/-- The slot `.wrap_target` marks: that of the next instruction, WRAP_BOTTOM (R116, R232; PRESUMED, log 26).
DESIGN CHOICE: with no instruction after it, it marks the slot after the last one, and the first one counts
where there are several (log 32). -/
def asmWrapBottom : List AsmLine → Nat → Option Nat
  | [], _ => none
  | .wrapTarget :: _, at_ => some at_
  | .op _ _ :: rest, at_ => asmWrapBottom rest (at_ + 1)
  | .label _ :: rest, at_ => asmWrapBottom rest at_
  | .wrap :: rest, at_ => asmWrapBottom rest at_

/-- The slot `.wrap` marks: that of the instruction before it, WRAP_TOP (R116, R232; PRESUMED,
log 26). DESIGN CHOICE: with no instruction before it, it marks no slot, and the first one counts where there
are several (log 32). -/
def asmWrapTop : List AsmLine → Nat → Option Nat
  | [], _ => none
  | .wrap :: _, at_ => if at_ = 0 then none else some (at_ - 1)
  | .op _ _ :: rest, at_ => asmWrapTop rest (at_ + 1)
  | .label _ :: rest, at_ => asmWrapTop rest at_
  | .wrapTarget :: rest, at_ => asmWrapTop rest at_

/-- A program's words relative to its first instruction; `none` where a line does not assemble, a label is
given twice, or the words do not fit the 32 slots (both DESIGN CHOICE, log 32). -/
def asmProgram (lines : List AsmLine) : Option (List Half) :=
  let labels := asmLabels lines 0
  if (labels.map Prod.fst).Nodup then
    (asmWords labels lines).bind fun ws => if ws.length ≤ 32 then some ws else none
  else none

/-! ## How a line is written (R116) -/

/-- The name of a target. -/
def AsmTarget.text : AsmTarget → String
  | .name l => l
  | .slot n => toString n

/-- A condition. -/
def AsmCond.text : AsmCond → String
  | .notX => "!x"
  | .xDec => "x--"
  | .notY => "!y"
  | .yDec => "y--"
  | .xNeY => "x!=y"
  | .pin => "pin"
  | .notOsre => "!osre"

/-- An instruction without its delay. -/
def AsmOp.text : AsmOp → String
  | .jmp none t => "jmp " ++ t.text
  | .jmp (some c) t => "jmp " ++ c.text ++ ", " ++ t.text
  | .out d n =>
    "out " ++ (match d with | .x => "x" | .y => "y" | .null => "null") ++ ", " ++ toString n
  | .pull ife b =>
    "pull" ++ (if ife then " ifempty" else "") ++
      (match b with | none => "" | some true => " block" | some false => " noblock")
  | .set d v =>
    "set " ++ (match d with | .pins => "pins" | .x => "x" | .y => "y" | .pindirs => "pindirs") ++
      ", " ++ toString v
  | .nop => "nop"

/-- A line. -/
def AsmLine.text : AsmLine → String
  | .label l => l ++ ":"
  | .wrapTarget => ".wrap_target"
  | .wrap => ".wrap"
  | .op o none => o.text
  | .op o (some d) => o.text ++ " [" ++ toString d ++ "]"

/-! ## Reading a program's text (R116; DESIGN CHOICE in what R116 leaves open of it, log 32) -/

/-- The line without its comment, which `;` or `//` begins. -/
def asmUncomment : List Char → List Char
  | [] => []
  | ';' :: _ => []
  | '/' :: '/' :: _ => []
  | c :: cs => c :: asmUncomment cs

/-- The words and marks of a line: `,`, `:`, `[` and `]` stand alone, blanks part the rest; `word` is what was
read of the present word, last character first. -/
def asmTokens : List Char → List Char → List String
  | [], word => if word.isEmpty then [] else [String.ofList word.reverse]
  | c :: cs, word =>
    let done := if word.isEmpty then [] else [String.ofList word.reverse]
    if c = ' ' ∨ c = '\t' ∨ c = '\r' then done ++ asmTokens cs []
    else if c = ',' ∨ c = ':' ∨ c = '[' ∨ c = ']' then done ++ String.ofList [c] :: asmTokens cs []
    else asmTokens cs (c :: word)

/-- A decimal number (DESIGN CHOICE: no other base, log 32). -/
def asmNumber (s : String) : Option Nat :=
  if s.toList.isEmpty || !s.toList.all Char.isDigit then none
  else some (s.toList.foldl (fun n c => 10 * n + (c.toNat - 48)) 0)

/-- A target: a label or a slot number (R116). DESIGN CHOICE: digits are always a slot number, also where a label
of that name stands (log 32). -/
def asmReadTarget (s : String) : AsmTarget :=
  match asmNumber s with
  | some n => .slot n
  | none => .name s

/-- A condition. -/
def asmReadCond (s : String) : Option AsmCond :=
  [AsmCond.notX, .xDec, .notY, .yDec, .xNeY, .pin, .notOsre].find? fun c => c.text == s

/-- A destination of `out`. -/
def asmReadOutDest (s : String) : Option AsmOutDest :=
  if s = "x" then some .x else if s = "y" then some .y else if s = "null" then some .null else none

/-- A destination of `set`. -/
def asmReadSetDest (s : String) : Option AsmSetDest :=
  if s = "pins" then some .pins
  else if s = "x" then some .x
  else if s = "y" then some .y
  else if s = "pindirs" then some .pindirs
  else none

/-- An instruction and what stands after it on its line. -/
def asmReadOp : List String → Option (AsmOp × List String)
  | "nop" :: rest => some (.nop, rest)
  | "jmp" :: a :: "," :: b :: rest => (asmReadCond a).map fun c => (.jmp (some c) (asmReadTarget b), rest)
  | "jmp" :: a :: rest => some (.jmp none (asmReadTarget a), rest)
  | "out" :: a :: "," :: b :: rest => do
    let d ← asmReadOutDest a
    let n ← asmNumber b
    some (.out d n, rest)
  | "set" :: a :: "," :: b :: rest => do
    let d ← asmReadSetDest a
    let v ← asmNumber b
    some (.set d v, rest)
  | "pull" :: "ifempty" :: "block" :: rest => some (.pull true (some true), rest)
  | "pull" :: "ifempty" :: "noblock" :: rest => some (.pull true (some false), rest)
  | "pull" :: "ifempty" :: rest => some (.pull true none, rest)
  | "pull" :: "block" :: rest => some (.pull false (some true), rest)
  | "pull" :: "noblock" :: rest => some (.pull false (some false), rest)
  | "pull" :: rest => some (.pull false none, rest)
  | _ => none

/-- The lines that the words of one line of text give, its labels done: none, a marker, or an instruction
with its delay. -/
def asmReadStatement : List String → Option (List AsmLine)
  | [] => some []
  | [".wrap_target"] => some [.wrapTarget]
  | [".wrap"] => some [.wrap]
  | ws =>
    match asmReadOp ws with
    | some (o, []) => some [.op o none]
    | some (o, ["[", d, "]"]) => (asmNumber d).map fun n => [.op o (some n)]
    | _ => none

/-- One line of text: labels, each with its colon, and then a statement. -/
def asmReadLine : List String → Option (List AsmLine)
  | l :: ":" :: rest => (asmReadLine rest).map (AsmLine.label l :: ·)
  | ws => asmReadStatement ws

/-- The lines of a text, parted at line ends; `line` is what was read of the present one, last character
first. -/
def asmSplit : List Char → List Char → List (List Char)
  | [], line => [line.reverse]
  | c :: cs, line => if c = '\n' then line.reverse :: asmSplit cs [] else asmSplit cs (c :: line)

/-- The program a text gives, or `none` where some line is no line of R116. -/
def asmRead (text : String) : Option (List AsmLine) :=
  ((asmSplit text.toList []).mapM fun line => asmReadLine (asmTokens (asmUncomment line) [])).map List.flatten

/-! ## The listing (R230, R232) -/

/-- The waveform program as R230 lists it, with the wrap markers of R232. -/
def dshotListing : List AsmLine :=
  [.op (.set .pindirs 1) none,
   .wrapTarget,
   .label "entry", .op (.pull false (some true)) none,
   .op (.out .null 16) none,
   .op (.set .x 15) none,
   .label "loop", .op (.set .pins 1) none,
   .op (.out .y 1) none,
   .op (.jmp (some .notY) (.name "zero")) none,
   .op .nop (some 2),
   .label "one", .op (.set .pins 0) none] ++
  [.op (.jmp (some .xDec) (.name "loop")) none,
   .op (.jmp none (.name "reset")) none,
   .label "zero", .op (.set .pins 0) (some 3),
   .op (.jmp (some .xDec) (.name "loop")) none,
   .op (.jmp none (.name "reset")) none,
   .label "reset", .op .nop (some 31),
   .op .nop (some 31),
   .op .nop (some 31),
   .op (.jmp none (.name "entry")) (some 31),
   .wrap]

end Sys2Proof.Machine
end

