-- ==== Sys2Proof/Tests/Slice0.lean ====
section
/-! SUPPORT. The model's own tests: ill-formed terms are refused, words written out from the spec decode, one
step at a time does what the vectors of 95_test_vectors say (each test names its vector), and, for every
statement that has hypotheses, a state and operands that meet them (`witness_…`). -/

namespace Sys2Proof.Tests

open Sys2Proof Sys2Proof.Machine

/-! ## Helpers -/

/-- A block at rest whose latches are low, with machine 0 as given, in the middle of cycle 0. -/
def block (m : SM) : State :=
  { State.reset with
    sms := Vector.replicate 4 SM.reset |>.set 0 m
    pinOut := Vector.replicate 32 false
    wireOut := Vector.replicate 32 false
    boundary := false }

/-- The same block at the host's boundary. -/
def atHost (m : SM) : State := { block m with boundary := true }

/-- The DShot channel on pin 6 (V81): left shift, auto-pull, SET group pin 6, wrap from 17 to 1. -/
def dshot : SM :=
  { SM.reset with execctrl := 0x06011080, shiftctrl := 0x00020000, pinctrl := 0x040000C6 }

/-- A machine with a left shift and no auto-pull. -/
def plain : SM := { SM.reset with shiftctrl := 0, pinctrl := 0x040000C6 }

/-- The outcome is a next state with property `p`. -/
def holds (o : Host.Outcome State Fault Refusal) (p : State → Bool) : Bool :=
  match o with
  | .next t => p t
  | .fault _ => false
  | .refused _ => false

/-! ## WellFormed: each check refuses an ill-formed term -/

theorem test_ill_formed_pull_reserved_low : wellFormed (.pullReserved 0 0 0) = false := by decide
theorem test_ill_formed_mov_op_dest : wellFormed (.movReservedOp 0 3 0) = false := by decide
theorem test_ill_formed_mov_src_dest : wellFormed (.movReservedSrc 0 3 0) = false := by decide
theorem test_ill_formed_mov_src_op : wellFormed (.movReservedSrc 0 0 3) = false := by decide
theorem test_ill_formed_mov_other_dest : wellFormed (.movOther 0 3 0 0) = false := by decide
theorem test_ill_formed_mov_other_op : wellFormed (.movOther 0 0 3 0) = false := by decide
theorem test_ill_formed_mov_other_src : wellFormed (.movOther 0 0 0 4) = false := by decide
theorem test_ill_formed_mov_other_nop : wellFormed (.movOther 0 2 0 2) = false := by decide
theorem test_well_formed :
    wellFormed (.pullReserved 0 3 31) = true ∧ wellFormed (.movReservedOp 31 2 4) = true ∧
    wellFormed (.movReservedSrc 0 2 0) = true ∧ wellFormed (.movOther 0 2 0 3) = true := by decide

/-! ## Decoding: words written out from the formats R102, R103, R106 to R108 and V1 to V28 -/

/-- V1, V2, V46. -/
theorem test_decode_jmp :
    decode 0x0000 = .jmp 0 0 ∧ decode 0x1F01 = .jmp 31 1 ∧ decode 0x0005 = .jmp 0 5 := by decide

/-- V31. -/
theorem test_decode_jmp_not_x :
    decode 0x0025 = .jmpNotX 0 5 := by decide

/-- V3. -/
theorem test_decode_jmp_x_dec :
    decode 0x0044 = .jmpXDec 0 4 := by decide

/-- V4. -/
theorem test_decode_jmp_not_y :
    decode 0x006B = .jmpNotY 0 11 := by decide

/-- V39. -/
theorem test_decode_jmp_y_dec :
    decode 0x0087 = .jmpYDec 0 7 := by decide

/-- V41. -/
theorem test_decode_jmp_x_ne_y :
    decode 0x00A2 = .jmpXNeY 0 2 := by decide

/-- V43. -/
theorem test_decode_jmp_pin :
    decode 0x00C9 = .jmpPin 0 9 := by decide

/-- V5. -/
theorem test_decode_jmp_not_osre :
    decode 0x00E1 = .jmpNotOsre 0 1 := by decide

/-- V61, V64. -/
theorem test_decode_out_x :
    decode 0x6022 = .outX 0 2 ∧ decode 0x6020 = .outX 0 0 := by decide

/-- V8. -/
theorem test_decode_out_y :
    decode 0x6041 = .outY 0 1 := by decide

/-- V6, V7. -/
theorem test_decode_out_null :
    decode 0x6070 = .outNull 0 16 ∧ decode 0x6060 = .outNull 0 0 := by decide

/-- V9 to V12. -/
theorem test_decode_pull :
    decode 0x80A0 = .pullBlock 0 ∧ decode 0x8080 = .pullNoblock 0 ∧
    decode 0x80E0 = .pullIfemptyBlock 0 ∧ decode 0x80C0 = .pullIfemptyNoblock 0 := by decide

/-- V13, V14. -/
theorem test_decode_nop :
    decode 0xA042 = .nop 0 ∧ decode 0xBF42 = .nop 31 := by decide

/-- V15 to V17, V59. -/
theorem test_decode_set :
    decode 0xE081 = .setPindirs 0 1 ∧ decode 0xE02F = .setX 0 15 ∧ decode 0xE300 = .setPins 3 0 ∧
    decode 0xE05F = .setY 0 31 := by decide

/-- V18, V19, V22, V26. -/
theorem test_decode_refused_classes :
    decode 0x2000 = .waitRefused 0 0 ∧ decode 0x4000 = .inRefused 0 0 ∧
    decode 0x8000 = .pushRefused 0 0 ∧ decode 0xC000 = .irqRefused 0 0 := by decide

/-- V20, V21, R111. -/
theorem test_decode_refused_outs :
    decode 0x6000 = .outPinsRefused 0 0 ∧ decode 0x6080 = .outPindirsRefused 0 0 ∧
    decode 0x60A0 = .outPcRefused 0 0 ∧ decode 0x60C0 = .outIsrRefused 0 0 ∧
    decode 0x60E0 = .outExecRefused 0 0 := by decide

/-- V23. -/
theorem test_decode_reserved_pull :
    decode 0x80A1 = .pullReserved 0 1 1 := by decide

/-- V24, V25, R107, R113. -/
theorem test_decode_reserved_movs :
    decode 0xA022 = .movOther 0 1 0 2 ∧ decode 0xA062 = .movReservedDest 0 0 2 ∧
    decode 0xA05A = .movReservedOp 0 2 2 ∧ decode 0xA044 = .movReservedSrc 0 2 0 := by decide

/-- V27, V28, R113. -/
theorem test_decode_reserved_sets :
    decode 0xE060 = .setReserved3 0 0 ∧ decode 0xE0A0 = .setReserved5 0 0 ∧
    decode 0xE0C0 = .setReserved6 0 0 ∧ decode 0xE0E0 = .setReserved7 0 0 := by decide

/-- The verdicts of V13, V18, V20 and V23. -/
theorem test_verdicts :
    verdict (decode 0xA042) = .admitted ∧ verdict (decode 0x2000) = .refusedClass ∧
    verdict (decode 0x6000) = .refusedDestination ∧ verdict (decode 0x80A1) = .reservedPattern := by decide

/-- The words of the program, written by the encoder. -/
theorem test_encode :
    encode (.jmp 31 1) = 0x1F01 ∧ encode (.outNull 0 16) = 0x6070 ∧ encode (.pullBlock 0) = 0x80A0 ∧
    encode (.nop 31) = 0xBF42 ∧ encode (.setPins 3 0) = 0xE300 ∧ encode (.pullReserved 0 1 1) = 0x80A1 ∧
    encode (.movOther 0 1 0 2) = 0xA022 := by decide

theorem test_table_word :
    decodeTableWord 16 0x0044 = some (.jmpXDec 0 4) ∧ decodeTableWord 16 0x10000 = none ∧
    decodeTableWord 32 0 = none := by decide

/-- R114: the bare pattern of the reserved PULL row is the word of an earlier row. -/
theorem test_pull_pattern_is_noblock : decodeTableWord 16 0x8080 = some (.pullNoblock 0) := by decide

theorem test_no_word : decodeWords [] = .error .noWord := by decide

/-- The image at origin 14 (section 2.1): offsets 6, 9, 10 and 17 move, offset 5 does not. -/
theorem test_relocation :
    (dshotAt 14)[6]? = some 0x0079 ∧ (dshotAt 14)[9]? = some 0x0052 ∧ (dshotAt 14)[10]? = some 0x001C ∧
    (dshotAt 14)[17]? = some 0x1F0F ∧ (dshotAt 14)[5]? = some 0x6041 := by decide

/-! ## One instruction (95_test_vectors 2.2 to 2.5) -/

/-- V30. -/
theorem test_jmp_at_wrap_top :
    holds (exec (.jmp 31 1) (block { dshot with pc := 17 })) (fun t =>
      t.cur.pc == 1 && t.cur.delay == 31) = true := by decide

/-- V31. -/
theorem test_jmp_not_x_taken :
    holds (exec (.jmpNotX 0 5) (block { plain with x := some 0, pc := 3 })) (fun t =>
      t.cur.pc == 5 && t.cur.x == some 0) = true := by decide

/-- V32. -/
theorem test_jmp_not_x_not_taken :
    holds (exec (.jmpNotX 0 5) (block { plain with x := some 0xFFFFFFFF, pc := 3 })) (fun t =>
      t.cur.pc == 4) = true := by decide

/-- V35. -/
theorem test_jmp_x_dec_wraps :
    holds (exec (.jmpXDec 0 4) (block { plain with x := some 0, pc := 9 })) (fun t =>
      t.cur.pc == 10 && t.cur.x == some 0xFFFFFFFF) = true := by decide

/-- V36. -/
theorem test_jmp_x_dec_unwritten :
    holds (exec (.jmpXDec 0 4) (block { plain with pc := 9 })) (fun t =>
      t.cur == { plain with pc := 9, halted := true } &&
      t.faults == [.unwrittenRead 0 9 0x0044 .x] && t.refused == none) = true := by decide

/-- V37. -/
theorem test_jmp_not_y_taken :
    holds (exec (.jmpNotY 0 11) (block { plain with y := some 0, pc := 6 })) (fun t =>
      t.cur.pc == 11) = true := by decide

/-- V38. -/
theorem test_jmp_not_y_not_taken :
    holds (exec (.jmpNotY 0 11) (block { plain with y := some 1, pc := 6 })) (fun t =>
      t.cur.pc == 7) = true := by decide

/-- V39. -/
theorem test_jmp_y_dec_taken :
    holds (exec (.jmpYDec 0 7) (block { plain with y := some 1, pc := 4 })) (fun t =>
      t.cur.pc == 7 && t.cur.y == some 0) = true := by decide

/-- V40. -/
theorem test_jmp_y_dec_wraps :
    holds (exec (.jmpYDec 0 7) (block { plain with y := some 0, pc := 4 })) (fun t =>
      t.cur.pc == 5 && t.cur.y == some 0xFFFFFFFF) = true := by decide

/-- V41. -/
theorem test_jmp_x_ne_y_equal :
    holds (exec (.jmpXNeY 0 2) (block { plain with x := some 3, y := some 3, pc := 3 })) (fun t =>
      t.cur.pc == 4) = true := by decide

/-- V42. -/
theorem test_jmp_x_ne_y_high_bit :
    holds (exec (.jmpXNeY 0 2) (block { plain with x := some 3, y := some 0x80000003, pc := 3 })) (fun t =>
      t.cur.pc == 2) = true := by decide

/-- V44. -/
theorem test_jmp_not_osre_taken :
    holds (exec (.jmpNotOsre 0 1) (block { dshot with osrCount := 16, pc := 5, txf := [7] })) (fun t =>
      t.cur.pc == 1 && t.cur.txf == [7]) = true := by decide

/-- V45. -/
theorem test_jmp_not_osre_not_taken :
    holds (exec (.jmpNotOsre 0 1) (block { dshot with osrCount := 32, pc := 5 })) (fun t =>
      t.cur.pc == 6) = true := by decide

/-- V50. -/
theorem test_set_pindirs :
    holds (exec (.setPindirs 0 1) (block { dshot with pc := 0 })) (fun t =>
      t.enable 6 && !t.enable 5 && !t.latch 6) = true := by decide

/-- V52. -/
theorem test_set_pins :
    holds (exec (.setPins 0 1) (block { dshot with pc := 0 })) (fun t =>
      t.latch 6 && !t.latch 7 && !t.enable 6) = true := by decide

/-- V56. -/
theorem test_set_pins_wraps :
    holds (exec (.setPins 0 5) (block { plain with pinctrl := 0x0C0003C0 })) (fun t =>
      t.latch 30 && !t.latch 31 && t.latch 0 && !t.latch 1) = true := by decide

/-- V55. -/
theorem test_set_pindirs_empty_group :
    holds (exec (.setPindirs 0 1) (block { plain with pinctrl := 0 })) (fun t =>
      t.pinOe == Vector.replicate 32 false) = true := by decide

/-- V57. -/
theorem test_set_x :
    holds (exec (.setX 0 15) (block { plain with pc := 0 })) (fun t =>
      t.cur.x == some 0x0000000F && t.cur.y == none) = true := by decide

/-- V58. -/
theorem test_set_x_clears_the_top :
    holds (exec (.setX 0 31) (block { plain with x := some 0xFFFFFFFF })) (fun t =>
      t.cur.x == some 0x0000001F) = true := by decide

/-- V59. -/
theorem test_set_y :
    holds (exec (.setY 0 31) (block { plain with pc := 0 })) (fun t =>
      t.cur.y == some 0x0000001F && t.cur.x == none) = true := by decide

/-- V61. -/
theorem test_out_x :
    holds (exec (.outX 0 2) (block { plain with osr := some 0xC0000000, osrCount := 0 })) (fun t =>
      t.cur.x == some 3 && t.cur.osr == some 0 && t.cur.osrCount == 2) = true := by decide

/-- V66. -/
theorem test_out_x_right :
    holds (exec (.outX 0 2) (block { plain with shiftctrl := 0x00080000, osr := some 6, osrCount := 0 })) (fun t =>
      t.cur.x == some 2 && t.cur.osr == some 1 && t.cur.osrCount == 2) = true := by decide

/-- V70. -/
theorem test_out_y_pulls_first :
    holds (exec (.outY 0 1) (block { dshot with osrCount := 32, txf := [0x80000000] })) (fun t =>
      t.cur.y == some 1 && t.cur.osr == some 0 && t.cur.osrCount == 1 && t.cur.txf == []) = true := by decide

/-- V63. -/
theorem test_out_null :
    holds (exec (.outNull 0 16) (block { plain with osr := some 0xABCD1234, osrCount := 0 })) (fun t =>
      t.cur.osr == some 0x12340000 && t.cur.osrCount == 16) = true := by decide

/-- V67. -/
theorem test_out_null_pulls_after :
    holds (exec (.outNull 0 1) (block { dshot with osr := some 1, osrCount := 31, txf := [0x0000A5A5] })) (fun t =>
      t.cur.osr == some 0x0000A5A5 && t.cur.osrCount == 0 && t.cur.txf == []) = true := by decide

/-- V69. -/
theorem test_out_stalls :
    holds (exec (.outY 0 1) (block { dshot with osrCount := 32, y := some 5, pc := 2 })) (fun t =>
      t.cur.stalled && t.cur.txstall && t.cur.pc == 2 && t.cur.y == some 5 && t.cur.osrCount == 32) = true := by decide

/-- V73. -/
theorem test_pull_block_full_is_no_op :
    holds (exec (.pullBlock 0) (block { dshot with osr := some 1, osrCount := 0, txf := [0x1111] })) (fun t =>
      t.cur.txf == [0x1111] && t.cur.osr == some 1 && t.cur.pc == 1) = true := by decide

/-- V72. -/
theorem test_pull_block_stalls :
    holds (exec (.pullBlock 0) (block { dshot with osrCount := 32 })) (fun t =>
      t.cur.stalled && t.cur.txstall && t.cur.pc == 0) = true := by decide

/-- V75. -/
theorem test_pull_noblock_copies_x :
    holds (exec (.pullNoblock 0) (block { plain with x := some 7 })) (fun t =>
      t.cur.osr == some 7 && t.cur.osrCount == 0) = true := by decide

/-- V76. -/
theorem test_pull_noblock_unwritten :
    holds (exec (.pullNoblock 0) (block { plain with pc := 4 })) (fun t =>
      t.faults == [.unwrittenRead 0 4 0x8080 .x] && t.cur.pc == 4) = true := by decide

/-- V77. -/
theorem test_pull_ifempty_block_no_op :
    holds (exec (.pullIfemptyBlock 0) (block { plain with osrCount := 16, txf := [3] })) (fun t =>
      t.cur.txf == [3] && t.cur.osrCount == 16 && t.cur.pc == 1) = true := by decide

/-- V78. -/
theorem test_pull_ifempty_noblock_loads :
    holds (exec (.pullIfemptyNoblock 0) (block { plain with osrCount := 32, txf := [5] })) (fun t =>
      t.cur.osr == some 5 && t.cur.osrCount == 0) = true := by decide

/-- V79. -/
theorem test_pull_ifempty_noblock_copies_x :
    holds (exec (.pullIfemptyNoblock 0) (block { plain with osrCount := 32, x := some 9 })) (fun t =>
      t.cur.osr == some 9 && t.cur.osrCount == 0) = true := by decide

/-- V100. -/
theorem test_nop :
    holds (exec (.nop 2) (block { plain with pc := 7 })) (fun t =>
      t.cur == { plain with pc := 8, delay := 2 } && t.faults == []) = true := by decide

/-- V101. -/
theorem test_nop_wraps :
    holds (exec (.nop 0) (block { dshot with pc := 17 })) (fun t =>
      t.cur.pc == 1) = true := by decide

/-- V60, V106: a reserved and a refused word set the mark and stop the machine, with no other effect. -/
theorem test_refused_words :
    (holds (exec (decode 0xE060) (block plain)) fun t =>
      t.refused == some .refusedInstr && t.cur == { plain with halted := true } && t.faults == []) = true ∧
    (holds (exec (decode 0x2000) (block plain)) fun t =>
      t.refused == some .refusedInstr && t.cur == { plain with halted := true }) = true := by decide

/-! ## Steps -/

/-- Machine 0 enabled, its pulse in this cycle, with one word loaded at slot 0. -/
def running (m : SM) (w : Half) : State := { block { m with enabled := true } with imem := [(0, w)] }

/-- R141: the step runs the word at PC, and the next machine's turn comes. -/
theorem test_step_runs :
    (holds (step (running dshot 0xE02F)) fun t =>
      (t.sm 0).x == some 15 && (t.sm 0).pc == 1 && (t.sm 0).nextEn == 1 && t.active == 1) = true := by decide

/-- R132: a delay cycle. -/
theorem test_step_delay :
    (holds (step (running { dshot with delay := 3 } 0xE02F)) fun t =>
      (t.sm 0).x == none && (t.sm 0).pc == 0 && (t.sm 0).delay == 2) = true := by decide

/-- V105: an unloaded slot. -/
theorem test_step_unloaded :
    (holds (step (running { dshot with pc := 20 } 0xE02F)) fun t =>
      t.faults == [.fetchUnloaded 0 20] && (t.sm 0).halted && (t.sm 0).pc == 20) = true := by decide

/-- V112, V113, V114: the divider. -/
theorem test_divider :
    ({ SM.reset with clkdiv := 0x00028000, divAcc := 0 } : SM).divStep = 2 ∧
    ({ SM.reset with clkdiv := 0x00028000, divAcc := 128 } : SM).divStep = 3 ∧
    ({ SM.reset with clkdiv := 0x00028000, divAcc := 200 } : SM).tick.divAcc = 72 ∧
    ({ SM.reset with clkdiv := 0x0001FF00, divAcc := 255 } : SM).tick.divAcc = 254 ∧
    ({ SM.reset with clkdiv := 0 } : SM).divStep = 65536 := by decide

/-- `withFetchWord`: the next step after reset runs the placed word. -/
theorem test_fetch_word :
    (holds (step (State.reset.withFetchWord 16 0xE02F)) fun t => (t.sm 0).x == some 15) = true := by decide

/-! ## The host (95_test_vectors 2.7) -/

/-- V80, V81, V82: the configuration words. -/
theorem test_configuration_words :
    channelClkdiv ⟨3, 26, 11⟩ = 0x001A0B00 ∧ channelExecctrl ⟨3, 26, 11⟩ 0 = 0x03011080 ∧
    channelPinctrl ⟨3, 26, 11⟩ = 0x04000063 ∧ channelExecctrl ⟨6, 1, 0⟩ 0 = 0x06011080 ∧
    channelPinctrl ⟨6, 1, 0⟩ = 0x040000C6 ∧ channelShiftctrl true = 0x40020000 ∧
    channelShiftctrl false = 0x00020000 := by decide

/-- V83: the start of a configured machine. -/
theorem test_start :
    let s := writeReg (writeReg (writeReg (atHost dshot) .ctrl 0x10) (.instr 0) 0) .ctrl 1
    (s.sm 0).enabled = true ∧ (s.sm 0).pc = 0 ∧ (s.sm 0).x = none ∧ (s.sm 0).delay = 0 ∧
    s.refused = none := by decide

/-- V85: an enable without restart and forced jump. -/
theorem test_enable_refused : (writeReg (atHost dshot) .ctrl 1).refused = some .refusedConfig := by decide

/-- V86: a forced word that is no JMP with delay 0. -/
theorem test_instr_refused :
    (writeReg (atHost dshot) (.instr 0) 0x100).refused = some .refusedHostAccess := by decide

/-- V87, V88, V89: writes while a machine is enabled, and a narrow write. -/
theorem test_writes_refused :
    (writeReg (running dshot 0) (.clkdiv 0) 0x00010000).refused = some .refusedConfig ∧
    (writeReg (running dshot 0) (.instrMem 5) 0).refused = some .refusedHostAccess ∧
    (hostWrite (running dshot 0) 16 0x10 0).refused = some .refusedHostAccess := by decide

/-- V93, V94: four words fill the FIFO; the fifth is dropped and sets TXOVER. -/
theorem test_fifo :
    let m := { plain with txf := [1, 2, 3, 4] }
    (atHost m).flevel = 4 ∧ (atHost m).fstat = 0x0E010F00 ∧
    (writeReg (atHost m) (.txf 0) 5).fdebug = 0x00010000 ∧
    ((writeReg (atHost m) (.txf 0) 5).sm 0).txf = [1, 2, 3, 4] := by decide

/-- V95: FDEBUG is write 1 to clear. -/
theorem test_fdebug_clear :
    (writeReg (atHost { plain with txover := true }) .fdebug 0x00010000).fdebug = 0 := by decide

/-- V97: the stall is seen in FDEBUG and EXECCTRL (here of machine 0). -/
theorem test_stall_seen :
    let s := atHost { dshot with stalled := true, txstall := true }
    s.fdebug = 0x01000000 ∧ regValue s (.execctrl 0) = some 0x86011080 := by decide

/-- V98: the registers after reset. -/
theorem test_reset_registers :
    regValue State.reset .fstat = some 0x0F000F00 ∧ regValue State.reset (.execctrl 2) = some 0x0001F000 ∧
    regValue State.reset (.pinctrl 3) = some 0x14000000 ∧ regValue State.reset (.instr 1) = none := by decide

/-- V115: INT 0 with FRAC not 0. -/
theorem test_clkdiv_refused :
    (writeReg (atHost dshot) (.clkdiv 0) 0x00000500).refused = some .refusedConfig := by decide

/-- R282: an origin above 14 does not fit. -/
theorem test_origin : programFits (atHost dshot) 14 = true ∧ programFits (atHost dshot) 15 = false := by decide


/-! ## The transcriber and the waveform (R303, R257) -/

/-- P4c: the transcriber refuses `irq` at its slot; the waveform program passes at origin 14. -/
theorem test_transcribe :
    transcribe 0 [0xC000] = .error 0 ∧ transcribe 5 [0xE081, 0xA022, 0xC000] = .error 6 ∧
    (transcribe 14 (dshotAt 14)).toOption.map List.length = some 18 ∧
    (loadImage 0 [0xE081, 0xC000]).toOption = none := by decide +kernel

/-- Log 29: the last slot takes a word, and the word after it is refused. -/
theorem test_transcribe_end :
    (transcribe 31 [0xE081]).toOption = some [.setPindirs 0 1] ∧ transcribe 31 [0xE081, 0xE081] = .error 32 ∧
    (loadImage 15 dshotImage).toOption = none := by decide +kernel

/-- P3: the first and the last intervals of 0xA5A5 pulled at cycle 1, and the gap up to the next frame's first
rising edge at 264; the level before is held from cycle 0 to 4. -/
theorem test_channelTrace :
    (channelTrace false [(0xA5A5, 1), (0xFFFF, 261)] 603).take 4 =
      [⟨false, 0, 4⟩, ⟨true, 4, 10⟩, ⟨false, 10, 12⟩, ⟨true, 12, 15⟩] ∧
    (channelTrace false [(0xA5A5, 1), (0xFFFF, 261)] 603)[32]? = some ⟨false, 130, 264⟩ ∧
    (channelTrace false [(0xA5A5, 1), (0xFFFF, 261)] 603)[33]? = some ⟨true, 264, 270⟩ ∧
    (channelTrace false [(0xA5A5, 1), (0xFFFF, 261)] 603)[64]? = some ⟨false, 390, 603⟩ := by decide

/-- Log 31, on P3's first frame: a horizon inside it cuts the trace there, in a low interval, in a high one and
at the first rising edge. -/
theorem test_channelTrace_cut :
    channelTrace false [(0xA5A5, 1)] 11 = [⟨false, 0, 4⟩, ⟨true, 4, 10⟩, ⟨false, 10, 11⟩] ∧
    channelTrace false [(0xA5A5, 1)] 7 = [⟨false, 0, 4⟩, ⟨true, 4, 7⟩] ∧
    channelTrace false [(0xA5A5, 1)] 4 = [⟨false, 0, 4⟩] := by decide

/-- V147, V148: the minimum gap of the pairs (26, 0) and (26, 11) in system cycles. -/
theorem test_gap_systemCycles :
    let pair (v : Word) : SM := { SM.reset with clkdiv := v }
    (pair 0x001A0000).fewestCycles 134 = 3484 ∧ (pair 0x001A0000).mostCycles 134 = 3484 ∧
    (pair 0x001A0B00).fewestCycles 134 = 3489 ∧ (pair 0x001A0B00).mostCycles 134 = 3490 := by decide

/-! ## The assembler (R116, R117, R230, R232) -/

/-- R230: the listing's words. -/
theorem test_asm_listing :
    asmProgram dshotListing =
      some [0xE081, 0x80A0, 0x6070, 0xE02F, 0xE001, 0x6041, 0x006B, 0xA242, 0xE000, 0x0044, 0x000E, 0xE300,
        0x0044, 0x000E, 0xBF42, 0xBF42, 0xBF42, 0x1F01] := by decide

/-- R232: the wrap markers' offsets. -/
theorem test_asm_wrap : asmWrapBottom dshotListing 0 = some 1 ∧ asmWrapTop dshotListing 0 = some 17 := by decide

/-- R117: `pull` is `pull block`, `nop` is 0xA042; 32 bits encode as 0 (R116), and 33 do not assemble. -/
theorem test_asm_words :
    asmProgram [.op (.pull false none) none, .op .nop none, .op (.out .null 32) none] =
      some [0x80A0, 0xA042, 0x6060] ∧
    asmProgram [.op (.out .null 33) none] = none := by decide

/-- R116: a text with a comment of each kind, a label alone and one before an instruction, markers, a delay. -/
theorem test_asm_read :
    (asmRead "set pindirs, 1\n.wrap_target\nentry: pull block ; wait\n jmp !y, zero [3] // x\nzero:\nout null,16\n.wrap").bind
      asmProgram = some [0xE081, 0x80A0, 0x0363, 0x6070] := by decide

/-- R116: an omitted word, and a word that is none. -/
theorem test_asm_read_line :
    asmRead "pull ifempty" = some [.op (.pull true none) none] ∧ asmRead "pull fast" = none := by decide

/-- R163's example as written. -/
theorem test_asm_text : (AsmLine.op (.jmp (some .xDec) (.slot 4)) (some 3)).text = "jmp x--, 4 [3]" := by decide

/-! ## Witnesses: the hypotheses of the statements can be met -/

/-- The executing machine, not due for a reason of each kind. -/
theorem witness_MachineNotDueTakesNoStep :
    (block plain).boundary = false ∧ (block plain).cur.enabled = false ∧
    (block { plain with halted := true }).cur.halted = true ∧
    { block plain with nCh := 0 }.nCh ≤ (block plain).active.val ∧
    (block { plain with nextEn := 5 }).cur.nextEn ≠ (block plain).time := by decide

theorem witness_DecodeOfEncode : wellFormed (.movOther 31 7 2 7) = true := by decide

theorem witness_RelocationMovesJumpTargets : opcField 0x1F01 = 0 ∧ opcField 0xE081 ≠ 0 := by decide

theorem witness_StepRunsTheDecodedInstruction :
    let s := running dshot 0xE02F
    s.boundary = false ∧ s.due s.active = true ∧ s.cur.delay = 0 ∧
    Memory.read s.imem s.cur.pc.toNat = some 0xE02F := by decide

theorem witness_StepRunsTheDecodedInstruction_answer :
    ∃ t, exec (decode 0xE02F) (running dshot 0xE02F) = .next t := ⟨_, rfl⟩

theorem witness_EndOfPulsePassesTheTurn :
    (block plain).cur.halted = false ∧ (block { plain with halted := true }).cur.halted = true ∧
    (block plain).active ≠ 3 ∧ { block plain with active := 3 }.active = 3 := by decide

theorem witness_DelayCycleOnlyCountsDown :
    let s := running { dshot with delay := 31 } 0xE02F
    s.boundary = false ∧ s.due s.active = true ∧ s.cur.delay ≠ 0 := by decide

theorem witness_UnloadedSlotFaults :
    let s := running { dshot with pc := 31 } 0xE02F
    s.boundary = false ∧ s.due s.active = true ∧ s.cur.delay = 0 ∧
    Memory.read s.imem s.cur.pc.toNat = none := by decide

theorem witness_DividerIntervals : plain.divFrac = 0 := by decide

theorem witness_JmpIfZero :
    (block { plain with x := some 0 }).cur.x = some 0 ∧ (block plain).cur.x = none ∧
    (block { plain with y := some 0xFFFFFFFF }).cur.y = some 0xFFFFFFFF ∧ (block plain).cur.y = none := by
  decide

theorem witness_JmpXPostDecrement :
    (block { plain with x := some 0 }).cur.x = some 0 ∧ (block plain).cur.x = none ∧ 2 < 2 ^ 32 ∧
    (block { plain with x := some 2 }).cur.x = some (BitVec.ofNat 32 2) ∧ 2 ≤ 2 ∧ 0 < 2 := by decide

/-- The body that runs a NOP keeps X and Y. -/
theorem witness_loop_body (u : State) :
    ((u.setCur (u.cur.goesTo u.cur.nextSlot 0)).cur.x = u.cur.x) ∧
    ((u.setCur (u.cur.goesTo u.cur.nextSlot 0)).cur.y = u.cur.y) := by
  rw [State.cur_setCur]
  exact ⟨rfl, rfl⟩

theorem witness_JmpYPostDecrement :
    (block { plain with y := some 0 }).cur.y = some 0 ∧ (block plain).cur.y = none ∧ 2 < 2 ^ 32 ∧
    (block { plain with y := some 2 }).cur.y = some (BitVec.ofNat 32 2) ∧ 2 ≤ 2 ∧ 0 < 2 := by decide

theorem witness_JmpIfNotEqual :
    (block { plain with x := some 3, y := some 3 }).cur.x = some 3 ∧
    (block { plain with x := some 3, y := some 3 }).cur.y = some 3 ∧ (block plain).cur.x = none ∧
    (block { plain with x := some 3 }).cur.y = none := by decide

/-- An OUT that starts with a value in the OSR. -/
theorem witness_OutFollowsItsRule_plain :
    (block { plain with osr := some 1, osrCount := 0 }).cur.OutBegins
      { plain with osr := some 1, osrCount := 0 } ∧
    ({ plain with osr := some 1, osrCount := 0 } : SM).osr = some 1 :=
  ⟨.inr ⟨by decide, rfl⟩, rfl⟩

/-- An OUT that refills first. -/
theorem witness_OutFollowsItsRule_refill :
    (block { dshot with txf := [9] }).cur.OutBegins { dshot with osr := some 9, osrCount := 0, txf := [] } ∧
    ({ dshot with osr := some 9, osrCount := 0, txf := [] } : SM).osr = some 9 :=
  ⟨.inl ⟨by decide, 9, [], rfl, rfl⟩, rfl⟩

theorem witness_OutFollowsItsRule_no_bits :
    (.outY 0 1 : Instr) ∈ ([.outX 0 1, .outY 0 1, .outNull 0 1] : List Instr) ∧
    (block dshot).cur.wantsWord ∧ (block dshot).cur.txf = [] ∧
    ¬(block plain).cur.wantsWord ∧ (block plain).cur.osr = none := by decide

/-- The no-op by auto-pull and the no-op by IFEMPTY at its boundary, 31 bits out of 32. -/
theorem witness_PullFollowsItsTests_no_op :
    ((block { dshot with osrCount := 0 }).cur.autopull = true ∧
      (block { dshot with osrCount := 0 }).cur.osrCount = 0) ∧
    (block { plain with osrCount := 31 }).cur.osrCount < (block { plain with osrCount := 31 }).cur.thr := by
  decide

/-- No no-op, at the boundary of IFEMPTY: 32 bits out of 32. -/
theorem witness_PullFollowsItsTests_empty :
    let s := block { plain with osrCount := 32 }
    ¬((s.cur.autopull = true ∧ s.cur.osrCount = 0) ∨ (true = true ∧ s.cur.osrCount < s.cur.thr)) ∧
    s.cur.txf = [] ∧ s.cur.x = none ∧ (block { plain with x := some 7 }).cur.x = some 7 := by decide

theorem witness_PullFollowsItsTests_load :
    (block { plain with txf := [1, 2] }).cur.Popped { plain with osr := some 1, osrCount := 0, txf := [2] } :=
  ⟨1, [2], rfl, rfl⟩

theorem witness_RefusedWordsSetTheMark : verdict (.irqRefused 0 0) ≠ .admitted := by decide

/-- Every instruction answers a next state, so the premise of the frames is met by each instruction they name. -/
theorem witness_frames (i : Instr) (s : State) : ∃ t, exec i s = .next t :=
  let ⟨t, h, _⟩ := exec_cases i s
  ⟨t, h⟩

theorem witness_FrameOfEveryInstruction : ∃ t, exec (.nop 0) (block plain) = .next t := ⟨_, rfl⟩

theorem witness_FrameOfRegisterInstructions :
    (.nop 0 : Instr) ∈ ([.jmp 0 0, .jmpNotX 0 0, .jmpXDec 0 0, .jmpNotY 0 0, .jmpYDec 0 0, .jmpXNeY 0 0,
      .jmpPin 0 0, .jmpNotOsre 0 0, .nop 0, .setX 0 0, .setY 0 0] : List Instr) ∧
    (.nop 0 : Instr) ∉ ([.jmpXDec 0 0, .setX 0 0] : List Instr) ∧ (.nop 0 : Instr) ≠ .jmpPin 0 0 ∧
    ∃ t, exec (.nop 0) (block plain) = .next t :=
  ⟨by decide, by decide, by decide, _, rfl⟩

theorem witness_FrameOfShiftRegisterInstructions :
    (.pullBlock 0 : Instr) ∈ ([.outX 0 1, .outY 0 1, .outNull 0 1, .pullBlock 0, .pullNoblock 0,
      .pullIfemptyBlock 0, .pullIfemptyNoblock 0] : List Instr) ∧
    (.pullBlock 0 : Instr) ≠ .outX 0 1 ∧ ∃ t, exec (.pullBlock 0) (block plain) = .next t :=
  ⟨by decide, by decide, _, rfl⟩

theorem witness_FrameOfPinWriters :
    (.setPins 0 1 : Instr) ∈ ([.setPins 0 1, .setPindirs 0 1] : List Instr) ∧
    ∃ t, exec (.setPins 0 1) (block plain) = .next t :=
  ⟨by decide, _, rfl⟩

/-- Pin 6 is the group of the channel, pins 5 and 7 are next to it. -/
theorem witness_OnlyGroupPinsChange :
    (block dshot).cur.inGroup 5 = false ∧ (block dshot).cur.inGroup 6 = true ∧
    (block dshot).cur.inGroup 7 = false ∧ ∃ t, exec (.setPins 0 1) (block dshot) = .next t :=
  ⟨by decide, by decide, by decide, _, rfl⟩

theorem witness_WordsLeaveOldestFirst :
    ∃ t, exec (.outY 0 1) (block { dshot with txf := [1, 2] }) = .next t := witness_frames _ _

/-- Two blocks that agree on machine 0 and pin 6 and differ in pin 7 and the clock. -/
theorem witness_InstructionSeesOnlyItsOwnMachine :
    let s1 := block dshot
    let s2 := { block dshot with time := 9, pinOut := (Vector.replicate 32 false).set 7 true }
    s1.active = s2.active ∧ s1.cur = s2.cur ∧ s1.latch 6 = s2.latch 6 ∧ s1.enable 6 = s2.enable 6 ∧
    s1.latch 7 ≠ s2.latch 7 ∧
    ∀ p : PinIx, s1.cur.inGroup p = true → s1.latch p = s2.latch p ∧ s1.enable p = s2.enable p := by
  decide +kernel

theorem witness_InstructionSeesOnlyItsOwnMachine_answer :
    ∃ t1 t2, exec (.setPins 0 1) (block dshot) = .next t1 ∧
      exec (.setPins 0 1) { block dshot with time := 9 } = .next t2 := ⟨_, _, rfl, rfl⟩

/-- Machine 0 with pin 6, machine 1 with the pins 0 to 4 of the reset value. -/
theorem witness_StepsOfTwoMachinesCommute :
    (0 : Fin 4) ≠ 1 ∧
    ∀ p : PinIx, ¬(((block dshot).sm 0).inGroup p = true ∧ ((block dshot).sm 1).inGroup p = true) := by
  decide +kernel

/-- A step of the host and a step of a machine, both with a fault and a mark already recorded. -/
theorem witness_MarksAreSticky :
    (∃ t, step { atHost plain with refused := some .refusedConfig, faults := [.fetchUnloaded 1 2] } = .next t) ∧
    ∃ t, step (running dshot 0xC000) = .next t := ⟨⟨_, rfl⟩, ⟨_, rfl⟩⟩

theorem witness_StoppedMachineStaysStopped :
    ((running { plain with halted := true } 0xA042).sm 0).halted = true ∧
    (running { plain with halted := true } 0xA042).boundary = false ∧
    ∃ t, step (running { plain with halted := true } 0xA042) = .next t := ⟨by decide, by decide, _, rfl⟩

theorem witness_ImemFixedWhileEnabled :
    (∃ t, step (running dshot 0xE02F) = .next t) ∧ ∃ k : Fin 4, ((running dshot 0xE02F).sm k).enabled = true :=
  ⟨⟨_, rfl⟩, 0, by decide⟩

theorem witness_ConfigurationFixedWhileEnabled :
    ((running dshot 0xE02F).sm 0).enabled = true ∧ ((running dshot 0xE02F).sm 1).enabled = false ∧
    (running dshot 0xE02F).boundary = false ∧ ∃ t, step (running dshot 0xE02F) = .next t :=
  ⟨by decide, by decide, by decide, _, rfl⟩

theorem witness_ImemStaysCanonical :
    Memory.wf { running dshot 0xE02F with imem := [(0, 0xE02F), (31, 0)] }.imem ∧
    ∃ t, step { running dshot 0xE02F with imem := [(0, 0xE02F), (31, 0)] } = .next t :=
  ⟨by decide, _, rfl⟩

theorem witness_MachinesStayInOrder :
    (running { dshot with txf := [1, 2, 3, 4] } 0xE02F).smsOk ∧
    ∃ t, step (running { dshot with txf := [1, 2, 3, 4] } 0xE02F) = .next t :=
  ⟨by decide, _, rfl⟩

/-- Machine 0 on pin 6 and machine 1 on pins 0 to 4, both enabled. -/
theorem witness_PinsKeepOneWriter :
    let s := (running dshot 0xE02F).setSm 1 { SM.reset with enabled := true }
    s.pinsOwned ∧ ∃ t, step s = .next t :=
  ⟨by decide +kernel, _, rfl⟩

theorem witness_NoPulseIsMissed :
    (running dshot 0xE02F).onSchedule ∧ ∃ t, step (running dshot 0xE02F) = .next t :=
  ⟨by decide, _, rfl⟩

/-- A block with a write of pin 6 on its way to the wire. -/
theorem witness_WireFollowsTheLatches :
    let s := (running dshot 0xE02F).writePins 6 1 1
    (∃ t, step s = .next t) ∧ s.wireInStep := by
  refine ⟨⟨_, rfl⟩, ?_⟩
  refine ⟨rfl, List.pairwise_singleton _ _, fun e he => ?_⟩
  have : e.time = 0 := by rw [List.mem_singleton.1 he]; rfl
  exact ⟨by rw [this]; exact Nat.zero_le _, by rw [this]; exact Nat.succ_pos _⟩

/-- The three kinds of bad access; 0x128 is the first offset past the registers, 0x020 the first in a hole. -/
theorem witness_BadAccessIsRefused :
    (16 : Nat) ≠ 32 ∧ 0x0DE % 4 ≠ 0 ∧ (∀ r : Reg, 0x128 ≠ regOffset r) ∧ ∀ r : Reg, 0x020 ≠ regOffset r := by
  refine ⟨by decide, by decide, fun r h => ?_, fun r h => ?_⟩
  · have := regAt_regOffset r
    rw [← h] at this
    exact absurd this (by simp [show regAt 0x128 = none from rfl])
  · have := regAt_regOffset r
    rw [← h] at this
    exact absurd this (by simp [show regAt 0x020 = none from rfl])

/-- The write-only and the read-only registers. -/
theorem witness_BadAccessIsRefused_direction :
    (∃ i, Reg.txf 3 = .txf i) ∧ (∃ a, Reg.instrMem 31 = .instrMem a) ∧ ∃ i, Reg.addr 3 = .addr i :=
  ⟨⟨3, rfl⟩, ⟨31, rfl⟩, ⟨3, rfl⟩⟩

theorem witness_ReadsHaveNoSideEffect :
    (∀ i, Reg.execctrl 3 ≠ .txf i) ∧ (∀ a, Reg.execctrl 3 ≠ .instrMem a) ∧ (∀ i, Reg.instr 0 ≠ .txf i) ∧
    (∀ a, Reg.instr 0 ≠ .instrMem a) ∧
    Memory.read (running plain 0xE02F).imem ((running plain 0xE02F).sm 0).pc.toNat = some 0xE02F := by decide

theorem witness_StatusBits :
    ∀ j : Fin 4, ((atHost { plain with txf := [1, 2, 3, 4] }).sm j).txf.length < 16 := by decide

/-- Three words leave room, four do not. -/
theorem witness_TxfWritePushesOrDrops :
    ((atHost { plain with txf := [1, 2, 3] }).sm 0).txf.length < ((atHost plain).sm 0).cap ∧
    ((atHost plain).sm 0).cap ≤ ((atHost { plain with txf := [1, 2, 3, 4] }).sm 0).txf.length := by decide

/-- All bits but the reserved ones; and bits 4 and 15, the ends of the family's reserved fields. -/
theorem witness_FdebugWriteOneClears :
    (0x0F0F0F0F : Word).extractLsb' 28 4 = 0#4 ∧ (0x0F0F0F0F : Word).extractLsb' 20 4 = 0#4 ∧
    (0x0F0F0F0F : Word).extractLsb' 12 4 = 0#4 ∧ (0x0F0F0F0F : Word).extractLsb' 4 4 = 0#4 ∧
    (0x10 : Word).extractLsb' 4 4 ≠ 0#4 ∧ (0x8000 : Word).extractLsb' 12 4 ≠ 0#4 := by decide

/-- A loaded and an unloaded slot at PC; the words 31 and 32 meet the two write clauses. -/
theorem witness_InstrRegister :
    Memory.read (running plain 0xE02F).imem ((running plain 0xE02F).sm 0).pc.toNat = some 0xE02F ∧
    Memory.read (atHost plain).imem ((atHost plain).sm 0).pc.toNat = none ∧
    ((atHost plain).sm 0).enabled = false ∧ (31 : Word).toNat < 32 ∧ 32 ≤ (32 : Word).toNat ∧
    ((running plain 0).sm 0).enabled = true := by decide

theorem witness_ImemWriteLoadsOneSlot :
    (∀ k : Fin 4, ((atHost plain).sm k).enabled = false) ∧ (0xFFFF : Word).toNat < 65536 ∧
    65536 ≤ (0x10000 : Word).toNat ∧ ∃ k : Fin 4, ((running plain 0).sm k).enabled = true := by decide

/-- INT 0 with FRAC 0 is good; with FRAC 1, with a reserved bit, or of an enabled machine it is not. -/
theorem witness_ClkdivWriteIsChecked :
    ((atHost plain).sm 0).enabled = false ∧ (0 : Word).extractLsb' 0 8 = 0#8 ∧
    ((0 : Word).extractLsb' 16 16 = 0#16 → (0 : Word).extractLsb' 8 8 = 0#8) ∧
    ¬((0x100 : Word).extractLsb' 16 16 = 0#16 → (0x100 : Word).extractLsb' 8 8 = 0#8) ∧
    (0x10001 : Word).extractLsb' 0 8 ≠ 0#8 ∧ ((running plain 0).sm 0).enabled ≠ false := by decide

/-- SET_COUNT 5 and OUT_COUNT 32 are good, 6 and 33 are not; a joined FIFO may be parted only while empty. -/
theorem witness_OtherConfigurationWritesAreChecked :
    let pin (v : Word) := v.extractLsb' 29 3 = 0#3 ∧ (v.extractLsb' 26 3).toNat ≤ 5 ∧ (v.extractLsb' 20 6).toNat ≤ 32
    ((atHost plain).sm 0).enabled = false ∧ pin 0x16000000 ∧ ¬pin 0x18000000 ∧ ¬pin 0x16100000 ∧ ¬pin 0x20000000 ∧
    (0x9F01F01F : Word).extractLsb' 29 2 = 0#2 ∧ (0x9F01F01F : Word).extractLsb' 17 2 = 0#2 ∧
    (0x9F01F01F : Word).extractLsb' 5 2 = 0#2 ∧ (0x40000000 : Word).extractLsb' 29 2 ≠ 0#2 ∧
    (0x7FFE0000 : Word).getLsbD 31 = false ∧ (0x7FFE0000 : Word).getLsbD 16 = false ∧
    (0x7FFE0000 : Word).extractLsb' 0 16 = 0#16 ∧ (0x7FFE0000 : Word).getLsbD 30 = true ∧
    ((atHost plain).sm 0).txf = [] ∧ ((atHost { plain with txf := [1] }).sm 0).txf ≠ [] ∧
    ((atHost plain).sm 0).shiftctrl.getLsbD 30 = false := by decide

theorem witness_RestartClearsOnlyItsList :
    ((atHost plain).sm 0).enabled = false ∧ ((running plain 0).sm 0).enabled = true ∧
    (0x100 : Word).getLsbD (8 + (0 : Fin 4).val) = true ∧ (0x800 : Word).getLsbD (8 + (3 : Fin 4).val) = true ∧
    (0x1000 : Word).extractLsb' 12 20 ≠ 0#20 ∧ (0x80000000 : Word).extractLsb' 12 20 ≠ 0#20 := by decide

/-- Machine 0 restarted and jumped on pin 6, machine 1 running on pins 0 to 4. -/
theorem witness_EnableDrawsThePhase :
    let s := (atHost { dshot with restarted := true, jumped := true }).setSm 1
      { SM.reset with enabled := true }
    s.pinsOwned ∧ (s.sm 0).enabled = false ∧ (s.sm 0).restarted = true ∧ (s.sm 0).jumped = true ∧
    (s.nCh ≤ (0 : Fin 4).val → (s.sm 0).setCount = 0) ∧
    ∀ j : Fin 4, (s.sm j).enabled = true → ∀ p : PinIx,
      ¬((s.sm j).inGroup p = true ∧ (s.sm 0).inGroup p = true) := by decide +kernel

/-- Not restarted; not jumped; and two machines that share pins 0 to 4. -/
theorem witness_EnableOutOfOrderIsRefused :
    ((atHost plain).sm 0).enabled = false ∧ ((atHost plain).sm 0).restarted = false ∧
    ((atHost plain).sm 0).jumped = false ∧ (31 : Word).toNat < 32 ∧
    let s := (atHost { SM.reset with restarted := true, jumped := true }).setSm 1
      { SM.reset with enabled := true }
    (s.sm 0).enabled = false ∧ (s.sm 1).enabled = true ∧ (s.sm 1).inGroup 4 = true ∧
    (s.sm 0).inGroup 4 = true := by decide

theorem witness_DisableFreezes : ((running plain 0).sm 0).enabled = true := by decide

/-- A submit to a full FIFO, one to a FIFO with room, and the write that follows it. -/
theorem witness_SubmitReportsRoom :
    let full := { atHost { plain with txf := [1, 2, 3, 4] } with hostq := [⟨0, .submit 0 9 2⟩] }
    let room := { atHost { plain with txf := [1, 2, 3] } with hostq := [⟨0, .submit 0 9 2⟩] }
    let write := { atHost { plain with txf := [1, 2, 3] } with hostq := [⟨0, .submitWrite 0 9⟩] }
    full.boundary = true ∧ full.hostq = [⟨0, .submit 0 9 2⟩] ∧ (full.sm 0).cap ≤ (full.sm 0).txf.length ∧
    room.hostq = [⟨0, .submit 0 9 2⟩] ∧ (room.sm 0).txf.length < (room.sm 0).cap ∧
    write.hostq = [⟨0, .submitWrite 0 9⟩] ∧ (write.sm 0).txf.length < (write.sm 0).cap := by decide

theorem witness_BlockingAndUncheckedSubmit :
    let hold := { atHost { plain with txf := [1, 2, 3, 4] } with hostq := [⟨0, .submitBlocking 0 9⟩] }
    let drop := { atHost { plain with txf := [1, 2, 3, 4] } with hostq := [⟨0, .submitUnchecked 0 9⟩] }
    hold.boundary = true ∧ hold.hostq = [⟨0, .submitBlocking 0 9⟩] ∧
    drop.hostq = [⟨0, .submitUnchecked 0 9⟩] ∧ (hold.sm 0).cap ≤ (hold.sm 0).txf.length ∧
    (drop.sm 0).cap ≤ (drop.sm 0).txf.length := by decide

/-- The last free entry of a FIFO of four, for both operations. -/
theorem witness_BlockingAndUncheckedSubmit_room :
    let block := { atHost { plain with txf := [1, 2, 3] } with hostq := [⟨0, .submitBlocking 0 9⟩] }
    let push := { atHost { plain with txf := [1, 2, 3] } with hostq := [⟨0, .submitUnchecked 0 9⟩] }
    block.boundary = true ∧ block.hostq = [⟨0, .submitBlocking 0 9⟩] ∧
    (block.sm 0).txf.length < (block.sm 0).cap ∧ push.hostq = [⟨0, .submitUnchecked 0 9⟩] ∧
    (push.sm 0).txf.length < (push.sm 0).cap := by decide

theorem witness_MultiChannelSubmitsInOrder :
    let item (op : MultiOp) := { atHost plain with nCh := 2, hostq := [⟨0, .multi true op 3⟩] }
    let s := item .throttleMinimum
    s.boundary = true ∧ 0 ≤ s.time ∧ s.nCh ≤ 4 ∧ [EncOp.throttleMinimum, .throttleMinimum].length = s.nCh ∧
    (∀ e ∈ [EncOp.throttleMinimum, .throttleMinimum], e = .throttleMinimum) ∧
    s.hostq = [⟨0, .multi true .throttleMinimum 3⟩] ∧
    (item (.command [1, 2])).hostq = [⟨0, .multi true (.command [1, 2]) 3⟩] ∧
    [EncOp.command 1, .command 2] = [1, 2].map .command ∧
    (item (.reverse [true, false])).hostq = [⟨0, .multi true (.reverse [true, false]) 3⟩] ∧
    [EncOp.reverse true, .reverse false] = [true, false].map .reverse ∧
    (item (.throttleClamp [48, 0])).hostq = [⟨0, .multi true (.throttleClamp [48, 0]) 3⟩] ∧
    [EncOp.throttleClamp 48, .throttleClamp 0] = [48, 0].map .throttleClamp := by decide

/-- The return of an array of two results behind an older one. -/
theorem witness_MultiChannelSubmitsInOrder_return :
    let s := { atHost plain with
      hostq := [⟨0, .collect 2⟩], results := [.word 7, .flag true, .flag false] }
    s.boundary = true ∧ s.results = [.word 7] ++ [true, false].map .flag ∧
    s.hostq = [⟨0, .collect [true, false].length⟩] := by decide

end Sys2Proof.Tests
end

/-! SUPPORT. The reads of the host's registers (10_state R38 to R50). -/

namespace Sys2Proof.Machine

/-- EXECCTRL reads as its bits 30:0 under EXEC_STALLED (R45). -/
theorem SM.execctrlRead_eq_append (m : SM) :
    m.execctrlRead = BitVec.ofBool m.stalled ++ m.execctrl.extractLsb' 0 31 := by
  have parts : m.execctrl.extractLsb' 31 1 ++ m.execctrl.extractLsb' 0 31 = m.execctrl :=
    (BitVec.extractLsb'_append_extractLsb'_eq_extractLsb' rfl).trans BitVec.extractLsb'_eq_self
  have mask : 0#1 ++ BitVec.allOnes 31 = 0x7FFFFFFF#32 := by decide
  have top : BitVec.ofBool m.stalled ++ 0#31 = if m.stalled then 0x80000000#32 else 0#32 := by
    cases m.stalled <;> decide
  calc m.execctrlRead
      = (m.execctrl.extractLsb' 31 1 ++ m.execctrl.extractLsb' 0 31) &&& (0#1 ++ BitVec.allOnes 31) |||
          (BitVec.ofBool m.stalled ++ 0#31) := by rw [parts, mask, top]; rfl
    _ = BitVec.ofBool m.stalled ++ m.execctrl.extractLsb' 0 31 := by
      rw [BitVec.and_append, BitVec.or_append, BitVec.and_zero, BitVec.and_allOnes, BitVec.zero_or,
        BitVec.or_zero]

/-- A slot's word, zero-extended, has an upper half of 0 (R49). -/
theorem Half.toNat_setWidth_lt (w : Half) : (w.setWidth 32).toNat < 65536 :=
  (BitVec.toNat_setWidth_of_le (by decide)).trans_lt w.isLt

/-- The value of a register is what a read of it shows (R40 to R50). -/
theorem shows_of_regValue {s : State} {r : Reg} {v : Word} (h : regValue s r = some v) : s.Shows v r := by
  cases r with
  | txf i | instrMem a => cases h
  | execctrl k => cases h; exact (s.sm k).execctrlRead_eq_append
  | addr k => cases h; exact (BitVec.ofNat_toNat ..).symm
  | instr k =>
    obtain ⟨w, hw, rfl⟩ := Option.map_eq_some_iff.mp h
    refine ⟨Half.toNat_setWidth_lt w, fun u hu => ?_⟩
    cases hw.symm.trans hu
    exact (BitVec.ofNat_toNat ..).symm
  | _ => cases h; rfl

/-- A register with a value gives it as a result, and nothing else changes (R38). -/
theorem readReg_of_regValue {s : State} {r : Reg} {v : Word} (h : regValue s r = some v) :
    readReg s r = s.giveResult (.word v) := by
  cases r with
  | txf i | instrMem a => cases h
  | instr k => unfold readReg; simp only [h]
  | _ => cases h; rfl

/-- Only the write-only registers and SMi_INSTR at an unloaded slot have no value (R38, R49). -/
theorem regValue_eq_none_iff {s : State} {r : Reg} :
    regValue s r = none ↔ (∃ i, r = .txf i) ∨ (∃ a, r = .instrMem a) ∨
      ∃ k, r = .instr k ∧ Memory.read s.imem (s.sm k).pc.toNat = none := by
  cases r <;> simp [regValue]

/-- SMi_INSTR at an unloaded slot gives a free draw in its low half (R49). -/
theorem readReg_instr_of_unloaded {s : State} {k : Fin 4}
    (h : Memory.read s.imem (s.sm k).pc.toNat = none) :
    readReg s (.instr k) =
      { s with
        results := s.results ++ [.word ((Config.unloadedWord s.hostDraws).setWidth 32)]
        hostDraws := s.hostDraws + 1 } := by
  have hv : regValue s (.instr k) = none := regValue_eq_none_iff.mpr (.inr (.inr ⟨k, rfl, h⟩))
  unfold readReg
  simp only [hv]
  rfl

/-- At an unloaded slot SMi_INSTR shows any word whose upper half is 0 (R49). -/
theorem shows_instr_of_unloaded {s : State} {k : Fin 4}
    (h : Memory.read s.imem (s.sm k).pc.toNat = none) (w : Half) :
    s.Shows (w.setWidth 32) (.instr k) :=
  ⟨Half.toNat_setWidth_lt w, fun _ hu => nomatch h.symm.trans hu⟩

/-- Settles O46: a register with a value gives that value; of the readable ones only SMi_INSTR at an unloaded
slot has none, and gives a free draw. -/
theorem readsHaveNoSideEffect : Obligations.ReadsHaveNoSideEffect := by
  unfold Obligations.ReadsHaveNoSideEffect
  intro s r htxf himem
  rw [hostRead_regOffset]
  cases hv : regValue s r with
  | some v => exact ⟨v, s.hostDraws, readReg_of_regValue hv, shows_of_regValue hv, .inl rfl⟩
  | none =>
    obtain ⟨i, hi⟩ | ⟨a, ha⟩ | ⟨k, rfl, hslot⟩ := regValue_eq_none_iff.mp hv
    · exact absurd hi (htxf i)
    · exact absurd ha (himem a)
    · exact ⟨_, _, readReg_instr_of_unloaded hslot, shows_instr_of_unloaded hslot _, .inr ⟨k, rfl⟩⟩

end Sys2Proof.Machine

/-! SUPPORT. A push into the transmit FIFO (20_memory R73, R75). -/

namespace Sys2Proof.Machine

@[simp] theorem SM.fifoFull_iff {m : SM} : m.fifoFull = true ↔ m.cap ≤ m.txf.length := by
  unfold SM.fifoFull
  exact decide_eq_true_iff

/-- With room the word is the newest of the queue (R75). -/
theorem SM.fifoPush_of_lt_cap {m : SM} (w : Word) (h : m.txf.length < m.cap) :
    m.fifoPush w = { m with txf := m.txf ++ [w] } :=
  if_neg (SM.fifoFull_iff.not.mpr (Nat.not_le.mpr h))

/-- A full FIFO drops the word and records TXOVER (R75). -/
theorem SM.fifoPush_of_cap_le {m : SM} (w : Word) (h : m.cap ≤ m.txf.length) :
    m.fifoPush w = { m with txover := true } :=
  if_pos (SM.fifoFull_iff.mpr h)

/-- The host's write of TXFi is a push into that machine's FIFO (R75, R288). -/
theorem writeReg_txf (s : State) (k : Fin 4) (w : Word) :
    writeReg s (.txf k) w = s.setSm k ((s.sm k).fifoPush w) := rfl

/-- Settles O48: the write is a push, which appends the word with room and drops it on a full FIFO. -/
theorem txfWritePushesOrDrops : Obligations.TxfWritePushesOrDrops := by
  unfold Obligations.TxfWritePushesOrDrops
  intro s k w
  rw [hostWrite_regOffset, writeReg_txf]
  constructor
  · intro room
    rw [SM.fifoPush_of_lt_cap w room]
  · intro full
    rw [SM.fifoPush_of_cap_le w full]

end Sys2Proof.Machine

/-! SUPPORT. The refused and reserved words (30_encoding R112, R113, 42_set R185, 44_nop R221). -/

namespace Sys2Proof.Machine

/-- Whatever the reason of its verdict, the one effect of a word that is not admitted is the refusal (R139). -/
theorem exec_of_verdict_ne_admitted {i : Instr} (s : State) (h : verdict i ≠ .admitted) :
    exec i s = .next s.refuseInstr := by
  cases i with
  | waitRefused | inRefused | pushRefused | irqRefused | movOther => rfl
  | outPinsRefused | outPindirsRefused | outPcRefused | outIsrRefused | outExecRefused => rfl
  | pullReserved | movReservedDest | movReservedOp | movReservedSrc => rfl
  | setReserved3 | setReserved5 | setReserved6 | setReserved7 => rfl
  | _ => exact absurd rfl h

/-- Settles O24: exec answers the refusal of the instruction, which sets the mark and stops the machine. -/
theorem refusedWordsSetTheMark : Obligations.RefusedWordsSetTheMark := by
  unfold Obligations.RefusedWordsSetTheMark
  intro i s h
  exact ⟨s.refuseInstr, exec_of_verdict_ne_admitted s h, s.refused_refuseInstr⟩

end Sys2Proof.Machine

/-! SUPPORT. The clock divider and the delay cycle (40_execution R132, R136). -/

namespace Sys2Proof.Machine

/-- The eight bits of the accumulator hold `sum` modulo 256 (R136). -/
theorem SM.tick_divAcc (m : SM) : m.tick.divAcc = BitVec.ofNat 8 (m.divSum % 256) :=
  BitVec.eq_of_toNat_eq (Nat.mod_mod m.divSum 256).symm

@[simp] theorem SM.tick_nextEn (m : SM) : m.tick.nextEn = m.nextEn + m.divStep := rfl

/-- The divider's recurrence (R136). -/
theorem SM.tick_eq (m : SM) :
    m.tick =
      { m with
        nextEn := m.nextEn + m.divPeriod + (if 256 ≤ m.divSum then 1 else 0)
        divAcc := BitVec.ofNat 8 (m.divSum % 256) } := by
  rw [← m.tick_divAcc, Nat.add_assoc]
  rfl

/-- The accumulator alone never reaches 256, so with FRAC 0 no interval is the longer one (R136). -/
theorem SM.divStep_of_divFrac_eq_zero {m : SM} (h : m.divFrac = 0) : m.divStep = m.divPeriod := by
  have short : ¬256 ≤ m.divSum := by
    simpa [SM.divSum, h] using m.divAcc.isLt
  exact congrArg (m.divPeriod + ·) (if_neg short)

theorem SM.divStep_eq_or (m : SM) : m.divStep = m.divPeriod ∨ m.divStep = m.divPeriod + 1 := by
  unfold SM.divStep
  split
  · exact .inr rfl
  · exact .inl rfl

/-- Over 256 cycles the accumulator returns to its start, so what they last does not depend on it (R136). -/
theorem SM.systemCycles_256 (m : SM) : m.systemCycles 256 = 256 * m.divPeriod + m.divFrac.toNat := by
  have carries : (m.divAcc.toNat + 256 * m.divFrac.toNat) / 256 = m.divFrac.toNat := by
    rw [Nat.add_mul_div_left _ _ (by decide), Nat.div_eq_of_lt m.divAcc.isLt, Nat.zero_add]
  exact congrArg (256 * m.divPeriod + ·) carries

/-- Settles O11: the lengths are those of `SM.divStep`, and 256 intervals are the cycles that `SM.systemCycles`
counts. -/
theorem dividerIntervals : Obligations.DividerIntervals := by
  unfold Obligations.DividerIntervals
  intro m period sum
  refine ⟨m.tick_eq, fun noFrac => ?_, ?_, ?_⟩
  · rw [SM.tick_nextEn, SM.divStep_of_divFrac_eq_zero noFrac]
    rfl
  · exact m.divStep_eq_or.imp (congrArg (m.nextEn + ·)) (congrArg (m.nextEn + ·))
  · rw [SM.tick_iterate_nextEn, SM.systemCycles_256]
    rfl

/-- Away from a boundary a step is the turn of the executing machine (R141). -/
theorem step_of_not_boundary {s : State} (h : s.boundary = false) : step s = smTurn s :=
  if_neg (Bool.eq_false_iff.mp h)

/-- The pulse of a machine with DELAY left is a delay cycle (R132). -/
theorem smTurn_of_delay {s : State} (hdue : s.due s.active = true) (hdelay : s.cur.delay ≠ 0) :
    smTurn s = .next (s.setCur s.cur.delayCycle).endPulse := by
  unfold smTurn
  rw [if_pos hdue, if_pos hdelay]

/-- Settles O8: the step is the turn of the machine, and that is a delay cycle. -/
theorem delayCycleOnlyCountsDown : Obligations.DelayCycleOnlyCountsDown := by
  unfold Obligations.DelayCycleOnlyCountsDown
  intro s hboundary hdue hdelay
  exact (step_of_not_boundary hboundary).trans (smTurn_of_delay hdue hdelay)

end Sys2Proof.Machine

/-! SUPPORT. The JMP conditions (41_jmp R160 to R168). -/

namespace Sys2Proof.Machine

/-! ## Where a condition leads -/

/-- A JMP taken where `u` is `v`. -/
theorem branch_beq (s : State) (m : SM) (u v : Word) (d a : BitVec 5) :
    branch s m (u == v) d a = .next (s.setCur (m.goesTo (if u = v then a else m.nextSlot) d)) := by
  simp only [branch_eq, beq_iff_eq]

/-- A JMP taken where `u` is not `v`. -/
theorem branch_bne (s : State) (m : SM) (u v : Word) (d a : BitVec 5) :
    branch s m (u != v) d a = .next (s.setCur (m.goesTo (if u = v then m.nextSlot else a) d)) := by
  simp only [branch_eq, bne_iff_ne, ne_eq, ite_not]

theorem SM.osrNotEmpty_iff (m : SM) : m.osrNotEmpty = true ↔ m.osrCount < m.thr := decide_eq_true_iff

/-- An instruction that reads an unwritten register answers the fault of R31 and R302. -/
theorem withReg_faulted {s : State} {v : Option Word} (i : Instr) (r : RegName)
    (use : Word → Host.Outcome State Fault Refusal) (h : v = none) :
    ∃ t, withReg s i r v use = .next t ∧
      s.Faulted t (.unwrittenRead s.active s.cur.pc (encode i) r) := by
  rw [h, withReg_none]
  exact ⟨_, rfl, s.faulted_raise _⟩

/-! ## Each condition, with its registers written -/

section Written
variable {s : State} (d a : BitVec 5)

/-- `!X` of a written X (R162). -/
theorem exec_jmpNotX_of_written {x : Word} (h : s.cur.x = some x) :
    exec (.jmpNotX d a) s =
      .next (s.setCur (s.cur.goesTo (if x = 0 then a else s.cur.nextSlot) d)) := by
  rw [exec, execJmpNotX, h, withReg_some, branch_beq]

/-- `X--` of a written X: the test is of the old value (R163). -/
theorem exec_jmpXDec_of_written {v : Word} (h : s.cur.x = some v) :
    exec (.jmpXDec d a) s =
      .next (s.setCur
        ({ s.cur with x := some (v - 1) }.goesTo (if v = 0 then s.cur.nextSlot else a) d)) := by
  rw [exec, execJmpXDec, h, withReg_some, branch_bne]
  rfl

/-- `!Y` of a written Y (R164). -/
theorem exec_jmpNotY_of_written {y : Word} (h : s.cur.y = some y) :
    exec (.jmpNotY d a) s =
      .next (s.setCur (s.cur.goesTo (if y = 0 then a else s.cur.nextSlot) d)) := by
  rw [exec, execJmpNotY, h, withReg_some, branch_beq]

/-- `Y--` of a written Y: the test is of the old value (R165). -/
theorem exec_jmpYDec_of_written {v : Word} (h : s.cur.y = some v) :
    exec (.jmpYDec d a) s =
      .next (s.setCur
        ({ s.cur with y := some (v - 1) }.goesTo (if v = 0 then s.cur.nextSlot else a) d)) := by
  rw [exec, execJmpYDec, h, withReg_some, branch_bne]
  rfl

/-- The JMP `X!=Y` with X written goes on to read Y (R166). -/
theorem exec_jmpXNeY_of_x_written {x : Word} (h : s.cur.x = some x) :
    exec (.jmpXNeY d a) s =
      withReg s (.jmpXNeY d a) .y s.cur.y fun y => branch s s.cur (x != y) d a := by
  rw [exec, execJmpXNeY, h, withReg_some]

end Written

/-! ## The loop closed by a post-decrement (R163, R165) -/

theorem loopTimes_succ_of_next {i : Instr} {body : State → State} {k : Nat} {s u t : State}
    (hu : loopTimes i body k s = some u) (ht : exec i (body u) = .next t) :
    loopTimes i body (k + 1) s = some t := by
  induction k generalizing s with
  | zero =>
    cases hu
    simp only [loopTimes, ht]
  | succ k ih =>
    unfold loopTimes at hu ⊢
    split at hu
    · exact ih hu
    · cases hu
    · cases hu

/-- `i` takes 1 from the register `reg` and jumps to `a` unless the register held 0. -/
def PostDecrements (i : Instr) (reg : SM → Option Word) (a : Slot) : Prop :=
  ∀ (s : State) (v : Word), reg s.cur = some v →
    ∃ t, exec i s = .next t ∧ t.cur.pc = (if v = 0 then s.cur.nextSlot else a) ∧
      reg t.cur = some (v - 1)

theorem postDecrements_jmpXDec (d a : BitVec 5) : PostDecrements (.jmpXDec d a) SM.x a := fun s _ h =>
  ⟨_, exec_jmpXDec_of_written d a h, by rw [s.cur_setCur], by rw [s.cur_setCur]⟩

theorem postDecrements_jmpYDec (d a : BitVec 5) : PostDecrements (.jmpYDec d a) SM.y a := fun s _ h =>
  ⟨_, exec_jmpYDec_of_written d a h, by rw [s.cur_setCur], by rw [s.cur_setCur]⟩

section Loop
variable {i : Instr} {reg : SM → Option Word} {a : Slot} {body : State → State} {n : Nat} {s : State}

/-- After `k` rounds the register is down by `k`; each of them ended with the jump to `a`, since before it
the register held at least 1. -/
theorem PostDecrements.after_rounds (h : PostDecrements i reg a)
    (keeps : ∀ u, reg (body u).cur = reg u.cur) (hn : n < 2 ^ 32)
    (hs : reg s.cur = some (BitVec.ofNat 32 n)) {k : Nat} (hk : k ≤ n) :
    ∃ t, loopTimes i body k s = some t ∧ (0 < k → t.cur.pc = a) ∧
      reg t.cur = some (BitVec.ofNat 32 (n - k)) := by
  induction k with
  | zero => exact ⟨s, rfl, fun hk => absurd hk (Nat.lt_irrefl 0), hs⟩
  | succ k ih =>
    obtain ⟨u, hrounds, -, hu⟩ := ih (by omega)
    obtain ⟨t, hexec, hpc, hreg⟩ := h (body u) _ ((keeps u).trans hu)
    have nonzero : BitVec.ofNat 32 (n - k) ≠ 0 := by bv_omega
    have down : BitVec.ofNat 32 (n - k) - 1 = BitVec.ofNat 32 (n - (k + 1)) := by bv_omega
    rw [if_neg nonzero] at hpc
    rw [down] at hreg
    exact ⟨t, loopTimes_succ_of_next hrounds hexec, fun _ => hpc, hreg⟩

/-- After the `n` rounds that jump back the register is 0, so the next JMP falls through and the register
wraps. -/
theorem PostDecrements.loop (h : PostDecrements i reg a)
    (keeps : ∀ u, reg (body u).cur = reg u.cur) (hn : n < 2 ^ 32)
    (hs : reg s.cur = some (BitVec.ofNat 32 n)) :
    (∀ k, k ≤ n → 0 < k → ∃ t, loopTimes i body k s = some t ∧ t.cur.pc = a ∧
      reg t.cur = some (BitVec.ofNat 32 (n - k))) ∧
    ∃ u t, loopTimes i body n s = some u ∧ exec i (body u) = .next t ∧
      t.cur.pc = (body u).cur.nextSlot ∧ reg t.cur = some 0xFFFFFFFF := by
  constructor
  · intro k hk pos
    obtain ⟨t, hrounds, hpc, hreg⟩ := h.after_rounds keeps hn hs hk
    exact ⟨t, hrounds, hpc pos, hreg⟩
  · obtain ⟨u, hrounds, -, hu⟩ := h.after_rounds keeps hn hs le_rfl
    rw [Nat.sub_self] at hu
    obtain ⟨t, hexec, hpc, hreg⟩ := h (body u) 0 ((keeps u).trans hu)
    exact ⟨u, t, hrounds, hexec, hpc, hreg⟩

end Loop

/-! ## The statements -/

/-- Settles O14: the rule of a written X, its fault, and the loop law of a post-decrement. -/
theorem jmpXPostDecrement : Obligations.JmpXPostDecrement := by
  unfold Obligations.JmpXPostDecrement
  intro s d a
  refine ⟨fun _ hx => exec_jmpXDec_of_written d a hx, withReg_faulted _ _ _, ?_⟩
  exact fun _ _ keeps hn hs => (postDecrements_jmpXDec d a).loop keeps hn hs

/-- Settles O15: the rule of a written Y, its fault, and the loop law of a post-decrement. -/
theorem jmpYPostDecrement : Obligations.JmpYPostDecrement := by
  unfold Obligations.JmpYPostDecrement
  intro s d a
  refine ⟨fun _ hy => exec_jmpYDec_of_written d a hy, withReg_faulted _ _ _, ?_⟩
  exact fun _ _ keeps hn hs => (postDecrements_jmpYDec d a).loop keeps hn hs

/-- Settles O13: for each register the rule of a written one and the fault of an unwritten one. -/
theorem jmpIfZero : Obligations.JmpIfZero := by
  unfold Obligations.JmpIfZero
  intro s d a
  exact ⟨fun _ hx => exec_jmpNotX_of_written d a hx, withReg_faulted _ _ _,
    fun _ hy => exec_jmpNotY_of_written d a hy, withReg_faulted _ _ _⟩

/-- Settles O16: X is read first, so its fault comes before that of Y. -/
theorem jmpIfNotEqual : Obligations.JmpIfNotEqual := by
  unfold Obligations.JmpIfNotEqual
  intro s d a
  constructor
  · intro x y hx hy
    rw [exec_jmpXNeY_of_x_written d a hx, hy, withReg_some, branch_bne]
  · intro unwritten
    cases hx : s.cur.x with
    | none =>
      obtain ⟨t, hexec, hfault⟩ := withReg_faulted (s := s) (.jmpXNeY d a) .x _ hx
      exact ⟨t, .x, hexec, .inl ⟨rfl, rfl⟩, hfault⟩
    | some x =>
      have hy : s.cur.y = none := unwritten.resolve_left (by simp [hx])
      rw [exec_jmpXNeY_of_x_written d a hx]
      obtain ⟨t, hexec, hfault⟩ := withReg_faulted (s := s) (.jmpXNeY d a) .y _ hy
      exact ⟨t, .y, hexec, .inr ⟨rfl, hy⟩, hfault⟩

/-- Settles O12: the JMP is the branch that is taken. -/
theorem jmpAlwaysIsTaken : Obligations.JmpAlwaysIsTaken := by
  unfold Obligations.JmpAlwaysIsTaken
  exact fun s d a => branch_eq s s.cur true d a

/-- Settles O18: the JMP is the branch on OSR_COUNT below the threshold. -/
theorem jmpWhileBitsAreLeft : Obligations.JmpWhileBitsAreLeft := by
  unfold Obligations.JmpWhileBitsAreLeft
  intro s d a
  rw [exec, execJmpNotOsre, branch_eq]
  simp only [SM.osrNotEmpty_iff, SM.thr]

end Sys2Proof.Machine

/-! SUPPORT. The four SETs (42_set R180 to R184). -/

namespace Sys2Proof.Machine

/-! ## The pins of a SET group -/

/-- `(p - base) mod 32` is the place of pin `p` counted from `base`. -/
theorem PinIx.toNat_sub_eq_iff (base p : PinIx) {j : Nat} (hj : j < 32) :
    (p - base).toNat = j ↔ p.toNat = (base.toNat + j) % 32 := by
  have := base.isLt
  have := p.isLt
  rw [BitVec.toNat_sub]
  omega

/-- Pin `(base + j) mod 32` of a written group holds bit `j` of the data. -/
theorem getElem_writeGroup_group (base : PinIx) (data : BitVec 5) (v : Pins) {n j : Nat}
    (hn : n ≤ 32) (hj : j < n) :
    (writeGroup base data n v)[(BitVec.ofNat 5 (base.toNat + j)).toNat]'(BitVec.isLt _) =
      data.getLsbD j := by
  have hplace : (BitVec.ofNat 5 (base.toNat + j) - base).toNat = j :=
    (PinIx.toNat_sub_eq_iff base _ (by omega)).2 (BitVec.toNat_ofNat _ _)
  rw [getElem_writeGroup base data v _ n hn, hplace, if_pos hj]

/-- A pin that is no pin `(base + j) mod 32` of a written group is as before. -/
theorem getElem_writeGroup_other (base : PinIx) (data : BitVec 5) (v : Pins) (p : PinIx) {n : Nat}
    (hn : n ≤ 32) (hp : ∀ j, j < n → p.toNat ≠ (base.toNat + j) % 32) :
    (writeGroup base data n v)[p.toNat]'(BitVec.isLt p) = v[p.toNat]'(BitVec.isLt p) := by
  have houtside : ¬ (p - base).toNat < n := fun hlt =>
    hp _ hlt ((PinIx.toNat_sub_eq_iff base p (by omega)).1 rfl)
  rw [getElem_writeGroup base data v p n hn, if_neg houtside]

theorem SM.setCount_le (m : SM) : m.setCount ≤ 32 := by
  have := m.setCount_lt
  omega

/-! ## What a SET leaves alone -/

/-- A change of the executing machine leaves the rest of the block as it was. -/
theorem State.sameElsewhere.setCur {s u : State} (h : s.sameElsewhere u) (m : SM) :
    s.sameElsewhere (u.setCur m) := by
  obtain ⟨hsm, himem, htime, hboundary, hactive, hrest⟩ := h
  refine ⟨fun j hj => ?_, himem, htime, hboundary, hactive, hrest⟩
  rw [State.sm_setCur_ne u m (hactive ▸ hj), hsm j hj]

theorem State.sameElsewhere_writePins (s : State) (base : PinIx) (n : Nat) (data : BitVec 5) :
    s.sameElsewhere (s.writePins base n data) :=
  ⟨fun _ _ => rfl, fun _ => rfl, rfl, rfl, rfl, rfl, rfl, rfl, rfl, rfl, rfl⟩

theorem State.sameElsewhere_writePinDirs (s : State) (base : PinIx) (n : Nat) (data : BitVec 5) :
    s.sameElsewhere (s.writePinDirs base n data) :=
  ⟨fun _ _ => rfl, fun _ => rfl, rfl, rfl, rfl, rfl, rfl, rfl, rfl, rfl, rfl⟩

/-! ## The statements -/

/-- Settles O19: each SET completes in the state with its group written, whose pins are those of a written
group. -/
theorem setWritesTheGroup : Obligations.SetWritesTheGroup := by
  unfold Obligations.SetWritesTheGroup
  intro s d v
  constructor
  · refine ⟨(s.writePins s.cur.setBase s.cur.setCount v).setCur (s.cur.complete d none), rfl,
      State.cur_setCur _ _, (s.sameElsewhere_writePins _ _ _).setCur _, ⟨rfl, rfl⟩, rfl, rfl, ?_, ?_⟩
    · exact fun _ hj => getElem_writeGroup_group _ _ _ s.cur.setCount_le hj
    · exact fun p hp => getElem_writeGroup_other _ _ _ p s.cur.setCount_le hp
  · refine ⟨(s.writePinDirs s.cur.setBase s.cur.setCount v).setCur (s.cur.complete d none), rfl,
      State.cur_setCur _ _, (s.sameElsewhere_writePinDirs _ _ _).setCur _, ⟨rfl, rfl⟩, rfl, rfl, ?_, ?_⟩
    · exact fun _ hj => getElem_writeGroup_group _ _ _ s.cur.setCount_le hj
    · exact fun p hp => getElem_writeGroup_other _ _ _ p s.cur.setCount_le hp

/-- Settles O20: a SET completes with its register written, and the zero extension keeps the number. -/
theorem setScratchRegister : Obligations.SetScratchRegister := by
  unfold Obligations.SetScratchRegister
  intro s d v
  rw [BitVec.ofNat_toNat]
  exact ⟨rfl, rfl⟩

end Sys2Proof.Machine

/-! SUPPORT. OUT and PULL (43_out_pull R190 to R199). -/

namespace Sys2Proof.Machine

/-! ## The bits of a shift (R190) -/

theorem Word.ushiftRight_eq_ofNat (v : Word) (n : Nat) : v >>> n = BitVec.ofNat 32 (v.toNat / 2 ^ n) := by
  rw [← Nat.shiftRight_eq_div_pow, ← BitVec.toNat_ushiftRight, BitVec.ofNat_toNat, BitVec.setWidth_eq]

theorem Word.shiftLeft_eq_ofNat (v : Word) (n : Nat) : v <<< n = BitVec.ofNat 32 (v.toNat * 2 ^ n) := by
  rw [← Nat.shiftLeft_eq]
  rfl

/-- A shift by `n` delivers the `n` least significant bits to the right, the `n` most significant ones to the
left. -/
theorem shiftOut_fst (right : Bool) (n : Nat) (v : Word) :
    (shiftOut right n v).1 =
      if right then BitVec.ofNat 32 (v.toNat % 2 ^ n) else BitVec.ofNat 32 (v.toNat / 2 ^ (32 - n)) := by
  cases right with
  | true => rfl
  | false => exact Word.ushiftRight_eq_ofNat v (32 - n)

/-- What a shift keeps is the rest, filled with zeros. -/
theorem shiftOut_snd (right : Bool) (n : Nat) (v : Word) :
    (shiftOut right n v).2 =
      if right then BitVec.ofNat 32 (v.toNat / 2 ^ n) else BitVec.ofNat 32 (v.toNat * 2 ^ n) := by
  cases right with
  | true => exact Word.ushiftRight_eq_ofNat v n
  | false => exact Word.shiftLeft_eq_ofNat v n

/-! ## The next slot does not depend on the OSR and the FIFO (R138) -/

theorem SM.Popped.nextSlot_eq {m m' : SM} (h : m.Popped m') : m'.nextSlot = m.nextSlot := by
  obtain ⟨w, rest, -, rfl⟩ := h
  rfl

theorem SM.OutBegins.nextSlot_eq {m m' : SM} (h : m.OutBegins m') : m'.nextSlot = m.nextSlot := by
  obtain ⟨-, popped⟩ | ⟨-, rfl⟩ := h
  · exact SM.Popped.nextSlot_eq popped
  · rfl

theorem SM.nextSlot_pullAfter (m : SM) : m.pullAfter.nextSlot = m.nextSlot := by
  obtain ⟨-, popped⟩ | ⟨-, same⟩ := m.outEnds_pullAfter
  · exact SM.Popped.nextSlot_eq popped
  · rw [same]

/-! ## The common rule of OUT (R190) -/

section Out
variable {s : State} (i : Instr) (d count : BitVec 5) (deliver : SM → Word → SM)

theorem outWith_stalls (hwants : s.cur.wantsWord) (hempty : s.cur.txf = []) :
    outWith s i d count deliver = stallCur s := by
  rw [outWith, SM.pullBefore_eq_none.2 ⟨hwants, hempty⟩]

/-- With no refill due, an OSR that holds no value is a fault. -/
theorem outWith_faulted (hwants : ¬s.cur.wantsWord) (hosr : s.cur.osr = none) :
    ∃ t, outWith s i d count deliver = .next t ∧
      s.Faulted t (.unwrittenRead s.active s.cur.pc (encode i) .osr) := by
  rw [outWith, SM.pullBefore_eq_some.2 (.inr ⟨hwants, rfl⟩)]
  exact withReg_faulted i .osr _ hosr

/-- With a value in the OSR it shifts, delivers, refills where a refill is due, and completes. -/
theorem outWith_completes {m : SM} {v : Word}
    (keeps : ∀ m v, (deliver m v).nextSlot = m.nextSlot)
    (hbegins : s.cur.OutBegins m) (hosr : m.osr = some v) :
    ∃ m2, (deliver (m.shifted (bitCount count) v) (shiftOut m.shiftRight (bitCount count) v).1).OutEnds m2 ∧
      outWith s i d count deliver = .next (s.setCur (m2.goesTo s.cur.nextSlot d)) := by
  have next : (deliver (m.shifted (bitCount count) v)
      (shiftOut m.shiftRight (bitCount count) v).1).pullAfter.nextSlot = s.cur.nextSlot :=
    (SM.nextSlot_pullAfter _).trans ((keeps _ _).trans hbegins.nextSlot_eq)
  refine ⟨_, SM.outEnds_pullAfter _, ?_⟩
  rw [outWith, SM.pullBefore_eq_some.2 hbegins]
  simp only [hosr, withReg_some]
  rw [finish, SM.complete_eq, Option.getD_none, next]

end Out

/-- Settles O22: each of the three is the common rule with its own delivery, which leaves the next slot alone. -/
theorem outFollowsItsRule : Obligations.OutFollowsItsRule := by
  unfold Obligations.OutFollowsItsRule
  intro s d count
  constructor
  · intro i hi
    have common : ∃ deliver, exec i s = outWith s i d count deliver := by
      simp only [List.mem_cons, List.not_mem_nil, or_false] at hi
      obtain rfl | rfl | rfl := hi
      · exact ⟨_, exec_outX d count s⟩
      · exact ⟨_, exec_outY d count s⟩
      · exact ⟨_, exec_outNull d count s⟩
    obtain ⟨deliver, hexec⟩ := common
    rw [hexec]
    exact ⟨outWith_stalls i d count deliver, outWith_faulted i d count deliver⟩
  · intro m v hbegins hosr n data rest m1
    have hdata : (shiftOut m.shiftRight (bitCount count) v).1 = data := shiftOut_fst _ _ _
    have hshifted : m.shifted (bitCount count) v = m1 := by
      rw [SM.shifted, shiftOut_snd]
      rfl
    have completes {i : Instr} {deliver : SM → Word → SM}
        (hexec : exec i s = outWith s i d count deliver)
        (keeps : ∀ m v, (deliver m v).nextSlot = m.nextSlot) :
        ∃ m2, (deliver m1 data).OutEnds m2 ∧
          exec i s = .next (s.setCur (m2.goesTo s.cur.nextSlot d)) := by
      rw [hexec, ← hdata, ← hshifted]
      exact outWith_completes i d count deliver keeps hbegins hosr
    have hx := completes (exec_outX d count s) fun _ _ => rfl
    have hy := completes (exec_outY d count s) fun _ _ => rfl
    have hn := completes (exec_outNull d count s) fun _ _ => rfl
    exact ⟨hx, hy, hn⟩

/-! ## The common rule of PULL (R194) -/

/-- The tests that make a PULL a no-op: a full OSR under auto-pull, or IFEMPTY with bits left (R194). -/
abbrev SM.PullSkips (m : SM) (ifEmpty : Bool) : Prop :=
  (m.autopull = true ∧ m.osrCount = 0) ∨ (ifEmpty = true ∧ m.osrCount < m.thr)

section Pull
variable {s : State} (i : Instr) (d : BitVec 5) {ifEmpty : Bool} (block : Bool)

theorem pullWith_of_skips (h : s.cur.PullSkips ifEmpty) :
    pullWith s i d ifEmpty block = finish s s.cur d none := by
  simp only [pullWith, Bool.and_eq_true, beq_iff_eq, SM.osrNotEmpty_iff, ← ite_or, if_pos h]

theorem pullWith_of_popped {m : SM} (h : ¬s.cur.PullSkips ifEmpty) (hpopped : s.cur.Popped m) :
    pullWith s i d ifEmpty block = finish s m d none := by
  simp only [pullWith, Bool.and_eq_true, beq_iff_eq, SM.osrNotEmpty_iff, ← ite_or, if_neg h,
    SM.loadOsr_eq_some.2 hpopped]

theorem pullWith_of_empty (h : ¬s.cur.PullSkips ifEmpty) (hempty : s.cur.txf = []) :
    pullWith s i d ifEmpty block =
      if block then stallCur s
      else withReg s i .x s.cur.x fun x => finish s { s.cur with osr := some x, osrCount := 0 } d none := by
  simp only [pullWith, Bool.and_eq_true, beq_iff_eq, SM.osrNotEmpty_iff, ← ite_or, if_neg h,
    SM.loadOsr_eq_none.2 hempty]

end Pull

/-- Settles O23: the four forms are the common rule at the four values of IFEMPTY and BLOCK. -/
theorem pullFollowsItsTests : Obligations.PullFollowsItsTests := by
  unfold Obligations.PullFollowsItsTests
  intro s d ife blk i hi noop
  have hexec : exec i s = pullWith s i d ife blk := by
    subst hi
    cases ife <;> cases blk <;> rfl
  rw [hexec]
  refine ⟨fun skips => pullWith_of_skips i d blk skips, fun h m popped => ?_, fun h empty blocks => ?_,
    fun h empty noBlock x hx => ?_, fun h empty noBlock hx => ?_⟩
  · rw [pullWith_of_popped i d blk h popped, finish, SM.complete_eq, Option.getD_none,
      SM.Popped.nextSlot_eq popped]
  · rw [pullWith_of_empty i d blk h empty, if_pos blocks]
    rfl
  · rw [pullWith_of_empty i d blk h empty, noBlock, hx]
    rfl
  · rw [pullWith_of_empty i d blk h empty, noBlock]
    exact withReg_faulted i .x _ hx

end Sys2Proof.Machine

/-! SUPPORT. NOP (44_nop R220). -/

namespace Sys2Proof.Machine

/-- Settles O21: NOP completes as the unchanged machine with no jump target, so the PC it goes to is the next
slot. -/
theorem nopOnlyMovesOn : Obligations.NopOnlyMovesOn := by
  unfold Obligations.NopOnlyMovesOn
  intro s d
  rw [exec, execNop, finish, SM.complete_eq, Option.getD_none]

end Sys2Proof.Machine


/-! SUPPORT. The state right after block reset (70_reset_and_hazards R320). -/

namespace Sys2Proof.Machine

/-- Block reset puts all four machines in the same state. -/
@[simp] theorem State.sm_reset (k : Fin 4) : State.reset.sm k = SM.reset := Vector.getElem_replicate _

@[simp] theorem State.enable_reset (p : PinIx) : State.reset.enable p = false := Vector.getElem_replicate _

@[simp] theorem State.latch_reset (p : PinIx) : State.reset.latch p = Config.pinLatchStart :=
  Vector.getElem_replicate _

/-- No machine steps before the host enables it (R28). -/
theorem State.due_eq_false_of_disabled {s : State} {k : Fin 4} (h : (s.sm k).enabled = false) :
    s.due k = false := by
  simp [State.due, h]

/-! ## The words that report on all four machines (R40 to R43) -/

theorem State.ctrl_reset : State.reset.ctrl = 0 := by
  simp only [State.ctrl, sm_reset]
  decide

theorem State.fstat_reset : State.reset.fstat = 0x0F000F00 := by
  simp only [State.fstat, sm_reset]
  decide

theorem State.fdebug_reset : State.reset.fdebug = 0 := by
  simp only [State.fdebug, sm_reset]
  decide

theorem State.flevel_reset : State.reset.flevel = 0 := by
  simp only [State.flevel, sm_reset]
  decide

/-- EXECCTRL reads as the field is stored: no machine is stalled (R45). -/
theorem SM.execctrlRead_reset : SM.reset.execctrlRead = 0x0001F000 := by decide

/-- Settles O44: each of the four machines is `SM.reset`, whose fields are the table's, and is not due because it
is disabled; the memory is empty, and each pin array holds one value everywhere. -/
theorem resetState : Obligations.ResetState := by
  unfold Obligations.ResetState
  refine ⟨congrArg some State.ctrl_reset, congrArg some State.fstat_reset, congrArg some State.fdebug_reset,
    congrArg some State.flevel_reset, fun k => ?_, Memory.read_nil,
    fun p => ⟨State.enable_reset p, State.latch_reset p⟩, rfl, rfl⟩
  have notDue : State.reset.due k = false :=
    State.due_eq_false_of_disabled (congrArg SM.enabled (State.sm_reset k))
  simp only [regValue, State.sm_reset, SM.execctrlRead_reset, notDue]
  decide

end Sys2Proof.Machine

/-! SUPPORT. Decoding and encoding (30_encoding R100 to R118): what the decoder makes of an assembled word, and
the rows of the opcode table it matches. -/

namespace Sys2Proof

/-! ## Decoding an assembled word, class by class -/

section Decode
variable (d : BitVec 5)

@[simp] theorem decode_assemble_jmp (s : BitVec 3) (a : BitVec 5) :
    decode (assemble 0 d (selArg s a)) = decodeJmp d s a := by
  simp [decode]

@[simp] theorem decode_assemble_out (s : BitVec 3) (n : BitVec 5) :
    decode (assemble 3 d (selArg s n)) = decodeOut d s n := by
  simp [decode]

@[simp] theorem decode_assemble_pushPull (a : BitVec 8) :
    decode (assemble 4 d a) = decodePushPull d a := by
  simp [decode]

@[simp] theorem decode_assemble_mov (t : BitVec 3) (op : BitVec 2) (s : BitVec 3) :
    decode (assemble 5 d (movArg t op s)) = decodeMov d t op s := by
  simp [decode]

@[simp] theorem decode_assemble_set (s : BitVec 3) (v : BitVec 5) :
    decode (assemble 7 d (selArg s v)) = decodeSet d s v := by
  simp [decode]

end Decode

/-! ## The arguments of PUSH and PULL (R106) -/

/-- The argument of a PULL with its low bits. -/
def pullArg (ifeBlk : BitVec 2) (low : BitVec 5) : BitVec 8 := 1#1 ++ ifeBlk ++ low

theorem extractLsb'_pullArg_low (ib : BitVec 2) (low : BitVec 5) : (pullArg ib low).extractLsb' 0 5 = low :=
  BitVec.extractLsb'_append_eq_right

theorem extractLsb'_pullArg_ifeBlk (ib : BitVec 2) (low : BitVec 5) : (pullArg ib low).extractLsb' 5 2 = ib :=
  (BitVec.extractLsb'_append_eq_of_le (xhi := (1#1 ++ ib : BitVec (1 + 2))) (xlo := low) le_rfl).trans
    BitVec.extractLsb'_append_eq_right

theorem getLsbD_pullArg_top (ib : BitVec 2) (low : BitVec 5) : (pullArg ib low).getLsbD 7 = true := by
  show ((1#1 ++ ib : BitVec (1 + 2)) ++ low : BitVec (1 + 2 + 5)).getLsbD 7 = true
  rw [BitVec.getLsbD_append, BitVec.getLsbD_append]
  rfl

/-- A PUSH argument keeps its low seven bits (R112). -/
theorem decodePushPull_push (d : BitVec 5) (a : BitVec 7) :
    decodePushPull d (0#1 ++ a : BitVec (1 + 7)) = .pushRefused d a := by
  have top : (0#1 ++ a : BitVec (1 + 7)).getLsbD 7 = false := by
    rw [BitVec.getLsbD_append]; rfl
  have low : (0#1 ++ a : BitVec (1 + 7)).extractLsb' 0 7 = a := BitVec.extractLsb'_append_eq_right
  rw [decodePushPull, if_pos top]
  exact congrArg _ low

/-- A PULL argument with a low bit set keeps its fields (R113). -/
theorem decodePushPull_reserved (d : BitVec 5) (ib : BitVec 2) {low : BitVec 5} (h : low ≠ 0) :
    decodePushPull d (pullArg ib low) = .pullReserved d ib low := by
  rw [decodePushPull, getLsbD_pullArg_top, extractLsb'_pullArg_low, extractLsb'_pullArg_ifeBlk,
    if_neg (by decide), if_pos h]

/-! ## Decode and encode agree -/

/-- A MOV of no earlier row (R113, R221). -/
theorem wellFormed_movOther {d : BitVec 5} {t : BitVec 3} {op : BitVec 2} {s : BitVec 3} :
    wellFormed (.movOther d t op s) = true ↔ ¬(t = 2 ∧ op = 0 ∧ s = 2) ∧ t ≠ 3 ∧ op ≠ 3 ∧ s ≠ 4 := by
  simp only [wellFormed, Bool.and_eq_true, bne_iff_ne, Bool.not_eq_true', Bool.and_eq_false_iff,
    beq_eq_false_iff_ne, not_and_or]
  tauto

/-- Settles O1: class by class, the fields the decoder takes out are those the encoder put in, and the bits that
`wellFormed` asks of an instruction keep it off the rows before its own. -/
theorem decodeOfEncode : Obligations.DecodeOfEncode := by
  unfold Obligations.DecodeOfEncode
  intro i wf
  cases i with
  | pushRefused d a => exact (decode_assemble_pushPull _ _).trans (decodePushPull_push d a)
  | pullReserved d ib low =>
    have hlow : low ≠ 0 := by simpa [wellFormed] using wf
    exact (decode_assemble_pushPull _ _).trans (decodePushPull_reserved d ib hlow)
  | pullBlock | pullNoblock | pullIfemptyBlock | pullIfemptyNoblock => exact decode_assemble_pushPull _ _
  | nop d => exact decode_assemble_mov d 2 0 2
  | movReservedDest | movReservedOp | movReservedSrc =>
    refine (decode_assemble_mov _ _ _ _).trans ?_
    simp_all [wellFormed, decodeMov]
  | movOther d t op s =>
    obtain ⟨notNop, ht, hop, hs⟩ := wellFormed_movOther.mp wf
    refine (decode_assemble_mov d t op s).trans ?_
    rw [decodeMov, if_neg notNop, if_neg ht, if_neg hop, if_neg hs]
  | waitRefused | inRefused | irqRefused => simp [encode, decode]
  | outX | outY | outNull | outPinsRefused | outPindirsRefused | outPcRefused | outIsrRefused
  | outExecRefused => exact decode_assemble_out _ _ _
  | setPins | setX | setY | setPindirs | setReserved3 | setReserved5 | setReserved6 | setReserved7 =>
    exact decode_assemble_set _ _ _
  | _ => exact decode_assemble_jmp _ _ _

/-! ## What each class decodes to stands for its word -/

/-- The instruction stands for the word. -/
def StandsFor (i : Instr) (w : Half) : Prop := wellFormed i = true ∧ encode i = w

/-- A three-bit selector has one of eight values. -/
theorem sel_cases (s : BitVec 3) :
    s = 0 ∨ s = 1 ∨ s = 2 ∨ s = 3 ∨ s = 4 ∨ s = 5 ∨ s = 6 ∨ s = 7 := by
  revert s; decide

section StandsFor
variable (d : BitVec 5)

theorem standsFor_decodeJmp (s : BitVec 3) (a : BitVec 5) :
    StandsFor (decodeJmp d s a) (assemble 0 d (selArg s a)) := by
  obtain rfl | rfl | rfl | rfl | rfl | rfl | rfl | rfl := sel_cases s <;> exact ⟨rfl, rfl⟩

theorem standsFor_decodeOut (s : BitVec 3) (n : BitVec 5) :
    StandsFor (decodeOut d s n) (assemble 3 d (selArg s n)) := by
  obtain rfl | rfl | rfl | rfl | rfl | rfl | rfl | rfl := sel_cases s <;> exact ⟨rfl, rfl⟩

theorem standsFor_decodeSet (s : BitVec 3) (v : BitVec 5) :
    StandsFor (decodeSet d s v) (assemble 7 d (selArg s v)) := by
  obtain rfl | rfl | rfl | rfl | rfl | rfl | rfl | rfl := sel_cases s <;> exact ⟨rfl, rfl⟩

theorem standsFor_decodeMov (t : BitVec 3) (op : BitVec 2) (s : BitVec 3) :
    StandsFor (decodeMov d t op s) (assemble 5 d (movArg t op s)) := by
  unfold decodeMov
  split_ifs with nop ht hop hs
  · obtain ⟨rfl, rfl, rfl⟩ := nop
    exact ⟨rfl, rfl⟩
  · exact ⟨rfl, by rw [ht]; rfl⟩
  · exact ⟨bne_iff_ne.mpr ht, by rw [hop]; rfl⟩
  · exact ⟨Bool.and_eq_true_iff.mpr ⟨bne_iff_ne.mpr ht, bne_iff_ne.mpr hop⟩, by rw [hs]; rfl⟩
  · exact ⟨wellFormed_movOther.mpr ⟨nop, ht, hop, hs⟩, rfl⟩

/-- An argument of OPC 100 is a PUSH's or a PULL's, by its bit 7 (R106). -/
theorem pushPull_arg_cases (a : BitVec 8) :
    (∃ b : BitVec 7, a = (0#1 ++ b : BitVec (1 + 7))) ∨ ∃ ib low, a = pullArg ib low := by
  have top : a = (a.extractLsb' 7 1 ++ a.extractLsb' 0 7 : BitVec (1 + 7)) :=
    (BitVec.extractLsb'_eq_self (x := a)).symm.trans
      (BitVec.extractLsb'_append_extractLsb'_eq_extractLsb' (start₁ := 0) (len₁ := 7) rfl).symm
  obtain h | h : a.extractLsb' 7 1 = 0 ∨ a.extractLsb' 7 1 = 1 := by
    generalize a.extractLsb' 7 1 = b
    revert b; decide
  · exact .inl ⟨_, h ▸ top⟩
  · refine .inr ⟨a.extractLsb' 5 2, a.extractLsb' 0 5, ?_⟩
    have parts : ((a.extractLsb' 7 1 ++ a.extractLsb' 5 2 : BitVec (1 + 2)) ++ a.extractLsb' 0 5 :
        BitVec (1 + 2 + 5)) = a := by
      rw [BitVec.extractLsb'_append_extractLsb'_eq_extractLsb' (start₁ := 5) (len₁ := 2) rfl]
      exact (BitVec.extractLsb'_append_extractLsb'_eq_extractLsb' (start₁ := 0) (len₁ := 5) rfl).trans
        BitVec.extractLsb'_eq_self
    rw [h] at parts
    exact parts.symm

theorem standsFor_decodePushPull (a : BitVec 8) : StandsFor (decodePushPull d a) (assemble 4 d a) := by
  obtain ⟨b, rfl⟩ | ⟨ib, low, rfl⟩ := pushPull_arg_cases a
  · rw [decodePushPull_push]; exact ⟨rfl, rfl⟩
  · by_cases hlow : low = 0
    · have ib_cases : ib = 0 ∨ ib = 1 ∨ ib = 2 ∨ ib = 3 := by revert ib; decide
      subst hlow
      obtain rfl | rfl | rfl | rfl := ib_cases <;> exact ⟨rfl, rfl⟩
    · rw [decodePushPull_reserved d ib hlow]
      exact ⟨by simpa [wellFormed] using hlow, rfl⟩

end StandsFor

/-- An argument has a selector and a low field (R102). -/
theorem exists_eq_selArg (a : BitVec 8) : ∃ s l, a = selArg s l :=
  ⟨_, _, by rw [selArg_fields (assemble 0 0 a), argField_assemble]⟩

/-- An argument has the three fields of a MOV (R107). -/
theorem exists_eq_movArg (a : BitVec 8) : ∃ t op s, a = movArg t op s :=
  ⟨_, _, _, by rw [movArg_fields (assemble 0 0 a), argField_assemble]⟩

/-- Every word is what its decoded instruction stands for, by its class (R101, R114). -/
theorem standsFor_decode (w : Half) : StandsFor (decode w) w := by
  obtain ⟨o, d, a, rfl⟩ : ∃ o d a, w = assemble o d a := ⟨_, _, _, (assemble_fields w).symm⟩
  obtain rfl | rfl | rfl | rfl | rfl | rfl | rfl | rfl := sel_cases o
  · obtain ⟨s, l, rfl⟩ := exists_eq_selArg a
    rw [decode_assemble_jmp]; exact standsFor_decodeJmp d s l
  · simp [decode, StandsFor, wellFormed, encode]
  · simp [decode, StandsFor, wellFormed, encode]
  · obtain ⟨s, l, rfl⟩ := exists_eq_selArg a
    rw [decode_assemble_out]; exact standsFor_decodeOut d s l
  · rw [decode_assemble_pushPull]; exact standsFor_decodePushPull d a
  · obtain ⟨t, op, s, rfl⟩ := exists_eq_movArg a
    rw [decode_assemble_mov]; exact standsFor_decodeMov d t op s
  · simp [decode, StandsFor, wellFormed, encode]
  · obtain ⟨s, l, rfl⟩ := exists_eq_selArg a
    rw [decode_assemble_set]; exact standsFor_decodeSet d s l

/-- Settles O2: an instruction decoded from a word stands for it. -/
theorem encodeOfDecode : Obligations.EncodeOfDecode := by
  unfold Obligations.EncodeOfDecode
  exact standsFor_decode

/-! ## The rows of the opcode table (R114) -/

/-- No word matches both rows: they ask for different bits under a mask they share. -/
abbrev OpRow.Apart (r q : OpRow) : Prop := r.pattern &&& q.mask ≠ q.pattern &&& r.mask

theorem OpRow.Apart.not_both {r q : OpRow} (h : r.Apart q) {w : Half} (hr : r.matchesWord w = true)
    (hq : q.matchesWord w = true) : False := by
  rw [OpRow.matchesWord, beq_iff_eq] at hr hq
  apply h
  rw [← hr, ← hq, BitVec.and_assoc, BitVec.and_assoc, BitVec.and_comm r.mask]

/-- A field that a matched row's mask covers holds the row's bits. -/
theorem OpRow.field_of_matchesWord {r : OpRow} {w : Half} (h : r.matchesWord w = true) (start n : Nat)
    (covered : r.mask.extractLsb' start n = BitVec.allOnes n) :
    w.extractLsb' start n = r.pattern.extractLsb' start n := by
  rw [OpRow.matchesWord, beq_iff_eq] at h
  rw [← h, BitVec.extractLsb'_and, covered, BitVec.and_allOnes]

/-- The word of every instruction matches its own row. -/
theorem matchesItsRow : ∀ i, Laws.MatchesItsRow.Statement i
  | .jmp d a => Laws.MatchesItsRow.jmp d a
  | .jmpNotX d a => Laws.MatchesItsRow.jmpNotX d a
  | .jmpXDec d a => Laws.MatchesItsRow.jmpXDec d a
  | .jmpNotY d a => Laws.MatchesItsRow.jmpNotY d a
  | .jmpYDec d a => Laws.MatchesItsRow.jmpYDec d a
  | .jmpXNeY d a => Laws.MatchesItsRow.jmpXNeY d a
  | .jmpPin d a => Laws.MatchesItsRow.jmpPin d a
  | .jmpNotOsre d a => Laws.MatchesItsRow.jmpNotOsre d a
  | .outX d a => Laws.MatchesItsRow.outX d a
  | .outY d a => Laws.MatchesItsRow.outY d a
  | .outNull d a => Laws.MatchesItsRow.outNull d a
  | .pullBlock d => Laws.MatchesItsRow.pullBlock d
  | .pullNoblock d => Laws.MatchesItsRow.pullNoblock d
  | .pullIfemptyBlock d => Laws.MatchesItsRow.pullIfemptyBlock d
  | .pullIfemptyNoblock d => Laws.MatchesItsRow.pullIfemptyNoblock d
  | .nop d => Laws.MatchesItsRow.nop d
  | .setPins d a => Laws.MatchesItsRow.setPins d a
  | .setX d a => Laws.MatchesItsRow.setX d a
  | .setY d a => Laws.MatchesItsRow.setY d a
  | .setPindirs d a => Laws.MatchesItsRow.setPindirs d a
  | .waitRefused d a => Laws.MatchesItsRow.waitRefused d a
  | .inRefused d a => Laws.MatchesItsRow.inRefused d a
  | .outPinsRefused d a => Laws.MatchesItsRow.outPinsRefused d a
  | .outPindirsRefused d a => Laws.MatchesItsRow.outPindirsRefused d a
  | .outPcRefused d a => Laws.MatchesItsRow.outPcRefused d a
  | .outIsrRefused d a => Laws.MatchesItsRow.outIsrRefused d a
  | .outExecRefused d a => Laws.MatchesItsRow.outExecRefused d a
  | .pushRefused d a => Laws.MatchesItsRow.pushRefused d a
  | .pullReserved d a b => Laws.MatchesItsRow.pullReserved d a b
  | .movReservedDest d a b => Laws.MatchesItsRow.movReservedDest d a b
  | .movReservedOp d a b => Laws.MatchesItsRow.movReservedOp d a b
  | .movReservedSrc d a b => Laws.MatchesItsRow.movReservedSrc d a b
  | .movOther d a b c => Laws.MatchesItsRow.movOther d a b c
  | .irqRefused d a => Laws.MatchesItsRow.irqRefused d a
  | .setReserved3 d a => Laws.MatchesItsRow.setReserved3 d a
  | .setReserved5 d a => Laws.MatchesItsRow.setReserved5 d a
  | .setReserved6 d a => Laws.MatchesItsRow.setReserved6 d a
  | .setReserved7 d a => Laws.MatchesItsRow.setReserved7 d a

/-- The rows of the table that share words with a later row: the PULLs with the reserved ones, NOP with the
refused MOVs, and the reserved MOVs with each other and those (R114). -/
def sharedRows : List (Nat × Nat) :=
  [(11, 28), (12, 28), (13, 28), (14, 28), (15, 32), (29, 30), (29, 31), (29, 32), (30, 31), (30, 32), (31, 32)]

/-- No other two rows share a word. -/
theorem rows_apart :
    opcodeTable.zipIdx.Pairwise fun r q => (r.2, q.2) ∈ sharedRows ∨ r.1.Apart q.1 := by
  decide

/-- A row before its own that an instruction's word matches is one it shares words with. -/
theorem sharedRows_of_earlier_match {i : Instr} {k : Nat} {r : OpRow} (hk : k < rowOf i)
    (hr : opcodeTable[k]? = some r) (hm : r.matchesWord (encode i) = true) : (k, rowOf i) ∈ sharedRows := by
  obtain ⟨q, hq, hown⟩ := Option.map_eq_some_iff.mp (matchesItsRow i)
  obtain ⟨hk', rfl⟩ := List.getElem?_eq_some_iff.mp hr
  obtain ⟨hi', rfl⟩ := List.getElem?_eq_some_iff.mp hq
  have pair := List.pairwise_iff_getElem.mp rows_apart k (rowOf i) (by simpa using hk') (by simpa using hi') hk
  simp only [List.getElem_zipIdx, Nat.zero_add] at pair
  exact pair.resolve_right fun apart => OpRow.Apart.not_both apart hm hown

/-- The fields of a MOV word that a matched row fixes. -/
theorem mov_fields_of_matchesWord {r : OpRow} {d : BitVec 5} {t : BitVec 3} {op : BitVec 2} {s : BitVec 3}
    (h : r.matchesWord (assemble 5 d (movArg t op s)) = true) :
    (r.mask.extractLsb' 5 3 = BitVec.allOnes 3 → t = r.pattern.extractLsb' 5 3) ∧
    (r.mask.extractLsb' 3 2 = BitVec.allOnes 2 → op = r.pattern.extractLsb' 3 2) ∧
    (r.mask.extractLsb' 0 3 = BitVec.allOnes 3 → s = r.pattern.extractLsb' 0 3) :=
  ⟨fun c => (selField_assemble_movArg 5 d t op s).symm.trans (OpRow.field_of_matchesWord h 5 3 c),
   fun c => (movOp_assemble 5 d t op s).symm.trans (OpRow.field_of_matchesWord h 3 2 c),
   fun c => (movSrc_assemble 5 d t op s).symm.trans (OpRow.field_of_matchesWord h 0 3 c)⟩

/-- A well-formed instruction's word matches no row before its own: on the rows it could share the word with,
some field is not the one the row fixes. -/
theorem not_matchesWord_earlier {i : Instr} (wf : wellFormed i = true) {k : Nat} {r : OpRow}
    (hk : k < rowOf i) (hr : opcodeTable[k]? = some r) : r.matchesWord (encode i) ≠ true := by
  intro hm
  have shared := sharedRows_of_earlier_match hk hr hm
  cases i with
  | pullReserved d ib low =>
    have hlow : low ≠ 0 := by simpa [wellFormed] using wf
    have field : (encode (.pullReserved d ib low)).extractLsb' 0 5 = low :=
      (extractLsb'_assemble_arg 4 d (pullArg ib low) 0 5 (by decide)).trans (extractLsb'_pullArg_low ib low)
    have hk : k = 11 ∨ k = 12 ∨ k = 13 ∨ k = 14 := by simpa [rowOf, sharedRows] using shared
    obtain rfl | rfl | rfl | rfl := hk <;> cases hr <;>
      exact hlow (field.symm.trans (OpRow.field_of_matchesWord hm 0 5 (by decide)))
  | movReservedOp d t s =>
    have ht : t ≠ 3 := by simpa [wellFormed] using wf
    obtain rfl : k = 29 := by simpa [rowOf, sharedRows] using shared
    cases hr
    exact ht ((mov_fields_of_matchesWord hm).1 (by decide))
  | movReservedSrc d t op =>
    have h : t ≠ 3 ∧ op ≠ 3 := by simpa [wellFormed] using wf
    have hk : k = 29 ∨ k = 30 := by simpa [rowOf, sharedRows] using shared
    obtain ⟨ft, fop, -⟩ := mov_fields_of_matchesWord hm
    obtain rfl | rfl := hk <;> cases hr
    · exact h.1 (ft (by decide))
    · exact h.2 (fop (by decide))
  | movOther d t op s =>
    obtain ⟨notNop, ht, hop, hs⟩ := wellFormed_movOther.mp wf
    have hk : k = 15 ∨ k = 29 ∨ k = 30 ∨ k = 31 := by simpa [rowOf, sharedRows] using shared
    obtain ⟨ft, fop, fs⟩ := mov_fields_of_matchesWord hm
    obtain rfl | rfl | rfl | rfl := hk <;> cases hr
    · exact notNop ⟨ft (by decide), fop (by decide), fs (by decide)⟩
    · exact ht (ft (by decide))
    · exact hop (fop (by decide))
    · exact hs (fs (by decide))
  | _ => simp [rowOf, sharedRows] at shared

/-- The first row a word matches is that of its decoded instruction. -/
theorem findIdx?_matchesWord (w : Half) :
    opcodeTable.findIdx? (fun r => r.matchesWord w) = some (rowOf (decode w)) := by
  obtain ⟨wf, hw⟩ := standsFor_decode w
  obtain ⟨r, hr, hown⟩ := Option.map_eq_some_iff.mp (matchesItsRow (decode w))
  obtain ⟨hi, rfl⟩ := List.getElem?_eq_some_iff.mp hr
  rw [hw] at hown
  refine List.findIdx?_eq_some_iff_getElem.mpr ⟨hi, hown, fun k hk => ?_⟩
  have := not_matchesWord_earlier wf hk (List.getElem?_eq_getElem (hk.trans hi))
  rwa [hw] at this

/-- The admitted rows are the first twenty of the table. -/
theorem verdict_eq_admitted_iff (i : Instr) : verdict i = .admitted ↔ rowOf i < admittedRows.length := by
  cases i <;> simp [verdict, rowOf, admittedRows]

/-- No word matches two of the admitted rows. -/
theorem admittedRows_apart : admittedRows.Pairwise OpRow.Apart := by decide

theorem exists_admittedRow_iff (w : Half) :
    (∃ r ∈ admittedRows, r.matchesWord w = true) ↔ rowOf (decode w) < admittedRows.length := by
  obtain ⟨hi, hown, before⟩ := List.findIdx?_eq_some_iff_getElem.mp (findIdx?_matchesWord w)
  constructor
  · rintro ⟨r, hr, hm⟩
    obtain ⟨k, hk, rfl⟩ := List.getElem_of_mem hr
    by_contra later
    have := before k (by omega)
    rw [show opcodeTable[k] = admittedRows[k] from List.getElem_append_left hk] at this
    exact this hm
  · intro hlt
    rw [show opcodeTable[rowOf (decode w)] = admittedRows[rowOf (decode w)] from
      List.getElem_append_left hlt] at hown
    exact ⟨_, List.getElem_mem hlt, hown⟩

/-- Of rows that share no word at most one matches. -/
theorem length_filter_matchesWord_le_one {rows : List OpRow} (apart : rows.Pairwise OpRow.Apart) (w : Half) :
    (rows.filter fun r => r.matchesWord w).length ≤ 1 := by
  have still := apart.filter fun r => r.matchesWord w
  have all : ∀ r ∈ rows.filter fun r => r.matchesWord w, r.matchesWord w = true :=
    fun r hr => (List.mem_filter.mp hr).2
  revert still all
  generalize rows.filter (fun r => r.matchesWord w) = found
  intro still all
  match found with
  | [] => exact Nat.zero_le _
  | [_] => exact le_rfl
  | r :: q :: _ =>
    have apart : r.Apart q := List.rel_of_pairwise_cons still (by simp)
    exact (apart.not_both (all r (by simp)) (all q (by simp))).elim

/-- Settles O3: a decoded instruction's word matches its own row and none before it, and the admitted rows,
which share no word, come first. -/
theorem decodeTakesTheFirstMatchingRow : Obligations.DecodeTakesTheFirstMatchingRow := by
  unfold Obligations.DecodeTakesTheFirstMatchingRow
  refine ⟨findIdx?_matchesWord, fun w => ?_, length_filter_matchesWord_le_one admittedRows_apart⟩
  rw [verdict_eq_admitted_iff, exists_admittedRow_iff]

/-! ## Words of the spec -/

/-- Settles O4: each of the thirteen words is decoded. -/
theorem wordsOfTheSpecDecode : Obligations.WordsOfTheSpecDecode := by
  unfold Obligations.WordsOfTheSpecDecode
  decide

/-! ## Relocation (R118) -/

namespace Machine

/-- The bits above the address of a relocated JMP are those of the word. -/
theorem extractLsb'_relocate {o : Slot} {w : Half} (h : opcField w = 0) {start n : Nat} (hs : 5 ≤ start)
    (hn : start + n ≤ 16) : (relocate o w).extractLsb' start n = w.extractLsb' start n := by
  rw [relocate, if_pos h]
  refine (BitVec.extractLsb'_append_eq_of_le hs).trans ?_
  apply BitVec.eq_of_getLsbD_eq
  intro i hi
  have inside : start - 5 + i < 11 := by omega
  have place : 5 + (start - 5 + i) = start + i := by omega
  simp only [BitVec.getLsbD_extractLsb', inside, place, decide_true, Bool.true_and]

/-- The address of a relocated JMP has the origin added. -/
theorem lowField_relocate {o : Slot} {w : Half} (h : opcField w = 0) :
    lowField (relocate o w) = lowField w + o := by
  rw [relocate, if_pos h]
  exact BitVec.extractLsb'_append_eq_right

/-- Settles O5: relocation replaces the address of a JMP, below all its other fields, and no bit of another
word. -/
theorem relocationMovesJumpTargets : Obligations.RelocationMovesJumpTargets := by
  unfold Obligations.RelocationMovesJumpTargets
  intro o w
  refine ⟨fun h => ⟨?_, ?_, ?_, ?_⟩, fun h => if_neg h⟩
  · exact (extractLsb'_relocate h (by decide) (by decide)).trans h
  · exact extractLsb'_relocate h (by decide) (by decide)
  · exact extractLsb'_relocate h (by decide) (by decide)
  · rw [lowField_relocate h, BitVec.toNat_add]

end Machine
end Sys2Proof

/-! SUPPORT. The end of a turn and of a pulse (40_execution R131, R135, R136). -/

namespace Sys2Proof.Machine

/-- Writing back the executing machine as it is changes nothing. -/
@[simp] theorem State.setCur_cur_self (s : State) : s.setCur s.cur = s :=
  congrArg (fun v => { s with sms := v }) (Vector.set_getElem_self _)

/-! ## The end of a turn -/

theorem State.endTurn_of_last {s : State} (h : s.active = 3) : s.endTurn = s.endCycle := if_pos h

theorem State.endTurn_of_not_last {s : State} (h : s.active ≠ 3) :
    s.endTurn = { s with active := s.active + 1 } := if_neg h

/-! ## The end of a pulse -/

/-- What the end of a pulse makes of the executing machine: its divider moves on unless it stopped (R136, R302). -/
def SM.pulsed (m : SM) : SM := if m.halted then m else m.tick

theorem SM.pulsed_of_halted {m : SM} (h : m.halted = true) : m.pulsed = m := if_pos h

theorem SM.pulsed_of_running {m : SM} (h : m.halted = false) : m.pulsed = m.tick :=
  if_neg (Bool.eq_false_iff.mp h)

theorem State.endPulse_eq (s : State) : s.endPulse = (s.setCur s.cur.pulsed).endTurn := by
  unfold State.endPulse SM.pulsed
  split
  · rw [State.setCur_cur_self]
  · rfl

/-- Settles O7: the end of the pulse moves the divider of the executing machine on and ends the turn. -/
theorem endOfPulsePassesTheTurn : Obligations.EndOfPulsePassesTheTurn := by
  unfold Obligations.EndOfPulsePassesTheTurn
  intro t
  rw [State.endPulse_eq]
  refine ⟨fun j hj => ?_, fun h => ?_, fun h => ?_, ?_, ?_, ?_, ?_, ?_, ?_, ?_, ?_, fun last => ?_,
    fun notLast => ?_⟩
  · rw [State.endTurn_sm, State.sm_setCur_ne t _ hj]
  · rw [SM.pulsed_of_halted h, State.setCur_cur_self, State.endTurn_sm, State.sm_active]
  · rw [SM.pulsed_of_running h, State.endTurn_sm]
    refine (State.cur_setCur t _).trans ?_
    rw [Nat.add_assoc]
    rfl
  iterate 8 simp
  · rw [State.endTurn_of_last (s := t.setCur _) last]
    exact ⟨rfl, rfl, rfl⟩
  · rw [State.endTurn_of_not_last (s := t.setCur _) notLast]
    exact ⟨rfl, rfl, rfl, rfl, rfl, rfl⟩

/-! ## What a turn may change -/

/-- What a turn may make of its machine: it keeps the settings and OSR_COUNT's range, takes at most the two
oldest words of the FIFO, and never undoes a stop (R302, R307). -/
structure SM.TurnOf (m m' : SM) : Prop where
  settings : m.sameSettings m'
  osrCount : m.osrCount ≤ 32 → m'.osrCount ≤ 32
  takes : ∃ taken, taken.length ≤ 2 ∧ m.txf = taken ++ m'.txf
  halted : m.halted = true → m'.halted = true

/-- What a turn of the executing machine may make of the block, before the end of the pulse. -/
structure State.Turn (s u : State) : Prop where
  elsewhere : s.sameElsewhere u
  machine : s.cur.TurnOf u.cur
  imem : u.imem = s.imem
  faults : ∀ f ∈ s.faults, f ∈ u.faults
  refused : ∀ r, s.refused = some r → u.refused = some r
  /-- Its pin writes are made in its cycle, lead from the old latches and enables to the new ones, and are sent
  to the wire behind those on their way (R135, R181, R182). -/
  pins : ∃ fresh, u.pinPipe = s.pinPipe ++ fresh ∧ (∀ e ∈ fresh, e.time = s.time) ∧
    replay fresh (s.pinOut, s.pinOe) = (u.pinOut, u.pinOe)
  group : ∀ p, s.cur.inGroup p = false → u.latch p = s.latch p ∧ u.enable p = s.enable p

theorem SM.turnOf_self (m : SM) : m.TurnOf m :=
  ⟨⟨rfl, rfl, rfl, rfl, rfl, rfl, rfl, rfl, rfl, rfl⟩, id, ⟨[], by simp, rfl⟩, id⟩

/-- A turn that only changes its machine and adds to the marks. -/
theorem State.turn_setCur {s : State} {m : SM} {fs : List Fault} {r : Option Refusal} (hm : s.cur.TurnOf m)
    (hf : ∀ f ∈ s.faults, f ∈ fs) (hr : ∀ q, s.refused = some q → r = some q) :
    s.Turn { s.setCur m with faults := fs, refused := r } where
  elsewhere := ⟨fun _ hj => State.sm_setCur_ne s m hj, fun _ => rfl, rfl, rfl, rfl, rfl, rfl, rfl, rfl, rfl, rfl⟩
  machine := (State.cur_setCur s m).symm ▸ hm
  imem := rfl
  faults := hf
  refused := hr
  pins := ⟨[], (List.append_nil _).symm, by simp, rfl⟩
  group := fun _ _ => ⟨rfl, rfl⟩

/-- Outside the SET group of a machine its SET writes nothing (R180). -/
theorem getElem_writeGroup_of_not_inGroup {m : SM} {p : PinIx} (h : m.inGroup p = false) (data : BitVec 5)
    (v : Pins) :
    (writeGroup m.setBase data m.setCount v)[p.toNat]'(BitVec.isLt p) = v[p.toNat]'(BitVec.isLt p) := by
  rw [getElem_writeGroup _ _ _ _ _ m.setCount_le, if_neg (of_decide_eq_false h)]

theorem State.turn_writePins {s : State} {m : SM} (hm : s.cur.TurnOf m) (v : BitVec 5) :
    s.Turn ((s.writePins s.cur.setBase s.cur.setCount v).setCur m) where
  elsewhere := (s.sameElsewhere_writePins _ _ _).setCur m
  machine := (State.cur_setCur _ m).symm ▸ hm
  imem := rfl
  faults := fun _ hf => hf
  refused := fun _ hr => hr
  pins := ⟨_, rfl, by simp, rfl⟩
  group := fun _ hp => ⟨getElem_writeGroup_of_not_inGroup hp v _, rfl⟩

theorem State.turn_writePinDirs {s : State} {m : SM} (hm : s.cur.TurnOf m) (v : BitVec 5) :
    s.Turn ((s.writePinDirs s.cur.setBase s.cur.setCount v).setCur m) where
  elsewhere := (s.sameElsewhere_writePinDirs _ _ _).setCur m
  machine := (State.cur_setCur _ m).symm ▸ hm
  imem := rfl
  faults := fun _ hf => hf
  refused := fun _ hr => hr
  pins := ⟨_, rfl, by simp, rfl⟩
  group := fun _ hp => ⟨rfl, getElem_writeGroup_of_not_inGroup hp v _⟩

/-- A fault stops the executing machine and joins the faults (R302). -/
theorem State.turn_raise (s : State) (f : Fault) : s.Turn (s.raise f) :=
  State.turn_setCur (fs := recordFault s.faults f) (r := s.refused)
    { s.cur.turnOf_self with halted := fun _ => rfl } (fun _ h => (mem_recordFault _ _ _).2 (.inr h))
    fun _ h => h

/-- A refusal stops the executing machine and keeps an older mark (R303). -/
theorem State.turn_refuseInstr (s : State) : s.Turn s.refuseInstr :=
  State.turn_setCur (fs := s.faults) (r := markRefused s.refused .refusedInstr)
    { s.cur.turnOf_self with halted := fun _ => rfl } (fun _ h => h) fun _ h => by rw [h]; rfl

/-- Completing an instruction that worked from `m` to `m'` (R133). -/
theorem SM.Worked.turnOf_complete {m m' : SM} (h : m.Worked m') (d : BitVec 5) (target : Option Slot) :
    m.TurnOf (m'.complete d target) := by
  obtain ⟨settings, -, -, -, -, halted, osrCount, takes⟩ := h
  exact ⟨settings, osrCount, takes, fun hm => halted.trans hm⟩

/-- Every instruction's end is a turn. -/
theorem State.Ends.turn {i : Instr} {s u : State} (h : s.Ends i u) : s.Turn u := by
  cases h with
  | completed m d target hm =>
    exact State.turn_setCur (hm.turnOf_complete d target) (fun _ hf => hf) fun _ hr => hr
  | wrotePins d v => exact State.turn_writePins (s.cur.worked_self.turnOf_complete d none) v
  | wroteDirs d v => exact State.turn_writePinDirs (s.cur.worked_self.turnOf_complete d none) v
  | stalled =>
    exact State.turn_setCur (m := s.cur.stall) { s.cur.turnOf_self with } (fun _ hf => hf) fun _ hr => hr
  | faulted r => exact s.turn_raise _
  | refused => exact s.turn_refuseInstr

/-- An instruction that answers a next state ends in a turn. -/
theorem turn_of_exec {i : Instr} {s t : State} (h : exec i s = .next t) : s.Turn t := by
  obtain ⟨u, hu, ends⟩ := exec_cases i s
  cases hu.symm.trans h
  exact ends.turn

/-- The delay cycle is a turn (R132). -/
theorem State.turn_delayCycle (s : State) : s.Turn (s.setCur s.cur.delayCycle) :=
  State.turn_setCur { s.cur.turnOf_self with } (fun _ hf => hf) fun _ hr => hr

/-! ## What every instruction keeps -/

/-- Settles O25: an instruction is a turn. -/
theorem frameOfEveryInstruction : Obligations.FrameOfEveryInstruction := by
  unfold Obligations.FrameOfEveryInstruction
  exact fun i s t h => ⟨(turn_of_exec h).elsewhere, (turn_of_exec h).machine.settings⟩

/-- Settles O29: a turn writes no pin outside the group. -/
theorem onlyGroupPinsChange : Obligations.OnlyGroupPinsChange := by
  unfold Obligations.OnlyGroupPinsChange
  exact fun i s t p h => (turn_of_exec h).group p

/-- Settles O30: a turn takes its words from the front. -/
theorem wordsLeaveOldestFirst : Obligations.WordsLeaveOldestFirst := by
  unfold Obligations.WordsLeaveOldestFirst
  exact fun i s t h => (turn_of_exec h).machine.takes

/-! ## The turns of a step -/

/-- A step away from a boundary: the machine is not due and its turn passes, or it has its turn and the pulse
ends. -/
theorem step_turn_cases {s t : State} (h : step s = .next t) :
    (s.boundary = true ∧ t = hostTurn s) ∨
    (s.boundary = false ∧ s.due s.active = false ∧ t = s.endTurn) ∨
    (s.boundary = false ∧ s.due s.active = true ∧ ∃ u, s.Turn u ∧ t = u.endPulse) := by
  obtain host | skip | ⟨hb, hd, u, rfl, rfl | rfl | ⟨i, ends⟩⟩ := step_cases h
  · exact .inl host
  · exact .inr (.inl skip)
  · exact .inr (.inr ⟨hb, hd, _, s.turn_delayCycle, rfl⟩)
  · exact .inr (.inr ⟨hb, hd, _, s.turn_raise _, rfl⟩)
  · exact .inr (.inr ⟨hb, hd, u, ends.turn, rfl⟩)

/-! ## The turn of a machine, case by case (R130 to R133, R139) -/

section SmTurn
variable {s : State}

theorem smTurn_of_not_due (h : s.due s.active = false) : smTurn s = .next s.endTurn :=
  if_neg (Bool.eq_false_iff.mp h)

theorem smTurn_of_unloaded (hdue : s.due s.active = true) (hdelay : s.cur.delay = 0)
    (hslot : Memory.read s.imem s.cur.pc.toNat = none) :
    smTurn s = .next (s.raise (.fetchUnloaded s.active s.cur.pc)).endPulse := by
  unfold smTurn State.fetch
  rw [if_pos hdue, if_neg (not_not_intro hdelay), hslot]

theorem smTurn_of_loaded {w : Half} {t : State} (hdue : s.due s.active = true) (hdelay : s.cur.delay = 0)
    (hslot : Memory.read s.imem s.cur.pc.toNat = some w) (hexec : exec (decode w) s = .next t) :
    smTurn s = .next t.endPulse := by
  unfold smTurn State.fetch
  rw [if_pos hdue, if_neg (not_not_intro hdelay), hslot]
  simp only [hexec]

/-- What a machine has to be, to be due (R28, R131, R283, R302). -/
theorem State.due_iff {k : Fin 4} :
    s.due k = true ↔
      (s.sm k).enabled = true ∧ (s.sm k).halted = false ∧ s.dummy k = false ∧ (s.sm k).nextEn = s.time := by
  simp [State.due, and_assoc]

end SmTurn

/-- Settles O6: an instruction always answers a next state, and then the turn is that and the end of the pulse. -/
theorem stepRunsTheDecodedInstruction : Obligations.StepRunsTheDecodedInstruction := by
  unfold Obligations.StepRunsTheDecodedInstruction
  intro s w hb hdue hdelay hslot
  obtain ⟨u, hu, -⟩ := exec_cases (decode w) s
  refine ⟨(standsFor_decode w).1, fun t ht => ?_, fun f hf => ?_, fun r hr => ?_⟩
  · rw [step_of_not_boundary hb, smTurn_of_loaded hdue hdelay hslot ht]
  · cases hu.symm.trans hf
  · cases hu.symm.trans hr

/-- Settles O9: the turn raises the fetch fault. -/
theorem unloadedSlotFaults : Obligations.UnloadedSlotFaults := by
  unfold Obligations.UnloadedSlotFaults
  intro s hb hdue hdelay hslot
  exact ⟨_, s.faulted_raise _, by rw [step_of_not_boundary hb, smTurn_of_unloaded hdue hdelay hslot]⟩

/-- Settles O10: the machine is not due, so its turn only ends. -/
theorem machineNotDueTakesNoStep : Obligations.MachineNotDueTakesNoStep := by
  unfold Obligations.MachineNotDueTakesNoStep
  intro s hb reason
  have notDue : s.due s.active = false := by
    rw [← Bool.not_eq_true, State.due_iff]
    rintro ⟨enabled, running, noDummy, pulse⟩
    obtain h | h | h | h := reason
    · cases h.symm.trans enabled
    · cases h.symm.trans running
    · exact of_decide_eq_false noDummy h
    · exact h pulse
  exact ⟨_, (step_of_not_boundary hb).trans (smTurn_of_not_due notDue), by simp⟩

/-- Settles O33: the host's turn is a next state, and so is that of a machine. -/
theorem stepNeverStops : Obligations.StepNeverStops := by
  unfold Obligations.StepNeverStops
  intro s
  cases hb : s.boundary with
  | true => exact ⟨_, if_pos hb⟩
  | false =>
    rw [step_of_not_boundary hb]
    obtain ⟨-, h⟩ | ⟨-, u, h, -⟩ := smTurn_cases s
    · exact ⟨_, h⟩
    · exact ⟨_, h⟩

end Sys2Proof.Machine

/-! SUPPORT. What a step of the host may change (10_state R37, 20_memory R88, 46_channels_host R274 to R279). -/

namespace Sys2Proof.Machine

/-! ## A write of CTRL, machine by machine (R40, R144, R279) -/

section CtrlSm
variable (s : State) (v : Word) (k : Fin 4)

/-- CTRL touches neither configuration nor FIFO nor stop. -/
theorem ctrlSm_keeps :
    (ctrlSm s v k).clkdiv = (s.sm k).clkdiv ∧ (ctrlSm s v k).execctrl = (s.sm k).execctrl ∧
    (ctrlSm s v k).shiftctrl = (s.sm k).shiftctrl ∧ (ctrlSm s v k).pinctrl = (s.sm k).pinctrl ∧
    (ctrlSm s v k).txf = (s.sm k).txf ∧ (ctrlSm s v k).halted = (s.sm k).halted := by
  unfold ctrlSm
  split_ifs <;> exact ⟨rfl, rfl, rfl, rfl, rfl, rfl⟩

@[simp] theorem ctrlSm_enabled : (ctrlSm s v k).enabled = ctrlEnable v k := by
  unfold ctrlSm
  split_ifs <;> simp_all [SM.start, SM.disable]

/-- SM_RESTART leaves OSR_COUNT 0 or 32 (R279, R321). -/
theorem SM.restart_osrCount_le (m : SM) : m.restart.osrCount ≤ 32 := by
  unfold SM.restart
  dsimp only
  split <;> decide

theorem ctrlSm_osrCount_le (h : (s.sm k).osrCount ≤ 32) : (ctrlSm s v k).osrCount ≤ 32 := by
  have := (s.sm k).restart_osrCount_le
  unfold ctrlSm
  split_ifs <;> assumption

/-- A machine that runs keeps its schedule, and one that starts draws its first pulse from now on (R137). -/
theorem ctrlSm_nextEn (h : ctrlEnable v k = true) :
    ((s.sm k).enabled = true ∧ (ctrlSm s v k).nextEn = (s.sm k).nextEn) ∨ s.time ≤ (ctrlSm s v k).nextEn := by
  unfold ctrlSm
  split_ifs with restart running
  · exact .inl ⟨running, rfl⟩
  · exact .inr (Nat.le_add_right _ _)
  · exact .inl ⟨by assumption, rfl⟩
  · exact .inr (Nat.le_add_right _ _)

end CtrlSm

/-! ## One machine under a step of the host -/

/-- What a step of the host at boundary `now` may make of a machine. -/
structure SM.Hosted (now : Nat) (m m' : SM) : Prop where
  halted : m'.halted = m.halted
  config : m.enabled = true → m'.clkdiv = m.clkdiv ∧ m'.execctrl = m.execctrl ∧ m'.shiftctrl = m.shiftctrl ∧
    m'.pinctrl = m.pinctrl
  ok : m.ok → m'.ok
  schedule : m'.enabled = true → (m.enabled = true ∧ m'.nextEn = m.nextEn) ∨ now ≤ m'.nextEn

/-- A machine keeps being in order while its configuration and its FIFO stay and OSR_COUNT stays in range. -/
theorem SM.ok_of_same {m m' : SM} (hclk : m'.clkdiv = m.clkdiv) (hexec : m'.execctrl = m.execctrl)
    (hshift : m'.shiftctrl = m.shiftctrl) (hpin : m'.pinctrl = m.pinctrl) (hcount : m'.osrCount ≤ 32)
    (hlen : m'.txf.length ≤ m.txf.length) (h : m.ok) : m'.ok := by
  obtain ⟨-, hfifo, hconfig⟩ := h
  have hcap : m'.cap = m.cap := by unfold SM.cap SM.fjoinTx; rw [hshift]
  refine ⟨hcount, hcap ▸ hlen.trans hfifo, ?_⟩
  unfold SM.configOk
  rwa [hclk, hexec, hshift, hpin]

theorem SM.hosted_self (now : Nat) (m : SM) : m.Hosted now m :=
  ⟨rfl, fun _ => ⟨rfl, rfl, rfl, rfl⟩, id, fun h => .inl ⟨h, rfl⟩⟩

theorem ctrlSm_hosted (s : State) (v : Word) (k : Fin 4) : (s.sm k).Hosted s.time (ctrlSm s v k) := by
  obtain ⟨hclk, hexec, hshift, hpin, htxf, hhalted⟩ := ctrlSm_keeps s v k
  exact ⟨hhalted, fun _ => ⟨hclk, hexec, hshift, hpin⟩,
    fun h => SM.ok_of_same hclk hexec hshift hpin (ctrlSm_osrCount_le s v k h.1) (htxf ▸ le_rfl) h,
    fun h => ctrlSm_nextEn s v k (ctrlSm_enabled s v k ▸ h)⟩

theorem SM.fifoPush_hosted (now : Nat) (m : SM) (w : Word) : m.Hosted now (m.fifoPush w) := by
  by_cases full : m.cap ≤ m.txf.length
  · rw [SM.fifoPush_of_cap_le w full]
    exact { m.hosted_self now with }
  · have room : m.txf.length < m.cap := Nat.lt_of_not_le full
    rw [SM.fifoPush_of_lt_cap w room]
    refine { m.hosted_self now with ok := fun ⟨hcount, _, hconfig⟩ => ⟨hcount, ?_, hconfig⟩ }
    show (m.txf ++ [w]).length ≤ m.cap
    rw [List.length_append]
    exact room

/-- The configuration of a disabled machine, with an admitted value and the capacity kept but for an empty FIFO. -/
theorem SM.sameWork.hosted {m m' : SM} (now : Nat) (hw : m.sameWork m') (hd : m.enabled = false)
    (hok : m.configOk → m'.configOk) (hcap : m'.cap = m.cap ∨ m.txf = []) : m.Hosted now m' := by
  have hhalted : m'.halted = m.halted := by rw [hw]
  have henabled : m'.enabled = m.enabled := by rw [hw]
  have hcount : m'.osrCount = m.osrCount := by rw [hw]
  have htxf : m'.txf = m.txf := by rw [hw]
  refine ⟨hhalted, fun h => ?_, fun h => ⟨hcount ▸ h.1, ?_, hok h.2.2⟩, fun h => ?_⟩
  · cases hd.symm.trans h
  · rw [htxf]
    obtain same | empty := hcap
    · exact same ▸ h.2.1
    · rw [empty]; exact Nat.zero_le _
  · cases (henabled.trans hd).symm.trans h

/-- Every machine under one register write of the host. -/
theorem State.Wrote.hosted {s u : State} (h : s.Wrote u) (j : Fin 4) :
    (s.sm j).Hosted s.time (u.sm j) := by
  have one {k : Fin 4} {m : SM} (hm : (s.sm k).Hosted s.time m) : (s.sm j).Hosted s.time ((s.setSm k m).sm j) := by
    rw [State.sm_setSm]
    split
    · next same => exact same ▸ hm
    · exact SM.hosted_self _ _
  cases h with
  | refused | load => exact SM.hosted_self _ _
  | ctrl _ v _ hk => exact hk j ▸ ctrlSm_hosted s v j
  | debug _ v hk => rw [hk j]; exact { SM.hosted_self s.time (s.sm j) with }
  | push k w => exact one (SM.fifoPush_hosted ..)
  | config k m hd hw hok hcap => exact one (hw.hosted _ hd hok hcap)
  | jump k pc hd => exact one { SM.hosted_self s.time (s.sm k) with }

/-! ## One writer for each pin (R81, R277) -/

theorem groupsDisjoint_iff {a b : SM} :
    groupsDisjoint a b = true ↔ ∀ p : PinIx, ¬(a.inGroup p = true ∧ b.inGroup p = true) := by
  simp only [groupsDisjoint, List.all_eq_true, List.mem_range, Bool.not_eq_true', ← Bool.not_eq_true,
    Bool.and_eq_true]
  constructor
  · intro h p
    simpa using h p.toNat p.isLt
  · exact fun h p _ => h _

theorem groupsDisjoint_comm {a b : SM} : groupsDisjoint a b = groupsDisjoint b a := by
  simp only [groupsDisjoint, Bool.and_comm]

/-- The SET group of a machine is in its PINCTRL (R50). -/
theorem SM.inGroup_of_pinctrl {m m' : SM} (h : m'.pinctrl = m.pinctrl) (p : PinIx) :
    m'.inGroup p = m.inGroup p := by
  unfold SM.inGroup SM.setBase SM.setCount
  rw [h]

/-- Pins keep one writer where no machine is newly enabled and no enabled one's group changes. -/
theorem State.pinsOwned_of_enabled {s u : State}
    (h : ∀ k, (u.sm k).enabled = true → (s.sm k).enabled = true ∧ (u.sm k).pinctrl = (s.sm k).pinctrl)
    (owned : s.pinsOwned) : u.pinsOwned := by
  intro j k hjk hj hk p
  obtain ⟨hj, pj⟩ := h j hj
  obtain ⟨hk, pk⟩ := h k hk
  rw [SM.inGroup_of_pinctrl pj, SM.inGroup_of_pinctrl pk]
  exact owned j k hjk hj hk p

theorem ctrlStarts_iff {s : State} {v : Word} :
    ctrlStarts s v = true ↔ ∃ k, ctrlEnable v k = true ∧ (s.sm k).enabled = false := by
  simp only [ctrlStarts, Fin.exists_fin_succ, Bool.or_eq_true, Bool.and_eq_true, Bool.not_eq_true']
  simp [or_assoc]

theorem ctrlAdmitsPair_comm (s : State) (v : Word) (j k : Fin 4) :
    ctrlAdmitsPair s v j k = ctrlAdmitsPair s v k j := by
  unfold ctrlAdmitsPair
  rw [groupsDisjoint_comm, Bool.and_comm (ctrlEnable v j)]

theorem ctrlAdmitsPair_iff {s : State} {v : Word} {j k : Fin 4} :
    ctrlAdmitsPair s v j k = true ↔ (ctrlEnable v j = true → ctrlEnable v k = true →
      ∀ p : PinIx, ¬((s.sm j).inGroup p = true ∧ (s.sm k).inGroup p = true)) := by
  simp only [ctrlAdmitsPair, Bool.or_eq_true, Bool.not_eq_true', ← Bool.not_eq_true, Bool.and_eq_true,
    groupsDisjoint_iff, ← imp_iff_not_or, and_imp]

/-- What a CTRL write needs to be admitted: no reserved bit, each machine's own premises, and for a start the
pin premise over any two machines (R40, R137, R277, R279). -/
theorem ctrlAdmits_iff {s : State} {v : Word} :
    ctrlAdmits s v = true ↔ v.extractLsb' 12 20 = 0 ∧ (∀ k, ctrlAdmitsSm s v k = true) ∧
      ((∃ k, ctrlEnable v k = true ∧ (s.sm k).enabled = false) →
        ∀ j k, j ≠ k → ctrlAdmitsPair s v j k = true) := by
  have each : (ctrlAdmitsSm s v 0 && ctrlAdmitsSm s v 1 && ctrlAdmitsSm s v 2 && ctrlAdmitsSm s v 3) = true ↔
      ∀ k, ctrlAdmitsSm s v k = true := by
    simp [Fin.forall_fin_succ, and_assoc]
  have pairs : (ctrlAdmitsPair s v 0 1 && ctrlAdmitsPair s v 0 2 && ctrlAdmitsPair s v 0 3 &&
      ctrlAdmitsPair s v 1 2 && ctrlAdmitsPair s v 1 3 && ctrlAdmitsPair s v 2 3) = true ↔
      ∀ j k, j ≠ k → ctrlAdmitsPair s v j k = true := by
    constructor
    · intro h
      have upper : ∀ j k, j < k → ctrlAdmitsPair s v j k = true := by
        simpa [Fin.forall_fin_succ, and_assoc] using h
      intro j k hjk
      obtain hlt | hgt := lt_or_gt_of_ne hjk
      · exact upper j k hlt
      · exact ctrlAdmitsPair_comm s v j k ▸ upper k j hgt
    · intro h
      simp [h]
  rw [ctrlAdmits, Bool.and_eq_true, Bool.and_eq_true, beq_iff_eq, each, Bool.or_eq_true, Bool.not_eq_true',
    ← Bool.not_eq_true, ctrlStarts_iff, pairs, ← imp_iff_not_or, and_assoc]

/-- A register write keeps one writer for each pin: a start checks the pin premise, and no other write enables
a machine or regroups an enabled one. -/
theorem State.Wrote.pinsOwned {s u : State} (h : s.Wrote u) (owned : s.pinsOwned) : u.pinsOwned := by
  have one {k : Fin 4} {m : SM}
      (hm : m.enabled = true → (s.sm k).enabled = true ∧ m.pinctrl = (s.sm k).pinctrl) :
      (s.setSm k m).pinsOwned := by
    refine State.pinsOwned_of_enabled (fun j => ?_) owned
    rw [State.sm_setSm]
    split
    · next same => exact same ▸ hm
    · exact fun hj => ⟨hj, rfl⟩
  cases h with
  | refused | load => exact owned
  | ctrl _ v admitted hk =>
    obtain ⟨-, -, pairs⟩ := ctrlAdmits_iff.mp admitted
    have group k : (u.sm k).pinctrl = (s.sm k).pinctrl := hk k ▸ (ctrlSm_keeps s v k).2.2.2.1
    have enabled k : (u.sm k).enabled = ctrlEnable v k := hk k ▸ ctrlSm_enabled s v k
    by_cases starts : ∃ k, ctrlEnable v k = true ∧ (s.sm k).enabled = false
    · intro j k hjk hj hk p
      rw [SM.inGroup_of_pinctrl (group j), SM.inGroup_of_pinctrl (group k)]
      exact ctrlAdmitsPair_iff.mp (pairs starts j k hjk) (enabled j ▸ hj) (enabled k ▸ hk) p
    · refine State.pinsOwned_of_enabled (fun k hk => ⟨?_, group k⟩) owned
      exact Bool.not_eq_false _ |>.mp fun disabled => starts ⟨k, enabled k ▸ hk, disabled⟩
  | debug _ v hk => exact State.pinsOwned_of_enabled (fun k => by rw [hk k]; exact fun h => ⟨h, rfl⟩) owned
  | push k w =>
    refine one fun h => ?_
    unfold SM.fifoPush at h ⊢
    split at h <;> exact ⟨h, by split <;> rfl⟩
  | config k m hd hw =>
    have henabled : m.enabled = (s.sm k).enabled := by rw [hw]
    exact one fun h => nomatch (henabled.trans hd).symm.trans h
  | jump k pc hd => exact one fun h => nomatch hd.symm.trans h

/-! ## The block under a step of the host -/

/-- What a step of the host may make of the block. -/
structure State.Hosted (s t : State) : Prop where
  machine : ∀ k, (s.sm k).Hosted s.time (t.sm k)
  owned : s.pinsOwned → t.pinsOwned
  imem : t.imem = s.imem ∨
    (∀ k, (s.sm k).enabled = false) ∧ ∃ (a : Fin 32) (w : Half), t.imem = Memory.write s.imem a.val w
  faults : t.faults = s.faults
  refused : ∀ r, s.refused = some r → t.refused = some r
  pins : t.pinOut = s.pinOut ∧ t.pinOe = s.pinOe
  wire : t.wireOut = s.wireOut ∧ t.wireOe = s.wireOe ∧ t.pinPipe = s.pinPipe
  time : t.time = s.time
  turn : t.boundary = s.boundary ∨ t.active = 0
  nCh : t.nCh = s.nCh ∨ ∀ k, (s.sm k).enabled = false

theorem State.hosted_self (s : State) : s.Hosted s :=
  ⟨fun _ => SM.hosted_self _ _, id, .inl rfl, rfl, fun _ h => h, ⟨rfl, rfl⟩, ⟨rfl, rfl, rfl⟩, rfl, .inl rfl,
    .inl rfl⟩

theorem State.Wrote.hosted_state {s u : State} (h : s.Wrote u) : s.Hosted u := by
  have owned := h.pinsOwned
  have machine := h.hosted
  cases h with
  | refused r => exact { s.hosted_self with refused := fun q hq => by simp [hq, markRefused] }
  | ctrl _ _ _ _ ht | debug _ _ _ ht =>
    rw [ht]; rw [ht] at owned machine
    exact { s.hosted_self with machine, owned }
  | push | config | jump => exact { s.hosted_self with machine, owned }
  | load a w hd => exact { s.hosted_self with imem := .inr ⟨hd, a, w, rfl⟩ }

theorem hostTurn_hosted (s : State) : s.Hosted (hostTurn s) := by
  obtain h | ⟨u, q, rs, n, c, hu, hc, h⟩ := hostTurn_cases s
  · rw [h]
    exact { s.hosted_self with turn := .inr rfl }
  · have work : s.Hosted u := hu.elim (fun same => same ▸ s.hosted_self) State.Wrote.hosted_state
    rw [h]
    exact { work with nCh := hc }

end Sys2Proof.Machine

/-! SUPPORT. What every step of the block keeps (20_memory R81, R88, R90, 40_execution R131, R135, 60_exceptions
R302, R303): each invariant is kept by the host, by a turn, and by the end of a turn. -/

namespace Sys2Proof.Machine

/-! ## A step, machine by machine -/

/-- The end of a pulse keeps everything of a machine but its divider. -/
theorem SM.exists_pulsed_eq (m : SM) : ∃ e a, m.pulsed = { m with nextEn := e, divAcc := a } := by
  unfold SM.pulsed
  split
  · exact ⟨_, _, rfl⟩
  · exact ⟨_, _, rfl⟩

/-- The executing machine after its turn and the end of the pulse. -/
theorem State.sm_endPulse_active {s u : State} (h : s.Turn u) : u.endPulse.sm s.active = u.cur.pulsed := by
  obtain ⟨-, -, -, -, hactive, -⟩ := h.elsewhere
  rw [State.endPulse_eq, State.endTurn_sm, ← hactive]
  exact State.cur_setCur u _

/-- Every other machine after it. -/
theorem State.sm_endPulse_ne {s u : State} (h : s.Turn u) {k : Fin 4} (hk : k ≠ s.active) :
    u.endPulse.sm k = s.sm k := by
  obtain ⟨hsm, -, -, -, hactive, -⟩ := h.elsewhere
  rw [State.endPulse_eq, State.endTurn_sm, State.sm_setCur_ne u _ (hactive ▸ hk), hsm k hk]

/-! ## The marks (R302, R303) -/

/-- Settles O34: the host records no fault and no agent clears or changes a mark (that the first reason stays is
the model's choice, log 4). -/
theorem marksAreSticky : Obligations.MarksAreSticky := by
  unfold Obligations.MarksAreSticky
  intro s t h
  obtain ⟨-, rfl⟩ | ⟨-, -, rfl⟩ | ⟨-, -, u, turn, rfl⟩ := step_turn_cases h
  · exact ⟨fun f hf => (hostTurn_hosted s).faults ▸ hf, (hostTurn_hosted s).refused⟩
  · simp
  · simpa [State.endPulse_eq] using And.intro turn.faults turn.refused

/-- Settles O35: the host keeps the stop of every machine, and a stopped machine is not due. -/
theorem stoppedMachineStaysStopped : Obligations.StoppedMachineStaysStopped := by
  unfold Obligations.StoppedMachineStaysStopped
  intro s t k stopped h
  obtain ⟨hb, rfl⟩ | ⟨-, -, rfl⟩ | ⟨-, hd, u, turn, rfl⟩ := step_turn_cases h
  · exact ⟨((hostTurn_hosted s).machine k).halted.trans stopped, fun away => nomatch hb.symm.trans away⟩
  · simpa using stopped
  · have other : k ≠ s.active := by
      rintro rfl
      exact nomatch (State.due_iff.mp hd).2.1.symm.trans stopped
    rw [State.sm_endPulse_ne turn other]
    exact ⟨stopped, fun _ => rfl⟩

/-! ## The instruction memory and the configuration (R37, R90, R327) -/

/-- Settles O36: only the host writes the memory, and only while no machine is enabled. -/
theorem imemFixedWhileEnabled : Obligations.ImemFixedWhileEnabled := by
  unfold Obligations.ImemFixedWhileEnabled
  intro s t h ⟨k, enabled⟩ a
  obtain ⟨-, rfl⟩ | ⟨-, -, rfl⟩ | ⟨-, -, u, turn, rfl⟩ := step_turn_cases h
  · obtain same | ⟨disabled, -⟩ := (hostTurn_hosted s).imem
    · rw [same]
    · exact nomatch (disabled k).symm.trans enabled
  · rw [State.endTurn_imem]
  · rw [State.endPulse_eq, State.endTurn_imem, State.setCur_imem, turn.imem]

/-- Settles O38: the host's write of a slot keeps the canonical form, and nothing else writes the memory. -/
theorem imemStaysCanonical : Obligations.ImemStaysCanonical := by
  unfold Obligations.ImemStaysCanonical
  intro s t canonical h
  obtain ⟨-, rfl⟩ | ⟨-, -, rfl⟩ | ⟨-, -, u, turn, rfl⟩ := step_turn_cases h
  · obtain same | ⟨-, a, w, wrote⟩ := (hostTurn_hosted s).imem
    · rwa [same]
    · rw [wrote]
      exact Memory.wf_write w a.isLt canonical
  · rwa [State.endTurn_imem]
  · rwa [State.endPulse_eq, State.endTurn_imem, State.setCur_imem, turn.imem]

/-- Settles O37: the host configures disabled machines alone, a turn keeps the settings of its machine, and a
disabled machine has no turn. -/
theorem configurationFixedWhileEnabled : Obligations.ConfigurationFixedWhileEnabled := by
  unfold Obligations.ConfigurationFixedWhileEnabled
  intro s t k h
  obtain ⟨hb, rfl⟩ | ⟨-, -, rfl⟩ | ⟨-, hd, u, turn, rfl⟩ := step_turn_cases h
  · exact ⟨((hostTurn_hosted s).machine k).config, fun _ away => nomatch hb.symm.trans away⟩
  · simp
  · by_cases own : k = s.active
    · subst own
      obtain ⟨hclk, hexec, hshift, hpin, -⟩ := turn.machine.settings
      obtain ⟨e, a, pulsed⟩ := u.cur.exists_pulsed_eq
      rw [State.sm_endPulse_active turn, pulsed]
      exact ⟨fun _ => ⟨hclk, hexec, hshift, hpin⟩,
        fun disabled => nomatch (State.due_iff.mp hd).1.symm.trans disabled⟩
    · rw [State.sm_endPulse_ne turn own]
      exact ⟨fun _ => ⟨rfl, rfl, rfl, rfl⟩, fun _ _ => rfl⟩

/-! ## The machines -/

/-- A turn keeps its machine in order. -/
theorem SM.TurnOf.ok {m m' : SM} (h : m.TurnOf m') (hm : m.ok) : m'.ok := by
  obtain ⟨hclk, hexec, hshift, hpin, -⟩ := h.settings
  obtain ⟨taken, -, htxf⟩ := h.takes
  refine SM.ok_of_same hclk hexec hshift hpin (h.osrCount hm.1) ?_ hm
  rw [htxf, List.length_append]
  exact Nat.le_add_left _ _

/-- Settles O39: the host and the turns keep each machine in order. -/
theorem machinesStayInOrder : Obligations.MachinesStayInOrder := by
  unfold Obligations.MachinesStayInOrder
  intro s t inOrder h k
  obtain ⟨-, rfl⟩ | ⟨-, -, rfl⟩ | ⟨-, -, u, turn, rfl⟩ := step_turn_cases h
  · exact ((hostTurn_hosted s).machine k).ok (inOrder k)
  · rw [State.endTurn_sm]
    exact inOrder k
  · by_cases own : k = s.active
    · subst own
      obtain ⟨e, a, pulsed⟩ := u.cur.exists_pulsed_eq
      rw [State.sm_endPulse_active turn, pulsed]
      exact turn.machine.ok (inOrder s.active)
    · rw [State.sm_endPulse_ne turn own]
      exact inOrder k

/-- Settles O40: the host keeps it, and a turn changes neither a run bit nor a SET group. -/
theorem pinsKeepOneWriter : Obligations.PinsKeepOneWriter := by
  unfold Obligations.PinsKeepOneWriter
  intro s t owned h
  obtain ⟨-, rfl⟩ | ⟨-, -, rfl⟩ | ⟨-, -, u, turn, rfl⟩ := step_turn_cases h
  · exact (hostTurn_hosted s).owned owned
  · exact State.pinsOwned_of_enabled (fun k => by simp) owned
  · refine State.pinsOwned_of_enabled (fun k => ?_) owned
    by_cases own : k = s.active
    · subst own
      obtain ⟨-, -, -, hpin, henabled, -⟩ := turn.machine.settings
      obtain ⟨e, a, pulsed⟩ := u.cur.exists_pulsed_eq
      rw [State.sm_endPulse_active turn, pulsed]
      exact fun h => ⟨henabled ▸ h, hpin⟩
    · rw [State.sm_endPulse_ne turn own]
      exact fun h => ⟨h, rfl⟩

/-! ## The schedule (R88, R131) -/

/-- No machine whose turn in this cycle is over, the executing one among them, has its pulse behind it or now;
no later one has it behind it. -/
def State.TurnDone (s : State) : Prop :=
  ∀ k : Fin 4, (s.sm k).enabled = true → (s.sm k).halted = false → s.dummy k = false →
    if s.active < k then s.time ≤ (s.sm k).nextEn else s.time < (s.sm k).nextEn

theorem State.TurnDone.onSchedule_endTurn {s : State} (h : s.TurnDone) (hb : s.boundary = false) :
    s.endTurn.onSchedule := by
  intro k enabled running noDummy
  rw [State.endTurn_sm] at enabled running ⊢
  have next := h k enabled running (by unfold State.dummy at noDummy ⊢; rwa [State.endTurn_nCh] at noDummy)
  by_cases last : s.active = 3
  · rw [if_neg (by omega)] at next
    rw [State.endTurn_of_last last]
    exact (if_pos (.inl rfl)).mpr next
  · rw [State.endTurn_of_not_last last]
    have later : (s.active + 1 ≤ k) ↔ s.active < k := by omega
    simpa [hb, later] using next

theorem SM.divStep_pos (m : SM) : 0 < m.divStep := by
  have period : 0 < m.divPeriod := by
    unfold SM.divPeriod
    split
    · decide
    · next h => exact Nat.pos_of_ne_zero fun zero => h (BitVec.eq_of_toNat_eq zero)
  exact Nat.add_pos_left period _

/-- The turn of a machine that is not due is over: its pulse is not now. -/
theorem State.turnDone_of_not_due {s : State} (hb : s.boundary = false) (hd : s.due s.active = false)
    (h : s.onSchedule) : s.TurnDone := by
  intro k enabled running noDummy
  have next := h k enabled running noDummy
  simp only [hb, Bool.false_eq_true, false_or] at next
  obtain before | rfl | after := lt_trichotomy k s.active
  · rw [if_neg (not_le_of_gt before)] at next
    rwa [if_neg (not_lt_of_gt before)]
  · rw [if_pos le_rfl] at next
    rw [if_neg (lt_irrefl _)]
    exact lt_of_le_of_ne next fun now =>
      nomatch hd.symm.trans (State.due_iff.mpr ⟨enabled, running, noDummy, now.symm⟩)
  · rw [if_pos after.le] at next
    rwa [if_pos after]

/-- So is that of a machine that was due: the divider has moved its next pulse on. -/
theorem State.turnDone_of_turn {s u : State} (hb : s.boundary = false) (hd : s.due s.active = true)
    (h : s.onSchedule) (turn : s.Turn u) : (u.setCur u.cur.pulsed).TurnDone := by
  obtain ⟨hsm, -, htime, -, hactive, hnCh, -⟩ := turn.elsewhere
  intro k
  rw [State.sm_setCur, State.setCur_active, State.setCur_time, hactive, htime,
    show (u.setCur u.cur.pulsed).dummy k = s.dummy k from congrArg (decide <| · ≤ k.val) hnCh]
  split
  · next own =>
    subst own
    obtain ⟨-, -, -, -, -, -, hnext, -⟩ := turn.machine.settings
    obtain ⟨-, -, -, now⟩ := State.due_iff.mp hd
    intro _ running _
    have moved : u.cur.halted = false := by
      obtain ⟨e, a, pulsed⟩ := u.cur.exists_pulsed_eq
      rwa [pulsed] at running
    rw [if_neg (lt_irrefl _), SM.pulsed_of_running moved, SM.tick_nextEn, hnext]
    exact now ▸ Nat.lt_add_of_pos_right u.cur.divStep_pos
  · next other =>
    rw [hsm k other]
    intro enabled running noDummy
    have next := h k enabled running noDummy
    simp only [hb, Bool.false_eq_true, false_or] at next
    simpa only [lt_iff_le_and_ne, Ne.symm other, ne_eq, not_false_eq_true, and_true] using next

/-- A step of the host at a boundary keeps the schedule: it draws the first pulse of a machine it starts from
now on, and moves no other. -/
theorem State.Hosted.onSchedule {s t : State} (h : s.Hosted t) (hb : s.boundary = true)
    (on : s.onSchedule) : t.onSchedule := by
  intro k enabled running noDummy
  have now : t.boundary = true ∨ t.active ≤ k := h.turn.imp (·.trans hb) (·.le.trans (Fin.zero_le k))
  rw [if_pos now, h.time]
  obtain ⟨was, same⟩ | later := (h.machine k).schedule enabled
  · have hnCh : t.nCh = s.nCh := h.nCh.resolve_right fun disabled => nomatch (disabled k).symm.trans was
    have next := on k was ((h.machine k).halted ▸ running) (by unfold State.dummy at noDummy ⊢; rwa [← hnCh])
    rw [if_pos (.inl hb)] at next
    exact same ▸ next
  · exact later

/-- Settles O41: a start draws a pulse from now on, and a turn leaves its machine's pulse behind no more. -/
theorem noPulseIsMissed : Obligations.NoPulseIsMissed := by
  unfold Obligations.NoPulseIsMissed
  intro s t onSchedule h
  obtain ⟨hb, rfl⟩ | ⟨hb, hd, rfl⟩ | ⟨hb, hd, u, turn, rfl⟩ := step_turn_cases h
  · exact (hostTurn_hosted s).onSchedule hb onSchedule
  · exact (State.turnDone_of_not_due hb hd onSchedule).onSchedule_endTurn hb
  · obtain ⟨-, -, -, hboundary, -⟩ := turn.elsewhere
    rw [State.endPulse_eq]
    exact (State.turnDone_of_turn hb hd onSchedule turn).onSchedule_endTurn (hboundary.trans hb)

/-! ## The wire (R33, R135) -/

theorem replay_append (first later : List PinEvent) (v : Pins × Pins) :
    replay (first ++ later) v = replay later (replay first v) := by
  induction first generalizing v with
  | nil => rfl
  | cons e first ih => exact ih _

/-- With the writes on their way in the order of their cycles, none that the wire leaves there is due. -/
theorem drainPipe_leaves_not_due (now : Nat) {pipe : List PinEvent} (out oe : Pins)
    (sorted : (pipe.map PinEvent.time).Pairwise (· ≤ ·)) :
    ∀ e ∈ (drainPipe now pipe out oe).1, now < e.time + Config.lOut := by
  induction pipe generalizing out oe with
  | nil => exact fun e he => nomatch he
  | cons first rest ih =>
    obtain ⟨before, sorted⟩ := List.pairwise_cons.mp sorted
    rw [drainPipe]
    split_ifs with due
    · exact ih _ _ sorted
    · exact ih _ _ sorted
    · intro e he
      obtain rfl | he := List.mem_cons.mp he
      · omega
      · have := before _ (List.mem_map_of_mem he)
        omega

/-- What the end of a turn puts on the wire. -/
theorem State.endTurn_wire (s : State) :
    ∃ shown, s.pinPipe = shown ++ s.endTurn.pinPipe ∧
      (s.endTurn.wireOut, s.endTurn.wireOe) = replay shown (s.wireOut, s.wireOe) ∧
      ∀ e ∈ shown, e.time + Config.lOut ≤ s.endTurn.time := by
  by_cases last : s.active = 3
  · rw [State.endTurn_of_last last]
    exact drainPipe_takes (s.time + 1) s.pinPipe s.wireOut s.wireOe
  · rw [State.endTurn_of_not_last last]
    exact ⟨[], rfl, rfl, by simp⟩

theorem State.wireInStep_endTurn {s : State} (h : s.wireInStep) : s.endTurn.wireInStep := by
  obtain ⟨leads, sorted, bounds⟩ := h
  obtain ⟨shown, hpipe, hwire, -⟩ := s.endTurn_wire
  have left : s.endTurn.pinPipe <:+ s.pinPipe := ⟨shown, hpipe.symm⟩
  refine ⟨?_, sorted.sublist (left.sublist.map _), fun e he => ?_⟩
  · rw [hwire, ← replay_append, ← hpipe, leads, State.endTurn_pinOut, State.endTurn_pinOe]
  · obtain ⟨made, notDue⟩ := bounds e (left.subset he)
    by_cases last : s.active = 3
    · rw [State.endTurn_of_last last] at he ⊢
      exact ⟨made.trans (Nat.le_succ _), drainPipe_leaves_not_due (s.time + 1) _ _ sorted e he⟩
    · rw [State.endTurn_of_not_last last]
      exact ⟨made, notDue⟩

/-- A turn sends its pin writes behind those on their way, none of them due. -/
theorem State.Turn.wireInStep {s u : State} (turn : s.Turn u) (h : s.wireInStep) : u.wireInStep := by
  obtain ⟨leads, sorted, bounds⟩ := h
  obtain ⟨fresh, hpipe, now, written⟩ := turn.pins
  obtain ⟨-, -, htime, -, -, -, hout, hoe, -⟩ := turn.elsewhere
  refine ⟨?_, ?_, fun e he => ?_⟩
  · rw [hpipe, hout, hoe, replay_append, leads, written]
  · have same : (fresh.map PinEvent.time).Pairwise (· ≤ ·) :=
      List.pairwise_map.mpr (List.pairwise_of_forall_mem_list fun a ha b hb => (now a ha).trans_le (now b hb).ge)
    rw [hpipe, List.map_append, List.pairwise_append]
    refine ⟨sorted, same, ?_⟩
    simp only [List.forall_mem_map]
    exact fun e he f hf => (bounds e he).1.trans (now f hf).ge
  · rw [htime]
    obtain he | he := List.mem_append.mp (hpipe ▸ he)
    · exact bounds e he
    · rw [now e he]
      exact ⟨le_rfl, Nat.lt_add_of_pos_right (Nat.succ_pos _)⟩

/-- Settles O42: the host touches neither the wire nor the writes on their way; a turn adds its own to these,
and the end of a turn takes the due ones from them. -/
theorem wireFollowsTheLatches : Obligations.WireFollowsTheLatches := by
  unfold Obligations.WireFollowsTheLatches
  intro s t h
  obtain ⟨-, rfl⟩ | ⟨-, -, rfl⟩ | ⟨-, -, u, turn, rfl⟩ := step_turn_cases h
  · obtain ⟨hout, hoe, hpipe⟩ := (hostTurn_hosted s).wire
    obtain ⟨hpinOut, hpinOe⟩ := (hostTurn_hosted s).pins
    refine ⟨fun inStep => ?_, [], [], ?_, ?_, by simp, by simp⟩
    · unfold State.wireInStep
      rwa [hpipe, hout, hoe, hpinOut, hpinOe, (hostTurn_hosted s).time]
    · rw [hpipe, List.append_nil, List.nil_append]
    · rw [hout, hoe]
      rfl
  · obtain ⟨shown, hpipe, hwire, due⟩ := s.endTurn_wire
    exact ⟨State.wireInStep_endTurn, shown, [], (List.append_nil _).trans hpipe, hwire, due, by simp⟩
  · obtain ⟨fresh, hfresh, now, -⟩ := turn.pins
    obtain ⟨-, -, -, -, -, -, hout, hoe, -⟩ := turn.elsewhere
    rw [State.endPulse_eq]
    obtain ⟨shown, hpipe, hwire, due⟩ := (u.setCur u.cur.pulsed).endTurn_wire
    refine ⟨fun inStep => State.wireInStep_endTurn (turn.wireInStep inStep), shown, fresh,
      hfresh.symm.trans hpipe, ?_, due, now⟩
    rw [hwire, State.setCur_wireOut, State.setCur_wireOe, hout, hoe]

/-! ## Reset -/

/-- A machine right after reset is in order (R320). -/
theorem SM.ok_reset : SM.reset.ok := by decide

/-- Settles O43: no machine is enabled, nothing is loaded, and the latches and the wire are the same. -/
theorem resetMeetsTheInvariants : Obligations.ResetMeetsTheInvariants := by
  unfold Obligations.ResetMeetsTheInvariants
  have disabled k : (State.reset.sm k).enabled = false := congrArg SM.enabled (State.sm_reset k)
  refine ⟨Memory.wf_reset, fun k => (State.sm_reset k).symm ▸ SM.ok_reset, fun j _ _ hj => ?_, fun k hk => ?_,
    ⟨rfl, List.Pairwise.nil, by simp [State.reset]⟩, rfl, rfl⟩
  · exact nomatch (disabled j).symm.trans hj
  · exact nomatch (disabled k).symm.trans hk

end Sys2Proof.Machine

/-! SUPPORT. What one instruction does as a function of its machine alone (40_execution R143, 46_channels_host
R284, 60_exceptions R307), and from that the frames of the families and the isolation of the machines. -/

namespace Sys2Proof.Machine

/-! ## The effect of an instruction -/

/-- What an instruction can do to the block. -/
inductive Effect where
  /-- Its machine becomes `m`. -/
  | machine (m : SM)
  /-- Its machine becomes `m`, and the latches of its SET group the data. -/
  | pins (data : BitVec 5) (m : SM)
  /-- Its machine becomes `m`, and the enables of its SET group the data. -/
  | dirs (data : BitVec 5) (m : SM)
  /-- It raises a fault. -/
  | fault (f : Fault)
  /-- It is refused. -/
  | refusal

/-- The block after an effect of the executing machine. -/
def State.after (s : State) : Effect → State
  | .machine m => s.setCur m
  | .pins data m => (s.writePins s.cur.setBase s.cur.setCount data).setCur m
  | .dirs data m => (s.writePinDirs s.cur.setBase s.cur.setCount data).setCur m
  | .fault f => s.raise f
  | .refusal => s.refuseInstr

/-- The executing machine `m` after an effect. -/
def Effect.sm (m : SM) : Effect → SM
  | .machine m' | .pins _ m' | .dirs _ m' => m'
  | .fault _ | .refusal => { m with halted := true }

/-- The latch of pin `p` after an effect of machine `m`. -/
def Effect.latch (m : SM) (p : PinIx) (old : Bool) : Effect → Bool
  | .pins data _ => if m.inGroup p then data.getLsbD (p - m.setBase).toNat else old
  | .machine _ | .dirs _ _ | .fault _ | .refusal => old

/-- The enable of pin `p` after an effect of machine `m`. -/
def Effect.enable (m : SM) (p : PinIx) (old : Bool) : Effect → Bool
  | .dirs data _ => if m.inGroup p then data.getLsbD (p - m.setBase).toNat else old
  | .machine _ | .pins _ _ | .fault _ | .refusal => old

/-- The refusal mark after an effect. -/
def Effect.mark (old : Option Refusal) : Effect → Option Refusal
  | .refusal => markRefused old .refusedInstr
  | .machine _ | .pins _ _ | .dirs _ _ | .fault _ => old

section After
variable (s : State) (e : Effect)

theorem State.after_sm (k : Fin 4) : (s.after e).sm k = if k = s.active then e.sm s.cur else s.sm k := by
  cases e <;> exact State.sm_setCur _ _ _

theorem State.after_cur : (s.after e).cur = e.sm s.cur := by
  cases e <;> exact State.cur_setCur _ _

theorem State.after_imem : (s.after e).imem = s.imem := by cases e <;> rfl

theorem State.after_refused : (s.after e).refused = e.mark s.refused := by cases e <;> rfl

theorem State.mem_after_faults (f : Fault) : f ∈ (s.after e).faults ↔ e = .fault f ∨ f ∈ s.faults := by
  cases e with
  | fault g => simp [State.after, eq_comm]
  | _ => simp [State.after]

/-- A written SET group holds the data, and the other pins what they held (R180). -/
theorem getElem_writeGroup_setGroup (m : SM) (p : PinIx) (data : BitVec 5) (v : Pins) :
    (writeGroup m.setBase data m.setCount v)[p.toNat]'(BitVec.isLt p) =
      if m.inGroup p then data.getLsbD (p - m.setBase).toNat else v[p.toNat]'(BitVec.isLt p) := by
  rw [getElem_writeGroup _ _ _ _ _ m.setCount_le]
  simp only [SM.inGroup, decide_eq_true_eq]

theorem State.after_latch (p : PinIx) : (s.after e).latch p = e.latch s.cur p (s.latch p) := by
  cases e with
  | pins data m => exact getElem_writeGroup_setGroup s.cur p data s.pinOut
  | _ => rfl

theorem State.after_enable (p : PinIx) : (s.after e).enable p = e.enable s.cur p (s.enable p) := by
  cases e with
  | dirs data m => exact getElem_writeGroup_setGroup s.cur p data s.pinOe
  | _ => rfl

end After

/-! ## Which instruction touches what -/

/-- It may write X. -/
def writesX : Instr → Bool
  | .jmpXDec _ _ | .setX _ _ | .outX _ _ => true
  | _ => false

/-- It may write Y. -/
def writesY : Instr → Bool
  | .jmpYDec _ _ | .setY _ _ | .outY _ _ => true
  | _ => false

/-- It works on the OSR, its count, the FIFO or TXSTALL. -/
def shifts : Instr → Bool
  | .outX _ _ | .outY _ _ | .outNull _ _ | .pullBlock _ | .pullNoblock _ | .pullIfemptyBlock _
  | .pullIfemptyNoblock _ => true
  | _ => false

/-- It draws the level of a pin. -/
def drawsLevel : Instr → Bool
  | .jmpPin _ _ => true
  | _ => false

/-- It writes pins. -/
def writesPins : Instr → Bool
  | .setPins _ _ | .setPindirs _ _ => true
  | _ => false

/-- The registers that instruction `i` leaves alone from `m` to `m'`. -/
structure SM.Leaves (i : Instr) (m m' : SM) : Prop where
  x : writesX i = false → m'.x = m.x
  y : writesY i = false → m'.y = m.y
  draws : drawsLevel i = false → m'.draws = m.draws
  shift : shifts i = false →
    m'.osr = m.osr ∧ m'.osrCount = m.osrCount ∧ m'.txf = m.txf ∧ m'.txstall = m.txstall

/-- An effect that instruction `i` may have on machine `m`. -/
def Effect.Fits (i : Instr) (m : SM) : Effect → Prop
  | .machine m' => m.Leaves i m'
  | .pins _ m' | .dirs _ m' => writesPins i = true ∧ m.Leaves i m'
  | .fault _ => True
  | .refusal => verdict i ≠ .admitted

/-- As instruction `i` of machine `k`, in state `m`, `f` has one effect, whatever the rest of the block is. -/
def HasEffect (i : Instr) (k : Fin 4) (m : SM) (f : State → Host.Outcome State Fault Refusal) : Prop :=
  ∃ e : Effect, e.Fits i m ∧ ∀ s : State, s.active = k → s.cur = m → f s = .next (s.after e)

section HasEffect
variable {i : Instr} {k : Fin 4} {m : SM}

theorem SM.leaves_self (i : Instr) (m : SM) : m.Leaves i m :=
  ⟨fun _ => rfl, fun _ => rfl, fun _ => rfl, fun _ => ⟨rfl, rfl, rfl, rfl⟩⟩

theorem SM.leaves_x (m : SM) (h : writesX i = true) (v : Option Word) : m.Leaves i { m with x := v } :=
  { m.leaves_self i with x := fun no => nomatch no.symm.trans h }

theorem SM.leaves_y (m : SM) (h : writesY i = true) (v : Option Word) : m.Leaves i { m with y := v } :=
  { m.leaves_self i with y := fun no => nomatch no.symm.trans h }

theorem SM.leaves_draws (m : SM) (h : drawsLevel i = true) (n : Nat) : m.Leaves i { m with draws := n } :=
  { m.leaves_self i with draws := fun no => nomatch no.symm.trans h }

theorem SM.Leaves.complete {m' : SM} (h : m.Leaves i m') (d : BitVec 5) (target : Option Slot) :
    m.Leaves i (m'.complete d target) :=
  ⟨h.x, h.y, h.draws, h.shift⟩

theorem hasEffect_finish {m' : SM} (h : m.Leaves i m') (d : BitVec 5) (target : Option Slot) :
    HasEffect i k m fun s => finish s m' d target :=
  ⟨.machine (m'.complete d target), h.complete d target, fun _ _ _ => rfl⟩

theorem hasEffect_stall (h : shifts i = true) : HasEffect i k m stallCur :=
  ⟨.machine m.stall, ⟨fun _ => rfl, fun _ => rfl, fun _ => rfl, fun no => nomatch no.symm.trans h⟩,
    fun _ _ hm => hm ▸ rfl⟩

theorem hasEffect_withReg (r : RegName) (v : Option Word) {use : State → Word → Host.Outcome State Fault Refusal}
    (h : ∀ x, HasEffect i k m fun s => use s x) :
    HasEffect i k m fun s => withReg s i r v (use s) := by
  cases v with
  | none => exact ⟨.fault (.unwrittenRead k m.pc (encode i) r), trivial, fun _ hk hm => hk ▸ hm ▸ rfl⟩
  | some x => exact h x

theorem hasEffect_branch {m' : SM} (h : m.Leaves i m') (taken : Bool) (d : BitVec 5) (a : Slot) :
    HasEffect i k m fun s => branch s m' taken d a :=
  hasEffect_finish h d _

/-- It is enough to look at states whose executing machine is machine `k`, in state `m`. -/
theorem HasEffect.congr {f g : State → Host.Outcome State Fault Refusal} (h : HasEffect i k m g)
    (same : ∀ s, s.active = k → s.cur = m → f s = g s) : HasEffect i k m f := by
  obtain ⟨e, fits, run⟩ := h
  exact ⟨e, fits, fun s hk hm => (same s hk hm).trans (run s hk hm)⟩

/-! ## OUT and PULL -/

theorem SM.Leaves.trans {m1 m2 : SM} (h1 : m.Leaves i m1) (h2 : m1.Leaves i m2) : m.Leaves i m2 where
  x no := (h2.x no).trans (h1.x no)
  y no := (h2.y no).trans (h1.y no)
  draws no := (h2.draws no).trans (h1.draws no)
  shift no := by
    obtain ⟨a1, b1, c1, d1⟩ := h1.shift no
    obtain ⟨a2, b2, c2, d2⟩ := h2.shift no
    exact ⟨a2.trans a1, b2.trans b1, c2.trans c1, d2.trans d1⟩

section Shift
variable (hi : shifts i = true)
include hi

/-- An OUT or PULL that writes neither X, Y nor the draws. -/
theorem SM.leaves_of_shifts {m' : SM} (hx : m'.x = m.x) (hy : m'.y = m.y) (hn : m'.draws = m.draws) :
    m.Leaves i m' :=
  ⟨fun _ => hx, fun _ => hy, fun _ => hn, fun no => nomatch no.symm.trans hi⟩

theorem SM.Popped.leaves {m' : SM} (h : m.Popped m') : m.Leaves i m' := by
  obtain ⟨w, rest, -, rfl⟩ := h
  exact SM.leaves_of_shifts hi rfl rfl rfl

theorem SM.leaves_pullAfter : m.Leaves i m.pullAfter := by
  obtain ⟨-, popped⟩ | ⟨-, same⟩ := m.outEnds_pullAfter
  · exact SM.Popped.leaves hi popped
  · rw [same]
    exact m.leaves_self i

theorem hasEffect_outWith (d count : BitVec 5) {deliver : SM → Word → SM}
    (hd : ∀ (m : SM) v, m.Leaves i (deliver m v)) : HasEffect i k m fun s => outWith s i d count deliver := by
  cases hb : m.pullBefore with
  | none =>
    obtain ⟨wants, empty⟩ := SM.pullBefore_eq_none.mp hb
    exact (hasEffect_stall hi).congr fun s _ hm => outWith_stalls i d count deliver (hm ▸ wants) (hm ▸ empty)
  | some m1 =>
    have begins : m.Leaves i m1 := by
      obtain ⟨-, popped⟩ | ⟨-, rfl⟩ := SM.pullBefore_eq_some.mp hb
      · exact SM.Popped.leaves hi popped
      · exact m1.leaves_self i
    have ends v := ((begins.trans (SM.leaves_of_shifts hi (m' := m1.shifted (bitCount count) v) rfl rfl rfl)).trans
      (hd _ (shiftOut m1.shiftRight (bitCount count) v).1)).trans (SM.leaves_pullAfter hi)
    refine (hasEffect_withReg .osr m1.osr fun v => hasEffect_finish (ends v) d none).congr fun s _ hm => ?_
    subst hm
    rw [outWith, hb]

theorem hasEffect_pullWith (d : BitVec 5) (ifEmpty block : Bool) :
    HasEffect i k m fun s => pullWith s i d ifEmpty block := by
  by_cases skips : m.PullSkips ifEmpty
  · exact (hasEffect_finish (m.leaves_self i) d none).congr fun s _ hm => by
      subst hm; exact pullWith_of_skips i d block skips
  · cases hload : m.loadOsr with
    | some m1 =>
      have popped := SM.loadOsr_eq_some.mp hload
      exact (hasEffect_finish (SM.Popped.leaves hi popped) d none).congr fun s _ hm => by
        subst hm; exact pullWith_of_popped i d block skips popped
    | none =>
      have empty := SM.loadOsr_eq_none.mp hload
      cases block with
      | true =>
        exact (hasEffect_stall hi).congr fun s _ hm => by
          subst hm; exact pullWith_of_empty i d true skips empty
      | false =>
        have copied x : m.Leaves i { m with osr := some x, osrCount := 0 } := SM.leaves_of_shifts hi rfl rfl rfl
        exact (hasEffect_withReg .x m.x fun x => hasEffect_finish (copied x) d none).congr fun s _ hm => by
          subst hm; exact pullWith_of_empty i d false skips empty

end Shift
end HasEffect

/-! ## Every instruction -/

/-- Every instruction has one effect, a function of its machine. -/
theorem exec_hasEffect (i : Instr) (k : Fin 4) (m : SM) : HasEffect i k m (exec i) := by
  have same (i : Instr) : m.Leaves i m := m.leaves_self i
  cases i with
  | jmp d a => exact (hasEffect_branch (same _) true d a).congr fun s _ hm => by subst hm; rfl
  | jmpNotX d a =>
    exact (hasEffect_withReg .x m.x fun x => hasEffect_branch (same _) (x == 0) d a).congr
      fun s _ hm => by subst hm; rfl
  | jmpXDec d a =>
    exact (hasEffect_withReg .x m.x fun x => hasEffect_branch (m.leaves_x rfl (some (x - 1))) (x != 0) d a).congr
      fun s _ hm => by subst hm; rfl
  | jmpNotY d a =>
    exact (hasEffect_withReg .y m.y fun y => hasEffect_branch (same _) (y == 0) d a).congr
      fun s _ hm => by subst hm; rfl
  | jmpYDec d a =>
    exact (hasEffect_withReg .y m.y fun y => hasEffect_branch (m.leaves_y rfl (some (y - 1))) (y != 0) d a).congr
      fun s _ hm => by subst hm; rfl
  | jmpXNeY d a =>
    exact (hasEffect_withReg .x m.x fun x => hasEffect_withReg .y m.y fun y =>
      hasEffect_branch (same _) (x != y) d a).congr fun s _ hm => by subst hm; rfl
  | jmpPin d a =>
    exact (hasEffect_branch (m.leaves_draws rfl (m.draws + 1)) (Config.pinRead k m.jmpPinIx m.draws) d a).congr
      fun s hk hm => by subst hk hm; rfl
  | jmpNotOsre d a => exact (hasEffect_branch (same _) m.osrNotEmpty d a).congr fun s _ hm => by subst hm; rfl
  | outX d n =>
    exact (hasEffect_outWith rfl d n fun m v => m.leaves_x rfl (some v)).congr fun s _ _ => exec_outX d n s
  | outY d n =>
    exact (hasEffect_outWith rfl d n fun m v => m.leaves_y rfl (some v)).congr fun s _ _ => exec_outY d n s
  | outNull d n =>
    exact (hasEffect_outWith rfl d n fun m _ => m.leaves_self _).congr fun s _ _ => exec_outNull d n s
  | pullBlock d => exact (hasEffect_pullWith rfl d false true).congr fun s _ _ => exec_pullBlock d s
  | pullNoblock d => exact (hasEffect_pullWith rfl d false false).congr fun s _ _ => exec_pullNoblock d s
  | pullIfemptyBlock d => exact (hasEffect_pullWith rfl d true true).congr fun s _ _ => exec_pullIfemptyBlock d s
  | pullIfemptyNoblock d =>
    exact (hasEffect_pullWith rfl d true false).congr fun s _ _ => exec_pullIfemptyNoblock d s
  | nop d => exact (hasEffect_finish (same _) d none).congr fun s _ hm => by subst hm; rfl
  | setPins d v =>
    exact ⟨.pins v (m.complete d none), ⟨rfl, (same _).complete d none⟩, fun s _ hm => by subst hm; rfl⟩
  | setPindirs d v =>
    exact ⟨.dirs v (m.complete d none), ⟨rfl, (same _).complete d none⟩, fun s _ hm => by subst hm; rfl⟩
  | setX d v =>
    exact (hasEffect_finish (m.leaves_x rfl (some (v.setWidth 32))) d none).congr fun s _ hm => by subst hm; rfl
  | setY d v =>
    exact (hasEffect_finish (m.leaves_y rfl (some (v.setWidth 32))) d none).congr fun s _ hm => by subst hm; rfl
  | _ => exact ⟨.refusal, nofun, fun _ _ _ => rfl⟩

/-! ## The frames of the families -/

theorem Effect.Fits.leaves {e : Effect} {i : Instr} {m : SM} (h : e.Fits i m) : m.Leaves i (e.sm m) := by
  cases e with
  | machine m' => exact h
  | pins | dirs => exact h.2
  | fault | refusal => exact { m.leaves_self i with }

/-- An instruction that answers a next state has had its effect. -/
theorem effect_of_exec {i : Instr} {s t : State} (h : exec i s = .next t) :
    ∃ e : Effect, e.Fits i s.cur ∧ t = s.after e := by
  obtain ⟨e, fits, run⟩ := exec_hasEffect i s.active s.cur
  exact ⟨e, fits, (Host.Outcome.next.inj ((run s rfl rfl).symm.trans h)).symm⟩

/-- The registers an instruction leaves alone. -/
theorem leaves_of_exec {i : Instr} {s t : State} (h : exec i s = .next t) : s.cur.Leaves i t.cur := by
  obtain ⟨e, fits, rfl⟩ := effect_of_exec h
  rw [State.after_cur]
  exact fits.leaves

/-- Only SET PINS and SET PINDIRS write pins. -/
theorem samePins_of_exec {i : Instr} {s t : State} (h : exec i s = .next t) (no : writesPins i = false) :
    s.samePins t := by
  obtain ⟨e, fits, rfl⟩ := effect_of_exec h
  cases e with
  | pins | dirs => exact nomatch no.symm.trans fits.1
  | machine | fault | refusal => exact ⟨rfl, rfl, rfl⟩

/-- An admitted instruction is not refused. -/
theorem refused_of_exec {i : Instr} {s t : State} (h : exec i s = .next t) (admitted : verdict i = .admitted) :
    t.refused = s.refused := by
  obtain ⟨e, fits, rfl⟩ := effect_of_exec h
  cases e with
  | refusal => exact absurd admitted fits
  | machine | pins | dirs | fault => rfl

/-- Settles O26: by what each of the eleven instructions writes. -/
theorem frameOfRegisterInstructions : Obligations.FrameOfRegisterInstructions := by
  unfold Obligations.FrameOfRegisterInstructions
  intro s t d a i hi h
  have kind : shifts i = false ∧ writesPins i = false ∧ verdict i = .admitted ∧
      (i ∉ [.jmpXDec d a, .setX d a] → writesX i = false) ∧
      (i ∉ [.jmpYDec d a, .setY d a] → writesY i = false) ∧
      (i ≠ .jmpPin d a → drawsLevel i = false) := by
    simp only [List.mem_cons, List.not_mem_nil, or_false] at hi
    obtain rfl | rfl | rfl | rfl | rfl | rfl | rfl | rfl | rfl | rfl | rfl := hi <;>
      simp [shifts, writesPins, verdict, writesX, writesY, drawsLevel]
  obtain ⟨noShift, noPins, admitted, noX, noY, noDraw⟩ := kind
  have leaves := leaves_of_exec h
  obtain ⟨hosr, hcount, htxf, hstall⟩ := leaves.shift noShift
  exact ⟨(turn_of_exec h).elsewhere, samePins_of_exec h noPins, (turn_of_exec h).machine.settings,
    refused_of_exec h admitted, hosr, hcount, htxf, hstall, leaves.x ∘ noX, leaves.y ∘ noY,
    leaves.draws ∘ noDraw⟩

/-- Settles O27: by what each of the seven instructions writes. -/
theorem frameOfShiftRegisterInstructions : Obligations.FrameOfShiftRegisterInstructions := by
  unfold Obligations.FrameOfShiftRegisterInstructions
  intro s t d n i hi h
  have kind : writesPins i = false ∧ verdict i = .admitted ∧ drawsLevel i = false ∧
      (i ≠ .outX d n → writesX i = false) ∧ (i ≠ .outY d n → writesY i = false) := by
    simp only [List.mem_cons, List.not_mem_nil, or_false] at hi
    obtain rfl | rfl | rfl | rfl | rfl | rfl | rfl := hi <;>
      simp [writesPins, verdict, writesX, writesY, drawsLevel]
  obtain ⟨noPins, admitted, noDraw, noX, noY⟩ := kind
  have leaves := leaves_of_exec h
  exact ⟨(turn_of_exec h).elsewhere, samePins_of_exec h noPins, (turn_of_exec h).machine.settings,
    refused_of_exec h admitted, leaves.draws noDraw, leaves.x ∘ noX, leaves.y ∘ noY⟩

/-- Settles O28: a SET of pins completes with its group written, and works on no register. -/
theorem frameOfPinWriters : Obligations.FrameOfPinWriters := by
  unfold Obligations.FrameOfPinWriters
  intro s t d v i hi h
  have kind : shifts i = false ∧ writesX i = false ∧ writesY i = false ∧ drawsLevel i = false ∧
      s.sameMarks t ∧ t.cur.halted = s.cur.halted := by
    simp only [List.mem_cons, List.not_mem_nil, or_false] at hi
    obtain rfl | rfl := hi <;> cases h
    · exact ⟨rfl, rfl, rfl, rfl, ⟨rfl, rfl⟩, by rw [State.cur_setCur]; rfl⟩
    · exact ⟨rfl, rfl, rfl, rfl, ⟨rfl, rfl⟩, by rw [State.cur_setCur]; rfl⟩
  obtain ⟨noShift, noX, noY, noDraw, marks, halted⟩ := kind
  have leaves := leaves_of_exec h
  obtain ⟨hosr, hcount, htxf, hstall⟩ := leaves.shift noShift
  exact ⟨(turn_of_exec h).elsewhere, marks, (turn_of_exec h).machine.settings, leaves.x noX, leaves.y noY, hosr,
    hcount, htxf, hstall, leaves.draws noDraw, halted⟩

/-- Settles O17: the JMP is the branch on the draw, with the draw counted. -/
theorem jmpPinTakesADraw : Obligations.JmpPinTakesADraw := by
  unfold Obligations.JmpPinTakesADraw
  exact fun s d a => branch_eq s _ _ d a

/-! ## Isolation (R143, R284) -/

/-- Settles O31: both runs have the one effect of the machine, and a written group holds the data in both. For
JMP PIN this rests on the model's draw, a fixed function of machine, pin and counter (logs 6 and 25). -/
theorem instructionSeesOnlyItsOwnMachine : Obligations.InstructionSeesOnlyItsOwnMachine := by
  unfold Obligations.InstructionSeesOnlyItsOwnMachine
  intro i s1 s2 t1 t2 hactive hcur hpins h1 h2
  obtain ⟨e, -, run⟩ := exec_hasEffect i s1.active s1.cur
  obtain rfl := Host.Outcome.next.inj ((run s1 rfl rfl).symm.trans h1)
  obtain rfl := Host.Outcome.next.inj ((run s2 hactive.symm hcur.symm).symm.trans h2)
  refine ⟨by rw [State.after_cur, State.after_cur, hcur], fun p hp => ?_⟩
  obtain ⟨hlatch, henable⟩ := hpins p hp
  rw [State.after_latch, State.after_latch, State.after_enable, State.after_enable, hlatch, henable, hcur]
  exact ⟨rfl, rfl⟩

/-! ## Two machines (R83, R143) -/

/-- The block after an effect of machine `k`. -/
def State.afterOf (s : State) (k : Fin 4) (e : Effect) : State := { s with active := k }.after e

theorem State.afterOf_sm (s : State) (k : Fin 4) (e : Effect) (l : Fin 4) :
    (s.afterOf k e).sm l = if l = k then e.sm (s.sm k) else s.sm l :=
  State.after_sm { s with active := k } e l

theorem State.afterOf_latch (s : State) (k : Fin 4) (e : Effect) (p : PinIx) :
    (s.afterOf k e).latch p = e.latch (s.sm k) p (s.latch p) :=
  State.after_latch { s with active := k } e p

theorem State.afterOf_enable (s : State) (k : Fin 4) (e : Effect) (p : PinIx) :
    (s.afterOf k e).enable p = e.enable (s.sm k) p (s.enable p) :=
  State.after_enable { s with active := k } e p

/-- Pin arrays that agree on every pin are the same. -/
theorem Pins.ext {u v : Pins} (h : ∀ p : PinIx, u[p.toNat]'(BitVec.isLt p) = v[p.toNat]'(BitVec.isLt p)) : u = v :=
  Vector.ext fun n hn => by
    have := h (BitVec.ofNat 5 n)
    simpa only [BitVec.toNat_ofNat, Nat.mod_eq_of_lt (show n < 2 ^ 5 from hn)] using this

theorem Effect.latch_of_not_inGroup (e : Effect) {m : SM} {p : PinIx} (h : m.inGroup p = false) (old : Bool) :
    e.latch m p old = old := by
  cases e <;> simp [Effect.latch, h]

theorem Effect.enable_of_not_inGroup (e : Effect) {m : SM} {p : PinIx} (h : m.inGroup p = false) (old : Bool) :
    e.enable m p old = old := by
  cases e <;> simp [Effect.enable, h]

/-- The mark is the older one or that of a refused instruction, whichever machine was refused first. -/
theorem Effect.mark_comm (e f : Effect) (old : Option Refusal) : e.mark (f.mark old) = f.mark (e.mark old) := by
  cases e <;> cases f <;> rfl

/-- Effects of two machines with disjoint SET groups commute. -/
theorem State.afterOf_comm (s : State) {j k : Fin 4} (hjk : j ≠ k)
    (apart : ∀ p : PinIx, ¬((s.sm j).inGroup p = true ∧ (s.sm k).inGroup p = true)) (e f : Effect) :
    let t := (s.afterOf j e).afterOf k f
    let u := (s.afterOf k f).afterOf j e
    t.sms = u.sms ∧ t.pinOut = u.pinOut ∧ t.pinOe = u.pinOe ∧ t.imem = u.imem ∧ t.refused = u.refused ∧
      ∀ g, g ∈ t.faults ↔ g ∈ u.faults := by
  have smj : (s.afterOf k f).sm j = s.sm j := (s.afterOf_sm k f j).trans (if_neg hjk)
  have smk : (s.afterOf j e).sm k = s.sm k := (s.afterOf_sm j e k).trans (if_neg hjk.symm)
  have outside p : (s.sm j).inGroup p = false ∨ (s.sm k).inGroup p = false := by
    rw [← Bool.not_eq_true, ← Bool.not_eq_true, ← not_and_or]
    exact apart p
  refine ⟨State.sms_ext fun l => ?_, Pins.ext fun p => ?_, Pins.ext fun p => ?_, ?_, ?_, fun g => ?_⟩
  · simp only [State.afterOf_sm, if_neg hjk, if_neg hjk.symm]
    split_ifs with hk hj
    · exact absurd (hj.symm.trans hk) hjk
    all_goals rfl
  · show ((s.afterOf j e).afterOf k f).latch p = ((s.afterOf k f).afterOf j e).latch p
    rw [State.afterOf_latch, State.afterOf_latch, State.afterOf_latch, State.afterOf_latch, smj, smk]
    obtain h | h := outside p <;> simp only [Effect.latch_of_not_inGroup _ h]
  · show ((s.afterOf j e).afterOf k f).enable p = ((s.afterOf k f).afterOf j e).enable p
    rw [State.afterOf_enable, State.afterOf_enable, State.afterOf_enable, State.afterOf_enable, smj, smk]
    obtain h | h := outside p <;> simp only [Effect.enable_of_not_inGroup _ h]
  · simp only [State.afterOf, State.after_imem]
  · simp only [State.afterOf, State.after_refused]
    exact f.mark_comm e s.refused
  · simp only [State.afterOf, State.mem_after_faults]
    exact or_left_comm

/-- Settles O32: each instruction has the same effect in either order, and the two effects commute. -/
theorem stepsOfTwoMachinesCommute : Obligations.StepsOfTwoMachinesCommute := by
  unfold Obligations.StepsOfTwoMachinesCommute
  intro s j k i1 i2 hjk apart
  obtain ⟨e1, -, run1⟩ := exec_hasEffect i1 j (s.sm j)
  obtain ⟨e2, -, run2⟩ := exec_hasEffect i2 k (s.sm k)
  have smj : (s.afterOf k e2).sm j = s.sm j := (s.afterOf_sm k e2 j).trans (if_neg hjk)
  have smk : (s.afterOf j e1).sm k = s.sm k := (s.afterOf_sm j e1 k).trans (if_neg hjk.symm)
  exact ⟨s.afterOf j e1, (s.afterOf j e1).afterOf k e2, s.afterOf k e2, (s.afterOf k e2).afterOf j e1,
    run1 _ rfl rfl, run2 _ rfl smk, run2 _ rfl rfl, run1 _ rfl smj, s.afterOf_comm hjk apart e1 e2⟩

end Sys2Proof.Machine

/-! SUPPORT. What the host's registers show and take (10_state R36 to R50, 20_memory R76, R77): bad accesses, the
status bits, and the checked writes of FDEBUG, SMi_INSTR, INSTR_MEM and the configuration. -/

namespace Sys2Proof.Machine

/-! ## Bad accesses (R36, R76) -/

/-- An offset that no register has, or that is not aligned, has no register. -/
theorem regAt_eq_none {off : Nat} (h : off % 4 ≠ 0 ∨ ∀ r, off ≠ regOffset r) : regAt off = none := by
  obtain odd | noReg := h
  · exact if_pos odd
  · exact Option.eq_none_iff_forall_ne_some.mpr fun r hr => noReg r (regAt_eq_some hr)

theorem hostRead_of_bad (s : State) {width off : Nat} (h : width ≠ 32 ∨ regAt off = none) :
    hostRead s width off = s.refuseHost .refusedHostAccess := by
  unfold hostRead
  split
  · next wide => rw [h.resolve_left (not_not_intro wide)]
  · rfl

theorem hostWrite_of_bad (s : State) {width off : Nat} (v : Word) (h : width ≠ 32 ∨ regAt off = none) :
    hostWrite s width off v = s.refuseHost .refusedHostAccess := by
  unfold hostWrite
  split
  · next wide => rw [h.resolve_left (not_not_intro wide)]
  · rfl

/-- Settles O45: no register answers, or the one that does refuses. -/
theorem badAccessIsRefused : Obligations.BadAccessIsRefused := by
  unfold Obligations.BadAccessIsRefused
  intro s width off v
  refine ⟨fun bad => ?_, fun r hr => ?_, fun r hr => ?_⟩
  · have none := bad.imp_right regAt_eq_none
    rw [hostRead_of_bad s none, hostWrite_of_bad s v none]
    exact ⟨s.accessRefused_refuseHost _, s.accessRefused_refuseHost _⟩
  · rw [hostRead_regOffset]
    obtain ⟨i, rfl⟩ | ⟨a, rfl⟩ := hr <;> exact s.accessRefused_refuseHost _
  · rw [hostWrite_regOffset]
    obtain rfl | rfl | ⟨i, rfl⟩ := hr <;> exact s.accessRefused_refuseHost _

/-! ## The status bits (R40 to R43) -/

/-- Machine `k`'s bit of a packed field. -/
theorem getLsbD_packBits_self {b : Nat} (f : Fin 4 → Bool) (k : Fin 4) (hb : b + 4 ≤ 32) :
    (packBits b f).getLsbD (b + k.val) = f k := by
  rw [getLsbD_packBits b f _ hb, dif_pos (by omega)]
  exact congrArg f (Fin.ext (Nat.add_sub_cancel_left _ _))

theorem getLsbD_packBits_outside {b : Nat} (f : Fin 4 → Bool) {i : Nat} (hb : b + 4 ≤ 32)
    (hi : i < b ∨ b + 4 ≤ i) : (packBits b f).getLsbD i = false := by
  rw [getLsbD_packBits b f _ hb, dif_neg (by omega)]

/-- The bits beside a packed field are 0. -/
theorem extractLsb'_packBits_outside {b : Nat} (f : Fin 4 → Bool) {start n : Nat} (hb : b + 4 ≤ 32)
    (hi : start + n ≤ b ∨ b + 4 ≤ start) : (packBits b f).extractLsb' start n = 0#n := by
  apply BitVec.eq_of_getLsbD_eq
  intro i hlt
  rw [BitVec.getLsbD_extractLsb', getLsbD_packBits_outside f hb (by omega), Bool.and_false, BitVec.getLsbD_zero]

/-- Of a number below 256 moved up by `8 * j` the byte `k` is the number where `k` is `j`, else 0. -/
theorem extractLsb'_byte {n : Nat} (hn : n < 256) {j k : Nat} (hk : k < 4) :
    (BitVec.ofNat 32 n <<< (8 * j)).extractLsb' (8 * k) 8 = if j = k then BitVec.ofNat 8 n else 0#8 := by
  apply BitVec.eq_of_getLsbD_eq
  intro i hi
  have high {l : Nat} (hl : 8 ≤ l) : n.testBit l = false :=
    Nat.testBit_lt_two_pow (hn.trans_le (Nat.pow_le_pow_right Nat.zero_lt_two hl : 2 ^ 8 ≤ 2 ^ l))
  rw [BitVec.getLsbD_extractLsb', BitVec.getLsbD_shiftLeft, BitVec.getLsbD_ofNat]
  obtain before | rfl | after := lt_trichotomy j k
  · rw [if_neg before.ne, high (by omega)]
    simp
  · rw [if_pos rfl, BitVec.getLsbD_ofNat, Nat.add_sub_cancel_left]
    have : 8 * j + i < 32 ∧ i < 32 := by omega
    simp [hi, this]
  · rw [if_neg after.ne']
    have : 8 * k + i < 8 * j := by omega
    simp [this]

/-- A FIFO of at most 15 words has its length in its byte of FLEVEL (R43). -/
theorem State.extractLsb'_flevel {s : State} (h : ∀ j, (s.sm j).txf.length < 16) (k : Fin 4) :
    (s.flevel.extractLsb' (8 * k.val) 8).toNat = (s.sm k).txf.length := by
  have small j : (s.sm j).txf.length < 256 := (h j).trans (by decide)
  have bytes : s.flevel.extractLsb' (8 * k.val) 8 = BitVec.ofNat 8 (s.sm k).txf.length := by
    rw [State.flevel, ← BitVec.shiftLeft_zero (x := BitVec.ofNat 32 (s.sm 0).txf.length),
      BitVec.extractLsb'_or, BitVec.extractLsb'_or, BitVec.extractLsb'_or]
    have byte j (i : Fin 4) := extractLsb'_byte (small i) (j := j) k.isLt
    rw [byte 0 0, byte 1 1, byte 2 2, byte 3 3]
    fin_cases k <;> simp
  rw [bytes, BitVec.toNat_ofNat, Nat.mod_eq_of_lt (small k)]

/-- The packed fields 27:24 and 19:16 of FSTAT and FDEBUG, beside a constant that is 0 in 31:16 (R41, R42). -/
theorem packed_status_bits (f g : Fin 4 → Bool) (c : BitVec 16) (k : Fin 4) :
    let w := packBits 24 f ||| packBits 16 g ||| c.setWidth 32
    w.getLsbD (24 + k.val) = f k ∧ w.getLsbD (16 + k.val) = g k ∧ w.extractLsb' 0 16 = c ∧
      w.extractLsb' 20 4 = 0#4 ∧ w.extractLsb' 28 4 = 0#4 := by
  have high {i : Nat} (hi : 16 ≤ i) : (c.setWidth 32).getLsbD i = false := by
    rw [BitVec.getLsbD_setWidth, BitVec.getLsbD_of_ge _ _ hi, Bool.and_false]
  have highField {start n : Nat} (hs : 16 ≤ start) : (c.setWidth 32).extractLsb' start n = 0#n := by
    apply BitVec.eq_of_getLsbD_eq
    intro i _
    rw [BitVec.getLsbD_extractLsb', high (by omega), Bool.and_false, BitVec.getLsbD_zero]
  have reserved {start n : Nat} (hs : start + n ≤ 24 ∧ 20 ≤ start ∨ 28 ≤ start) :
      (packBits 24 f ||| packBits 16 g ||| c.setWidth 32).extractLsb' start n = 0#n := by
    rw [BitVec.extractLsb'_or, BitVec.extractLsb'_or, extractLsb'_packBits_outside f (by decide) (by omega),
      extractLsb'_packBits_outside g (by decide) (by omega), highField (by omega), BitVec.or_zero, BitVec.or_zero]
  refine ⟨?_, ?_, ?_, reserved (by decide), reserved (by decide)⟩
  · rw [BitVec.getLsbD_or, BitVec.getLsbD_or, getLsbD_packBits_self f k (by decide),
      getLsbD_packBits_outside g (by decide) (by omega), high (by omega), Bool.or_false, Bool.or_false]
  · rw [BitVec.getLsbD_or, BitVec.getLsbD_or, getLsbD_packBits_self g k (by decide),
      getLsbD_packBits_outside f (by decide) (by omega), high (by omega), Bool.or_false, Bool.false_or]
  · have low : (c.setWidth 32).extractLsb' 0 16 = c := by
      apply BitVec.eq_of_toNat_eq
      rw [BitVec.extractLsb'_toNat, BitVec.toNat_setWidth, Nat.shiftRight_zero]
      omega
    rw [BitVec.extractLsb'_or, BitVec.extractLsb'_or, extractLsb'_packBits_outside f (by decide) (by decide),
      extractLsb'_packBits_outside g (by decide) (by decide), low, BitVec.zero_or, BitVec.zero_or]

/-- EXECCTRL's bit 31 as read is EXEC_STALLED (R45). -/
theorem SM.execctrlRead_top (m : SM) : m.execctrlRead.getLsbD 31 = m.stalled := by
  rw [m.execctrlRead_eq_append, BitVec.getLsbD_append]
  cases m.stalled <;> rfl

/-- Settles O47: each status register is packed from the machines' bits. -/
theorem statusBits : Obligations.StatusBits := by
  unfold Obligations.StatusBits
  intro s k
  have run : s.ctrl.getLsbD (0 + k.val) = (s.sm k).enabled := getLsbD_packBits_self _ k (by decide)
  obtain ⟨empty, full, receive, f23, f31⟩ := packed_status_bits (fun k => (s.sm k).fifoEmpty)
    (fun k => (s.sm k).fifoFull) 0x0F00#16 k
  obtain ⟨stall, overflow, low, d23, d31⟩ := packed_status_bits (fun k => (s.sm k).txstall)
    (fun k => (s.sm k).txover) 0#16 k
  have fdebug : s.fdebug = packBits 24 (fun k => (s.sm k).txstall) ||| packBits 16 (fun k => (s.sm k).txover) |||
    (0#16).setWidth 32 := (BitVec.or_zero).symm
  rw [← fdebug] at stall overflow low d23 d31
  exact ⟨Nat.zero_add k.val ▸ run, extractLsb'_packBits_outside _ (by decide) (by decide), empty, full, receive,
    f23, f31, stall, overflow, low, d23, d31, fun short => State.extractLsb'_flevel short k, SM.execctrlRead_top _⟩

/-! ## FDEBUG (R37, R42) -/

theorem fdebugAdmits_iff {v : Word} :
    fdebugAdmits v = true ↔ v.extractLsb' 28 4 = 0#4 ∧ v.extractLsb' 20 4 = 0#4 ∧ v.extractLsb' 12 4 = 0#4 ∧
      v.extractLsb' 4 4 = 0#4 := by
  simp [fdebugAdmits, and_assoc]

/-- Settles O49: an admitted write clears the bits machine by machine, any other is refused. -/
theorem fdebugWriteOneClears : Obligations.FdebugWriteOneClears := by
  unfold Obligations.FdebugWriteOneClears
  intro s v good
  rw [hostWrite_regOffset, writeReg]
  constructor
  · intro admitted
    rw [if_pos (fdebugAdmits_iff.mpr admitted)]
    exact ⟨_, rfl, State.sm_setAll s fun k => clearDebug (s.sm k) k v, rfl⟩
  · intro bad
    rw [if_neg (fdebugAdmits_iff.not.mpr bad)]
    exact s.accessRefused_refuseHost _

/-! ## Words below a power of two -/

/-- The bits of a word from `start` on are 0 exactly if it is below `2 ^ start`. -/
theorem Word.extractLsb'_eq_zero_iff (v : Word) {start n : Nat} (h : start + n = 32) :
    v.extractLsb' start n = 0#n ↔ v.toNat < 2 ^ start := by
  have fits : v.toNat / 2 ^ start < 2 ^ n := by
    rw [Nat.div_lt_iff_lt_mul (Nat.two_pow_pos _), ← Nat.pow_add, Nat.add_comm, h]
    exact v.isLt
  rw [← BitVec.toNat_inj, BitVec.extractLsb'_toNat, Nat.shiftRight_eq_div_pow, Nat.mod_eq_of_lt fits]
  exact Nat.div_eq_zero_iff_lt (Nat.two_pow_pos _)

/-- The low bits of a word are its number, modulo a power of two. -/
theorem Word.extractLsb'_zero (v : Word) (n : Nat) : v.extractLsb' 0 n = BitVec.ofNat n v.toNat :=
  BitVec.eq_of_toNat_eq (by simp)

/-! ## SMi_INSTR and INSTR_MEM (R49, R77) -/

theorem forcedJump_iff {v : Word} : forcedJump v = true ↔ v.toNat < 32 := by
  rw [forcedJump, beq_iff_eq]
  exact Word.extractLsb'_eq_zero_iff v (start := 5) rfl

/-- The forced JMP of a disabled machine (R49, R279). -/
theorem writeReg_instr {s : State} {k : Fin 4} {v : Word} (hd : (s.sm k).enabled = false) (hv : v.toNat < 32) :
    writeReg s (.instr k) v =
      s.setSm k { s.sm k with pc := BitVec.ofNat 5 v.toNat, jumped := (s.sm k).restarted } := by
  rw [writeReg, if_pos (by rw [hd, forcedJump_iff.mpr hv]; rfl), Word.extractLsb'_zero]

/-- Settles O50: a read gives the slot's word or the draw, and a write is taken exactly as a forced JMP of a
disabled machine. -/
theorem instrRegister : Obligations.InstrRegister := by
  unfold Obligations.InstrRegister
  intro s k v
  rw [hostRead_regOffset, hostWrite_regOffset]
  refine ⟨fun w hw => ?_, fun hslot => ?_, writeReg_instr, fun bad => ?_⟩
  · have value : regValue s (.instr k) = some (w.setWidth 32) :=
      congrArg (Option.map fun w : Half => w.setWidth 32) hw
    rw [readReg_of_regValue value, BitVec.ofNat_toNat]
    rfl
  · refine ⟨Config.unloadedWord s.hostDraws, ?_⟩
    rw [readReg_instr_of_unloaded hslot, BitVec.ofNat_toNat]
  · have refused : ¬(!(s.sm k).enabled && forcedJump v) = true := by
      rw [Bool.and_eq_true, Bool.not_eq_true', forcedJump_iff]
      rintro ⟨disabled, small⟩
      obtain enabled | large := bad
      · exact nomatch disabled.symm.trans enabled
      · exact absurd small (Nat.not_lt.mpr large)
    rw [writeReg, if_neg refused]
    exact s.accessRefused_refuseHost _

/-- Settles O51: the write of a slot, with every machine disabled and the upper half 0, is the memory's write
(the refusal of another upper half and its reason are the model's choice, log 18). -/
theorem imemWriteLoadsOneSlot : Obligations.ImemWriteLoadsOneSlot := by
  unfold Obligations.ImemWriteLoadsOneSlot
  intro s a v
  have admitted_iff : (!s.anyEnabled && v.extractLsb' 16 16 == 0) = true ↔
      (∀ k, (s.sm k).enabled = false) ∧ v.toNat < 65536 := by
    rw [Bool.and_eq_true, Bool.not_eq_true', State.anyEnabled_eq_false, beq_iff_eq]
    exact and_congr_right fun _ => Word.extractLsb'_eq_zero_iff v (start := 16) rfl
  rw [hostWrite_regOffset, writeReg]
  constructor
  · intro disabled small
    rw [if_pos (admitted_iff.mpr ⟨disabled, small⟩), Word.extractLsb'_zero]
    exact ⟨_, rfl, Memory.read_write_self _ _ _, fun b hb => Memory.read_write_of_ne _ _ hb, rfl⟩
  · intro bad
    have refused : ¬((∀ k, (s.sm k).enabled = false) ∧ v.toNat < 65536) := by
      rintro ⟨disabled, small⟩
      obtain ⟨k, enabled⟩ | large := bad
      · exact nomatch (disabled k).symm.trans enabled
      · exact absurd small (Nat.not_lt.mpr large)
    rw [if_neg (admitted_iff.not.mpr refused)]
    exact s.accessRefused_refuseHost _

/-! ## The configuration registers (R37, R44, R45, R47, R50) -/

/-- A configuration write whose premises are `good` is taken where they hold and refused where they do not. -/
theorem writeConfig_checked {s : State} {k : Fin 4} {admitted : Bool} {good : Prop} (m : SM)
    (h : good ↔ (s.sm k).enabled = false ∧ admitted = true) :
    (good → writeConfig s k admitted m = s.setSm k m) ∧
      (¬good → s.AccessRefused (writeConfig s k admitted m) .refusedConfig) := by
  have test : (!(s.sm k).enabled && admitted) = true ↔ good := by
    rw [Bool.and_eq_true, Bool.not_eq_true', h]
  constructor
  · intro taken
    exact if_pos (test.mpr taken)
  · intro bad
    rw [writeConfig, if_neg (test.not.mpr bad)]
    exact s.accessRefused_refuseHost _

/-- Settles O52: CLKDIV is a checked configuration register. -/
theorem clkdivWriteIsChecked : Obligations.ClkdivWriteIsChecked := by
  unfold Obligations.ClkdivWriteIsChecked
  intro s k v good
  rw [hostWrite_regOffset, writeReg]
  refine writeConfig_checked _ (and_congr_right fun _ => ?_)
  simp [clkdivAdmits, imp_iff_not_or]

/-- EXECCTRL's write drops bit 31 (R45). -/
theorem Word.and_mask31 (v : Word) : v &&& 0x7FFFFFFF = BitVec.ofNat 32 (v.toNat % 2 ^ 31) := by
  apply BitVec.eq_of_toNat_eq
  have := v.isLt
  rw [BitVec.toNat_and, BitVec.toNat_ofNat, Nat.mod_eq_of_lt (by omega)]
  exact Nat.and_two_pow_sub_one_eq_mod v.toNat 31

/-- Settles O60: EXECCTRL, SHIFTCTRL and PINCTRL are checked configuration registers. -/
theorem otherConfigurationWritesAreChecked : Obligations.OtherConfigurationWritesAreChecked := by
  unfold Obligations.OtherConfigurationWritesAreChecked
  intro s k v execGood shiftGood pinGood
  rw [hostWrite_regOffset, hostWrite_regOffset, hostWrite_regOffset, writeReg, writeReg, writeReg, Word.and_mask31]
  have exec := writeConfig_checked (s := s) (k := k) (good := execGood) (admitted := execctrlAdmits v)
    { s.sm k with execctrl := BitVec.ofNat 32 (v.toNat % 2 ^ 31) }
    (and_congr_right fun _ => by simp [execctrlAdmits, and_assoc])
  have shift := writeConfig_checked (s := s) (k := k) (good := shiftGood)
    (admitted := shiftctrlAdmits v && (v.getLsbD 30 == (s.sm k).fjoinTx || (s.sm k).fifoEmpty))
    { s.sm k with shiftctrl := v }
    (and_congr_right fun _ => by simp [shiftctrlAdmits, SM.fjoinTx, SM.fifoEmpty, and_assoc])
  have pin := writeConfig_checked (s := s) (k := k) (good := pinGood) (admitted := pinctrlAdmits v)
    { s.sm k with pinctrl := v }
    (and_congr_right fun _ => by simp [pinctrlAdmits, and_assoc])
  exact ⟨exec.1, exec.2, shift.1, shift.2, pin.1, pin.2⟩

end Sys2Proof.Machine

/-! SUPPORT. Restart, start and stop of a machine by a write of CTRL (10_state R40, 40_execution R137, R144,
46_channels_host R277, R279, 70_reset_and_hazards R323, R325). -/

namespace Sys2Proof.Machine

/-! ## The fields of a CTRL word -/

/-- A word with one bit set besides. -/
theorem getLsbD_or_bit (v : Word) {b : Nat} (hb : b < 32) (i : Nat) :
    (v ||| 1#32 <<< b).getLsbD i = (v.getLsbD i || decide (i = b)) := by
  rw [BitVec.getLsbD_or, ← BitVec.twoPow_eq, BitVec.getLsbD_twoPow]
  by_cases h : i = b
  · simp [h, hb]
  · simp [h, Ne.symm h]

/-- A word with one bit cleared. -/
theorem getLsbD_and_not_bit (v : Word) {b : Nat} (hb : b < 32) (i : Nat) :
    (v &&& ~~~(1#32 <<< b)).getLsbD i = (v.getLsbD i && !decide (i = b)) := by
  rw [BitVec.getLsbD_and, BitVec.getLsbD_not, ← BitVec.twoPow_eq, BitVec.getLsbD_twoPow]
  by_cases h : i = b
  · simp [h, hb]
  · by_cases hi : i < 32
    · simp [h, hi, Ne.symm h]
    · simp [BitVec.getLsbD_of_ge v i (Nat.le_of_not_lt hi)]

section SetBit
variable (v : Word) {b : Nat} (k : Fin 4)

theorem ctrlEnable_or_bit (hb : b < 32) :
    ctrlEnable (v ||| 1#32 <<< b) k = (ctrlEnable v k || decide (k.val = b)) := getLsbD_or_bit v hb _

theorem ctrlRestart_or_bit (hb : b < 32) :
    ctrlRestart (v ||| 1#32 <<< b) k = (ctrlRestart v k || decide (4 + k.val = b)) := getLsbD_or_bit v hb _

theorem ctrlClkRestart_or_bit (hb : b < 32) :
    ctrlClkRestart (v ||| 1#32 <<< b) k = (ctrlClkRestart v k || decide (8 + k.val = b)) := getLsbD_or_bit v hb _

/-- A bit of the three fields is none of the reserved ones (R40). -/
theorem reserved_or_bit (hb : b < 12) : (v ||| 1#32 <<< b).extractLsb' 12 20 = v.extractLsb' 12 20 := by
  apply BitVec.eq_of_getLsbD_eq
  intro i _
  rw [BitVec.getLsbD_extractLsb', BitVec.getLsbD_extractLsb', getLsbD_or_bit v (by omega),
    decide_eq_false (show ¬12 + i = b by omega), Bool.or_false]

end SetBit

section ReadCtrl
variable (s : State) (k : Fin 4)

theorem ctrlEnable_ctrl : ctrlEnable s.ctrl k = (s.sm k).enabled := by
  have := getLsbD_packBits_self (b := 0) (fun k => (s.sm k).enabled) k (by decide)
  rwa [Nat.zero_add] at this

theorem ctrlRestart_ctrl : ctrlRestart s.ctrl k = false :=
  getLsbD_packBits_outside _ (by decide) (by omega)

theorem ctrlClkRestart_ctrl : ctrlClkRestart s.ctrl k = false :=
  getLsbD_packBits_outside _ (by decide) (by omega)

theorem reserved_ctrl : s.ctrl.extractLsb' 12 20 = 0 :=
  extractLsb'_packBits_outside _ (by decide) (by decide)

end ReadCtrl

/-! ## An admitted write -/

section WriteCtrl
variable {s : State} {v : Word}

/-- Machine `k`'s own premises: its restarts only while it is disabled, its enable only after steps 1 and 2 of the
start, and for a dummy slot only with an empty SET group (R137, R279, R283, R323). -/
theorem ctrlAdmitsSm_iff {k : Fin 4} :
    ctrlAdmitsSm s v k = true ↔
      (ctrlRestart v k = true ∨ ctrlClkRestart v k = true → (s.sm k).enabled = false) ∧
      (ctrlEnable v k = true → (s.sm k).enabled = false →
        (s.sm k).restarted = true ∧ (s.sm k).jumped = true ∧ (s.nCh ≤ k.val → (s.sm k).setCount = 0)) := by
  simp only [ctrlAdmitsSm, State.dummy, Bool.and_eq_true, Bool.or_eq_true, Bool.not_eq_true', ← Bool.not_eq_true,
    ← imp_iff_not_or, decide_eq_true_eq, beq_iff_eq, and_imp, and_assoc]

/-- A write that starts no machine is admitted if its reserved bits are 0 and it restarts only disabled ones. -/
theorem ctrlAdmits_of_no_start (reserved : v.extractLsb' 12 20 = 0)
    (restarts : ∀ k, ctrlRestart v k = true ∨ ctrlClkRestart v k = true → (s.sm k).enabled = false)
    (keeps : ∀ k, ctrlEnable v k = true → (s.sm k).enabled = true) : ctrlAdmits s v = true := by
  have noStart k (on : ctrlEnable v k = true) (off : (s.sm k).enabled = false) : False :=
    nomatch (keeps k on).symm.trans off
  exact ctrlAdmits_iff.mpr ⟨reserved,
    fun k => ctrlAdmitsSm_iff.mpr ⟨restarts k, fun on off => (noStart k on off).elim⟩,
    fun ⟨k, on, off⟩ => (noStart k on off).elim⟩

/-- A machine that is not restarted and whose run bit is written as it is stays as it is. -/
theorem ctrlSm_of_kept {k : Fin 4} (hr : ctrlRestart v k = false) (he : ctrlEnable v k = (s.sm k).enabled) :
    ctrlSm s v k = s.sm k := by
  unfold ctrlSm
  rw [hr, he]
  cases (s.sm k).enabled <;> rfl

/-- An admitted write that leaves the other machines as they are is a write of one machine. -/
theorem writeReg_ctrl_one {k : Fin 4} (admitted : ctrlAdmits s v = true)
    (others : ∀ j, j ≠ k → ctrlSm s v j = s.sm j) : writeReg s .ctrl v = s.setSm k (ctrlSm s v k) := by
  have machines : (writeReg s .ctrl v).sms = (s.setSm k (ctrlSm s v k)).sms := by
    refine State.sms_ext fun j => ?_
    rw [writeReg, writeCtrl, if_pos admitted, State.sm_setAll, State.sm_setSm]
    split
    · next same => rw [same]
    · next other => exact others j other
  rw [writeReg, writeCtrl, if_pos admitted] at machines ⊢
  exact congrArg (fun sms => { s with sms := sms }) machines

/-- Writes that come to the same for every machine, and are admitted alike, are the same. -/
theorem writeReg_ctrl_congr {w : Word} (admitted : ctrlAdmits s v = ctrlAdmits s w)
    (same : ∀ k, ctrlSm s v k = ctrlSm s w k) : writeReg s .ctrl v = writeReg s .ctrl w := by
  simp only [writeReg, writeCtrl, admitted, same]

/-- A write that is not admitted has no effect (R37, R303). -/
theorem accessRefused_of_not_admitted (bad : ctrlAdmits s v ≠ true) :
    s.AccessRefused (writeReg s .ctrl v) .refusedConfig := by
  rw [writeReg, writeCtrl, if_neg bad]
  exact s.accessRefused_refuseHost _

end WriteCtrl

/-! ## Restart (R279, R323) -/

section OneMachine
variable (s : State) {k : Fin 4}

/-- SM_RESTART of a disabled machine is the restart of that machine (R323). -/
theorem writeReg_ctrl_restart (hd : (s.sm k).enabled = false) :
    writeReg s .ctrl (s.ctrl ||| 1#32 <<< (4 + k.val)) = s.setSm k (s.sm k).restart := by
  have enable j : ctrlEnable (s.ctrl ||| 1#32 <<< (4 + k.val)) j = (s.sm j).enabled := by
    rw [ctrlEnable_or_bit _ _ (by omega), ctrlEnable_ctrl, decide_eq_false (by omega), Bool.or_false]
  have restart j : ctrlRestart (s.ctrl ||| 1#32 <<< (4 + k.val)) j = decide (j = k) := by
    rw [ctrlRestart_or_bit _ _ (by omega), ctrlRestart_ctrl, Bool.false_or, decide_eq_decide, Fin.ext_iff]
    omega
  have clk j : ctrlClkRestart (s.ctrl ||| 1#32 <<< (4 + k.val)) j = false := by
    rw [ctrlClkRestart_or_bit _ _ (by omega), ctrlClkRestart_ctrl, decide_eq_false (by omega), Bool.or_false]
  have admitted : ctrlAdmits s (s.ctrl ||| 1#32 <<< (4 + k.val)) = true := by
    refine ctrlAdmits_of_no_start ?_ (fun j hj => ?_) fun j hj => enable j ▸ hj
    · rw [reserved_or_bit _ (by omega), reserved_ctrl]
    · rw [restart, clk, decide_eq_true_eq] at hj
      exact (hj.resolve_right nofun) ▸ hd
  rw [writeReg_ctrl_one admitted fun j hj => ctrlSm_of_kept ((restart j).trans (decide_eq_false hj)) (enable j),
    ctrlSm, restart, enable, hd, decide_eq_true rfl]
  rfl

end OneMachine

/-- The write of CTRL with the divider restart of a disabled machine comes to the write without it (R137). -/
theorem writeReg_ctrl_clkRestart {s : State} {k : Fin 4} (hd : (s.sm k).enabled = false) (v : Word) :
    writeReg s .ctrl (v ||| 1#32 <<< (8 + k.val)) = writeReg s .ctrl v := by
  have enable j : ctrlEnable (v ||| 1#32 <<< (8 + k.val)) j = ctrlEnable v j := by
    rw [ctrlEnable_or_bit _ _ (by omega), decide_eq_false (by omega), Bool.or_false]
  have restart j : ctrlRestart (v ||| 1#32 <<< (8 + k.val)) j = ctrlRestart v j := by
    rw [ctrlRestart_or_bit _ _ (by omega), decide_eq_false (by omega), Bool.or_false]
  have own j : ctrlAdmitsSm s (v ||| 1#32 <<< (8 + k.val)) j = ctrlAdmitsSm s v j := by
    rw [ctrlAdmitsSm, ctrlAdmitsSm, enable, restart, ctrlClkRestart_or_bit _ _ (by omega)]
    by_cases same : j = k
    · rw [same, hd, Bool.not_false, Bool.or_true, Bool.or_true]
    · rw [decide_eq_false (by omega), Bool.or_false]
  refine writeReg_ctrl_congr ?_ fun j => ?_
  · rw [Bool.eq_iff_iff, ctrlAdmits_iff, ctrlAdmits_iff, reserved_or_bit _ (by omega)]
    simp only [own, enable, ctrlAdmitsPair]
  · unfold ctrlSm
    rw [enable, restart]

/-- CTRL written back as it reads changes nothing. -/
theorem writeReg_ctrl_self (s : State) : writeReg s .ctrl s.ctrl = s := by
  have admitted : ctrlAdmits s s.ctrl = true := by
    refine ctrlAdmits_of_no_start (reserved_ctrl s) (fun k h => ?_) fun k h => ctrlEnable_ctrl s k ▸ h
    rw [ctrlRestart_ctrl, ctrlClkRestart_ctrl] at h
    exact nomatch h.elim id id
  have kept k : ctrlSm s s.ctrl k = s.sm k := ctrlSm_of_kept (ctrlRestart_ctrl s k) (ctrlEnable_ctrl s k)
  rw [writeReg_ctrl_one (k := 0) admitted fun j _ => kept j, kept]
  exact congrArg (fun v => { s with sms := v }) (Vector.set_getElem_self _)

/-- Settles O53: a restart is taken only of a disabled machine, and CLKDIV_RESTART of a disabled machine drops
out of every write. -/
theorem restartClearsOnlyItsList : Obligations.RestartClearsOnlyItsList := by
  unfold Obligations.RestartClearsOnlyItsList
  intro s k
  have refused {v : Word} (enabled : (s.sm k).enabled = true)
      (h : ctrlRestart v k = true ∨ ctrlClkRestart v k = true) :
      s.AccessRefused (writeReg s .ctrl v) .refusedConfig := by
    refine accessRefused_of_not_admitted fun admitted => ?_
    obtain ⟨-, own, -⟩ := ctrlAdmits_iff.mp admitted
    exact nomatch ((ctrlAdmitsSm_iff.mp (own k)).1 h).symm.trans enabled
  refine ⟨fun hd => ⟨true, ?_⟩, fun enabled => ⟨_, refused enabled (.inl ?_)⟩,
    fun hd => ⟨?_, fun v => ?_⟩,
    fun v enabled h => ?_, fun v h => ?_⟩
  · rw [writeReg_ctrl_restart s hd, SM.restart]
    cases Config.osrStart <;> rfl
  · rw [ctrlRestart_or_bit _ _ (by omega), decide_eq_true rfl, Bool.or_true]
  · rw [writeReg_ctrl_clkRestart hd, writeReg_ctrl_self]
  · rw [hostWrite_regOffset, hostWrite_regOffset, writeReg_ctrl_clkRestart hd]
  · rw [hostWrite_regOffset]
    exact refused enabled (.inr h)
  · rw [hostWrite_regOffset]
    exact accessRefused_of_not_admitted fun admitted => h (ctrlAdmits_iff.mp admitted).1

/-! ## Start (R137, R277, R279, R325) -/

section StartWord
variable (s : State) (k j : Fin 4)

/-- The run bits of a start. -/
theorem ctrlEnable_start :
    ctrlEnable (s.ctrl ||| 1#32 <<< k.val) j = ((s.sm j).enabled || decide (j = k)) := by
  rw [ctrlEnable_or_bit _ _ (by omega), ctrlEnable_ctrl]
  simp only [Fin.ext_iff]

/-- A start restarts nothing. -/
theorem ctrlRestart_start : ctrlRestart (s.ctrl ||| 1#32 <<< k.val) j = false := by
  rw [ctrlRestart_or_bit _ _ (by omega), ctrlRestart_ctrl, decide_eq_false (by omega), Bool.or_false]

theorem ctrlClkRestart_start : ctrlClkRestart (s.ctrl ||| 1#32 <<< k.val) j = false := by
  rw [ctrlClkRestart_or_bit _ _ (by omega), ctrlClkRestart_ctrl, decide_eq_false (by omega), Bool.or_false]

end StartWord

section Start
variable {s : State} {k : Fin 4} (hd : (s.sm k).enabled = false)
include hd

/-- What the start of a disabled machine needs to be admitted (R277, R279, R283). -/
theorem ctrlAdmits_start_iff :
    ctrlAdmits s (s.ctrl ||| 1#32 <<< k.val) = true ↔
      ((s.sm k).restarted = true ∧ (s.sm k).jumped = true ∧ (s.nCh ≤ k.val → (s.sm k).setCount = 0)) ∧
      ∀ i j, i ≠ j → ctrlAdmitsPair s (s.ctrl ||| 1#32 <<< k.val) i j = true := by
  have on : ctrlEnable (s.ctrl ||| 1#32 <<< k.val) k = true := by
    rw [ctrlEnable_start, decide_eq_true rfl, Bool.or_true]
  rw [ctrlAdmits_iff]
  constructor
  · rintro ⟨-, own, pairs⟩
    exact ⟨(ctrlAdmitsSm_iff.mp (own k)).2 on hd, pairs ⟨k, on, hd⟩⟩
  · rintro ⟨steps, pairs⟩
    refine ⟨?_, fun j => ctrlAdmitsSm_iff.mpr ⟨fun h => ?_, fun onj offj => ?_⟩, fun _ => pairs⟩
    · rw [reserved_or_bit _ (by omega), reserved_ctrl]
    · rw [ctrlRestart_start, ctrlClkRestart_start] at h
      exact nomatch h.elim id id
    · rw [ctrlEnable_start, offj, Bool.false_or, decide_eq_true_eq] at onj
      exact onj ▸ steps

/-- A start that lacks step 1 or step 2, or whose SET group meets an enabled machine's, is refused (R277, R279). -/
theorem accessRefused_of_start
    (h : (s.sm k).restarted = false ∨ (s.sm k).jumped = false ∨
      ∃ (j : Fin 4) (p : PinIx),
        (s.sm j).enabled = true ∧ (s.sm j).inGroup p = true ∧ (s.sm k).inGroup p = true) :
    s.AccessRefused (writeReg s .ctrl (s.ctrl ||| 1#32 <<< k.val)) .refusedConfig := by
  refine accessRefused_of_not_admitted fun admitted => ?_
  obtain ⟨⟨restarted, jumped, -⟩, pairs⟩ := (ctrlAdmits_start_iff hd).mp admitted
  obtain no | no | ⟨j, p, running, inj, ink⟩ := h
  · exact nomatch no.symm.trans restarted
  · exact nomatch no.symm.trans jumped
  · have other : j ≠ k := by
      rintro rfl
      exact nomatch hd.symm.trans running
    refine ctrlAdmitsPair_iff.mp (pairs j k other) ?_ ?_ p ⟨inj, ink⟩
    · rw [ctrlEnable_start, running, Bool.true_or]
    · rw [ctrlEnable_start, decide_eq_true rfl, Bool.or_true]

/-- An admitted start is the start of that machine. -/
theorem writeReg_ctrl_start (admitted : ctrlAdmits s (s.ctrl ||| 1#32 <<< k.val) = true) :
    writeReg s .ctrl (s.ctrl ||| 1#32 <<< k.val) = s.setSm k ((s.sm k).start k s.time) := by
  have others j (hj : j ≠ k) : ctrlSm s (s.ctrl ||| 1#32 <<< k.val) j = s.sm j :=
    ctrlSm_of_kept (ctrlRestart_start s k j) (by rw [ctrlEnable_start, decide_eq_false hj, Bool.or_false])
  rw [writeReg_ctrl_one admitted others, ctrlSm, ctrlRestart_start, ctrlEnable_start, hd, decide_eq_true rfl]
  rfl

end Start

/-- Settles O54: the start is admitted, since the pins of any two machines enabled after it are apart, and draws the
first pulse at most INT' from now. -/
theorem enableDrawsThePhase : Obligations.EnableDrawsThePhase := by
  unfold Obligations.EnableDrawsThePhase
  intro s k owned hd restarted jumped dummy apart
  have admitted : ctrlAdmits s (s.ctrl ||| 1#32 <<< k.val) = true := by
    refine (ctrlAdmits_start_iff hd).mpr ⟨⟨restarted, jumped, dummy⟩, fun i j hij => ?_⟩
    rw [ctrlAdmitsPair_iff, ctrlEnable_start, ctrlEnable_start]
    simp only [Bool.or_eq_true, decide_eq_true_eq]
    rintro (hi | rfl) (hj | rfl) p
    · exact owned i j hij hi hj p
    · exact apart i hi p
    · exact fun h => apart j hj p h.symm
    · exact absurd rfl hij
  exact ⟨_, _, _, Nat.le_add_right _ _, Nat.add_le_add_left (Nat.le_of_lt_succ (Nat.mod_lt _ (Nat.succ_pos _))) _,
    writeReg_ctrl_start hd admitted⟩

/-- Settles O55: a start needs its steps in order; a forced JMP before the restart is not marked as step 2. -/
theorem enableOutOfOrderIsRefused : Obligations.EnableOutOfOrderIsRefused := by
  unfold Obligations.EnableOutOfOrderIsRefused
  intro s k hd
  refine ⟨accessRefused_of_start hd, ?_⟩
  intro v notRestarted hv jumped restarted
  have hjumped : jumped = s.setSm k { s.sm k with pc := BitVec.ofNat 5 v.toNat, jumped := false } := by
    rw [← notRestarted]
    exact (hostWrite_regOffset ..).trans (writeReg_instr hd hv)
  have smJumped : jumped.sm k = { s.sm k with pc := BitVec.ofNat 5 v.toNat, jumped := false } := by
    rw [hjumped, State.sm_setSm_same]
  have smRestarted : restarted.sm k = (jumped.sm k).restart := by
    have disabled : (jumped.sm k).enabled = false := by rw [smJumped]; exact hd
    rw [show restarted = jumped.setSm k (jumped.sm k).restart from writeReg_ctrl_restart jumped disabled,
      State.sm_setSm_same]
  rw [smJumped] at smRestarted
  refine ⟨by rw [smRestarted]; rfl, by rw [smRestarted]; rfl, accessRefused_of_start ?_ (.inr (.inl ?_))⟩
  · rw [smRestarted]
    exact hd
  · rw [smRestarted]
    rfl

/-! ## Stop (R144) -/

/-- Settles O56: the word keeps every run bit but the machine's, so it freezes that machine and starts none. -/
theorem disableFreezes : Obligations.DisableFreezes := by
  unfold Obligations.DisableFreezes
  intro s k running
  refine ⟨_, rfl, ?_⟩
  have enable j : ctrlEnable (s.ctrl &&& ~~~(1#32 <<< k.val)) j = ((s.sm j).enabled && !decide (j = k)) := by
    rw [ctrlEnable, getLsbD_and_not_bit _ (by omega), ← ctrlEnable_ctrl s j, ctrlEnable]
    simp only [Fin.ext_iff]
  have restart j : ctrlRestart (s.ctrl &&& ~~~(1#32 <<< k.val)) j = false := by
    rw [ctrlRestart, BitVec.getLsbD_and, show s.ctrl.getLsbD (4 + j.val) = false from ctrlRestart_ctrl s j,
      Bool.false_and]
  have clk j : ctrlClkRestart (s.ctrl &&& ~~~(1#32 <<< k.val)) j = false := by
    rw [ctrlClkRestart, BitVec.getLsbD_and, show s.ctrl.getLsbD (8 + j.val) = false from ctrlClkRestart_ctrl s j,
      Bool.false_and]
  have admitted : ctrlAdmits s (s.ctrl &&& ~~~(1#32 <<< k.val)) = true := by
    refine ctrlAdmits_of_no_start ?_ (fun j h => ?_) fun j h => ?_
    · rw [BitVec.extractLsb'_and, reserved_ctrl]
      exact BitVec.zero_and
    · rw [restart, clk] at h
      exact nomatch h.elim id id
    · rw [enable, Bool.and_eq_true] at h
      exact h.1
  have others j (hj : j ≠ k) : ctrlSm s (s.ctrl &&& ~~~(1#32 <<< k.val)) j = s.sm j :=
    ctrlSm_of_kept (restart j) (by rw [enable, decide_eq_false hj, Bool.not_false, Bool.and_true])
  rw [writeReg_ctrl_one admitted others, ctrlSm, restart, enable, running, decide_eq_true rfl]
  rfl

end Sys2Proof.Machine

/-! SUPPORT. The host's submits (46_channels_host R272 to R275, R281, R286). -/

namespace Sys2Proof.Machine

/-! ## One operation at the head of the queue (R88) -/

section HostStep
variable {s : State} {it : HostItem} {rest : List HostItem}

/-- At a boundary a due operation is the step, and where it must hold the host leaves the boundary (R88, R275). -/
theorem step_of_due (hb : s.boundary = true) (hq : s.hostq = it :: rest) (hdue : it.due ≤ s.time) :
    step s = .next ((hostAct s it rest).getD s.leaveBoundary) := by
  rw [step, if_pos hb, hostTurn, hq]
  exact congrArg _ (if_pos hdue)

theorem step_of_hostAct {t : State} (hb : s.boundary = true) (hdue : it.due ≤ s.time) (hq : s.hostq = it :: rest)
    (h : hostAct s it rest = some t) : step s = .next t := by
  rw [step_of_due hb hq hdue, h, Option.getD_some]

end HostStep

/-! ## Submits (R274, R275, R286) -/

section Submit
variable {s : State} {c : Fin 4} (w : Word) (rest : List HostItem)

/-- The write of a submit with room appends the word and returns true (R75). -/
theorem submitNow_of_room (room : (s.sm c).txf.length < (s.sm c).cap) :
    State.submitNow { s with hostq := rest } c w =
      { s.setSm c { s.sm c with txf := (s.sm c).txf ++ [w] } with
        hostq := rest, results := s.results ++ [.flag true] } := by
  rw [State.submitNow, hostWrite_regOffset, writeReg_txf, ← SM.fifoPush_of_lt_cap w room]
  rfl

/-- On a full FIFO it drops the word, records TXOVER and returns true all the same (R75, R286). -/
theorem submitNow_of_full (full : (s.sm c).cap ≤ (s.sm c).txf.length) :
    State.submitNow { s with hostq := rest } c w =
      { s.setSm c { s.sm c with txover := true } with
        hostq := rest, results := s.results ++ [.flag true] } := by
  rw [State.submitNow, hostWrite_regOffset, writeReg_txf, ← SM.fifoPush_of_cap_le w full]
  rfl

end Submit

/-- Settles O57: the read of a submit tests TXFULL, and its write is a push. -/
theorem submitReportsRoom : Obligations.SubmitReportsRoom := by
  unfold Obligations.SubmitReportsRoom
  intro s due lag c w rest hb hdue
  refine ⟨fun hq full => ?_, fun hq room => ?_, fun hq room => ?_⟩
  · exact step_of_hostAct hb hdue hq (if_pos (SM.fifoFull_iff.mpr full))
  · exact step_of_hostAct hb hdue hq (if_neg (SM.fifoFull_iff.not.mpr (Nat.not_le.mpr room)))
  · exact ⟨_, step_of_hostAct hb hdue hq (congrArg some (submitNow_of_room w rest room)), rfl, rfl, rfl⟩

/-- Settles O58: a blocking submit that finds the FIFO full holds; every other one is its write. -/
theorem blockingAndUncheckedSubmit : Obligations.BlockingAndUncheckedSubmit := by
  unfold Obligations.BlockingAndUncheckedSubmit
  intro s due c w rest hb hdue
  refine ⟨fun hq full => ?_, fun hq full => ?_, fun hq room => ?_⟩
  · have holds : hostAct s ⟨due, .submitBlocking c w⟩ rest = none := if_pos (SM.fifoFull_iff.mpr full)
    rw [step_of_due hb hq hdue, holds]
    rfl
  · exact step_of_hostAct hb hdue hq (congrArg some (submitNow_of_full w rest full))
  · rw [← submitNow_of_room w rest room]
    obtain hq | hq := hq
    · exact step_of_hostAct hb hdue hq (if_neg (SM.fifoFull_iff.not.mpr (Nat.not_le.mpr room)))
    · exact step_of_hostAct hb hdue hq rfl

/-! ## Multi-channel operations (R281) -/

/-- The submits of a multi-channel operation, one for each call of the encoder (R281). -/
def multiSubmits (due : Nat) (checked : Bool) (lag : Nat) (calls : List EncOp) : List HostItem :=
  calls.mapIdx fun c e =>
    ⟨due + lag * c,
      if checked then .submit (Fin.ofNat 4 c) (submittedWord (Config.enc e)) 0
      else .submitUnchecked (Fin.ofNat 4 c) (submittedWord (Config.enc e))⟩

theorem multiItems_eq (s : State) (due : Nat) (checked : Bool) (op : MultiOp) (lag : Nat) :
    multiItems s due checked op lag =
      multiSubmits due checked lag (encoderCalls s.nCh op) ++
        [⟨due, .collect (encoderCalls s.nCh op).length⟩] := rfl

/-- Channel `c`'s submit is that of its own call, with the payload zero-extended (R272). -/
theorem getElem?_multiSubmits {due : Nat} {checked : Bool} {lag : Nat} {calls : List EncOp} {c : Fin 4} {e : EncOp}
    (h : calls[c.val]? = some e) :
    (multiSubmits due checked lag calls)[c.val]? = some
      ⟨due + lag * c.val,
        if checked then .submit c (BitVec.ofNat 32 (Config.enc e).toNat) 0
        else .submitUnchecked c (BitVec.ofNat 32 (Config.enc e).toNat)⟩ := by
  have channel : Fin.ofNat 4 c.val = c := Fin.ext (Nat.mod_eq_of_lt c.isLt)
  rw [multiSubmits, List.getElem?_mapIdx, h, BitVec.ofNat_toNat]
  simp only [Option.map_some, channel, submittedWord]

/-- With one argument for each channel the encoder is called on every one of them. -/
theorem encoderCalls_of_length {n : Nat} {op : MultiOp} {calls : List EncOp} (hlen : calls.length = n)
    (h : (op = .throttleMinimum ∧ ∀ e ∈ calls, e = .throttleMinimum) ∨
      (∃ vs, op = .command vs ∧ calls = vs.map .command) ∨
      (∃ fs, op = .reverse fs ∧ calls = fs.map .reverse) ∨
      (∃ vs, op = .throttleClamp vs ∧ calls = vs.map .throttleClamp)) : encoderCalls n op = calls := by
  subst hlen
  obtain ⟨rfl, all⟩ | ⟨vs, rfl, rfl⟩ | ⟨fs, rfl, rfl⟩ | ⟨vs, rfl, rfl⟩ := h
  · exact (List.eq_replicate_of_mem all).symm
  all_goals simp [encoderCalls]

/-- The single results of the channels' submits become one array behind the older results (R281). -/
theorem collect_of_flags {s : State} {before : List HostResult} {oks : List Bool}
    (h : s.results = before ++ oks.map .flag) :
    s.collect oks.length = { s with results := before ++ [.flags oks] } := by
  have keep : s.results.length - oks.length = before.length := by
    rw [h, List.length_append, List.length_map, Nat.add_sub_cancel]
  have flags : (oks.map HostResult.flag).map resultFlag = oks := by
    rw [List.map_map]
    exact List.map_id oks
  unfold State.collect
  simp only [keep]
  rw [h, List.take_left, List.drop_left, flags]

/-- Settles O59: the operation expands into one submit for each call of the encoder, in the order of the
channels, and the return of its array. -/
theorem multiChannelSubmitsInOrder : Obligations.MultiChannelSubmitsInOrder := by
  unfold Obligations.MultiChannelSubmitsInOrder
  intro s due rest hb hdue
  constructor
  · intro lag checked op calls hn hlen hop hq
    refine ⟨multiSubmits due checked lag calls, step_of_hostAct hb hdue hq (congrArg some ?_), ?_,
      fun c e => getElem?_multiSubmits⟩
    · rw [multiItems_eq, encoderCalls_of_length hlen hop, hlen, List.append_assoc, List.singleton_append]
    · rw [multiSubmits, List.length_mapIdx, hlen]
  · intro before oks hres hq
    refine step_of_hostAct hb hdue hq (congrArg some ?_)
    exact collect_of_flags (s := { s with hostq := rest }) hres

end Sys2Proof.Machine
